-- ==== Sys2Proof/Word.lean ====
section
/-! DEFINITION. The words of the block: limbs, the two limb vectors and the two register files
(10_state.md rules R30, R33; 30_encoding.md rule R91). -/

namespace Sys2Proof

/-- A limb of a field register: an unsigned 64-bit integer (rule R30). -/
abbrev FieldLimb := BitVec 64

/-- A limb of a scalar register: an unsigned 52-bit integer (rule R33). -/
abbrev ScalarLimb := BitVec 52

/-- A value of the host window: one 64-bit word (rule R61). -/
abbrev HostWord := BitVec 64

/-- A command word: 32 bits (rule R91). -/
abbrev CommandWord := BitVec 32

/-- `FieldElement`: five 64-bit limbs, limb 0 of least weight (rules R7, R30). -/
abbrev FieldElement := Vector FieldLimb 5

/-- `UnpackedScalar`: five 52-bit limbs, limb 0 of least weight (rules R7, R33). -/
abbrev UnpackedScalar := Vector ScalarLimb 5

/-- The field register file `f[0] .. f[31]` (rule R30). -/
abbrev FieldFile := Vector FieldElement 32

/-- The writable part `s[0] .. s[5]` of the scalar register file (rule R34): `s[6]` and `s[7]` are
hardwired constants and need no storage. -/
abbrev ScalarFile := Vector UnpackedScalar 6

/-- The limb vectors of the four slots of a point register (rule R31). -/
abbrev PointLimbs := Vector FieldElement 4

end Sys2Proof
end

