-- ==== Sys2Proof/Syntax.lean ====
section
/-! DEFINITION. The command set `C25519-CORE` as data: one constructor per row of spec/opcode_table.json
(30_encoding.md rules R92, R93). -/

namespace Sys2Proof

/-- Index of a field register `f[0] .. f[31]`: every 5-bit value is legal (rule R97). -/
abbrev FieldReg := Fin 32

/-- Index of a point register `p[0] .. p[7]` (rule R31). -/
abbrev PointReg := Fin 8

/-- Index of a scalar register `s[0] .. s[7]` (rule R33). -/
abbrev ScalarReg := Fin 8

/-- `sR`, the assembler alias of `s[6]` (rule R34). -/
abbrev sR : ScalarReg := 6

/-- `sRR`, the assembler alias of `s[7]` (rule R34). -/
abbrev sRR : ScalarReg := 7

/-- A command, its operands in assembler order, destination first (rules R93, R100).  Register indices are
typed by the file the opcode and the field position select; a word whose index is out of range is
refused by the decoder (rule R97(a)). -/
inductive Instr where
  /-- `MMUL sd, sa, sb` (rule R156) -/
  | mmul (sd sa sb : ScalarReg)
  /-- `FRED fd, fa` (rule R121) -/
  | fred (fd fa : FieldReg)
  /-- `FREDC fd, fa` (rule R123) -/
  | fredc (fd fa : FieldReg)
  /-- `PDBL pd, pa, k` (rule R132) -/
  | pdbl (pd pa : PointReg) (k : BitVec 8)
  /-- `PADD.E pd, pa, pb` (rule R142) -/
  | paddE (pd pa pb : PointReg)
  /-- `PADD.PN pd, pa, pb` (rule R143) -/
  | paddPN (pd pa pb : PointReg)
  /-- `PADD.AN pd, pa, pb` (rule R144) -/
  | paddAN (pd pa pb : PointReg)
  /-- `SMVB pd, sa, pA, sb` (rule R187) -/
  | smvb (pd : PointReg) (sa : ScalarReg) (pA : PointReg) (sb : ScalarReg)
  /-- `SMFB pd, sa` (rule R172) -/
  | smfb (pd : PointReg) (sa : ScalarReg)
  deriving DecidableEq, Repr

/-- The six functional units (rule R2). -/
inductive FunctionalUnit where
  | fieldReducer
  | pointDoubler
  | pointAdder
  | montgomeryMultiplier
  | scalarMultFixedBase
  | scalarMultVariableBase
  deriving DecidableEq, Repr

/-- Which unit a command reaches (rule R2). -/
def Instr.unit : Instr → FunctionalUnit
  | .mmul _ _ _ => .montgomeryMultiplier
  | .fred _ _ => .fieldReducer
  | .fredc _ _ => .fieldReducer
  | .pdbl _ _ _ => .pointDoubler
  | .paddE _ _ _ => .pointAdder
  | .paddPN _ _ _ => .pointAdder
  | .paddAN _ _ _ => .pointAdder
  | .smvb _ _ _ _ => .scalarMultVariableBase
  | .smfb _ _ => .scalarMultFixedBase

end Sys2Proof
end

