-- ==== Sys2Proof/WellFormed.lean ====
section
/-! DEFINITION. Which terms of `Instr` are legal commands (30_encoding.md rule R97): the operand types already
hold every index inside its file, so one check is left. -/

namespace Sys2Proof

/-- The destination of `MMUL` may not be one of the hardwired registers `s[6]`, `s[7]` (rule R97(b)). -/
def Instr.wellFormed : Instr → Bool
  | .mmul sd _ _ => decide (sd.val < 6)
  | .fred _ _ => true
  | .fredc _ _ => true
  | .pdbl _ _ _ => true
  | .paddE _ _ _ => true
  | .paddPN _ _ _ => true
  | .paddAN _ _ _ => true
  | .smvb _ _ _ _ => true
  | .smfb _ _ => true

end Sys2Proof
end

