-- ==== Sys2Proof/Decode.lean ====
section
/-! DEFINITION. Command words: the one format `C`, the decoder, the encoder and the opcode table
(30_encoding.md rules R91 to R98, R103). -/

namespace Sys2Proof

/-! ## The format -/

/-- `op = w[31:28]` (rule R91). -/
def CommandWord.op (w : CommandWord) : BitVec 4 := w.extractLsb' 28 4
/-- `rd = w[27:23]` (rule R91). -/
def CommandWord.rd (w : CommandWord) : BitVec 5 := w.extractLsb' 23 5
/-- `ra = w[22:18]` (rule R91). -/
def CommandWord.ra (w : CommandWord) : BitVec 5 := w.extractLsb' 18 5
/-- `rb = w[17:13]` (rule R91). -/
def CommandWord.rb (w : CommandWord) : BitVec 5 := w.extractLsb' 13 5
/-- `rc = w[12:8]` (rule R91). -/
def CommandWord.rc (w : CommandWord) : BitVec 5 := w.extractLsb' 8 5
/-- `fn = w[7:0]` (rule R91). -/
def CommandWord.fn (w : CommandWord) : BitVec 8 := w.extractLsb' 0 8

/-- `op || rd || ra || rb || rc || fn`, the format of rule R91. -/
def assemble (op : BitVec 4) (rd ra rb rc : BitVec 5) (fn : BitVec 8) : CommandWord :=
  op ++ rd ++ ra ++ rb ++ rc ++ fn

/-! ## The decoder -/

/-- Why a word is an illegal command; the hardware reports all of them with one cause code (rule R201). -/
inductive DecodeError where
  /-- `op` is `0x0` or `0x7` to `0xF` (rule R96) -/
  | reservedOpcode
  /-- `fn` is not one of the opcode's functions (rule R97(c)) -/
  | undefinedFunction
  /-- a field rule R93 marks `0` is not zero (rule R98) -/
  | nonZeroField
  /-- an index into `p[]` or `s[]` is 8 or more (rule R97(a)) -/
  | indexOutOfRange
  /-- the destination of `MMUL` is `s[6]` or `s[7]` (rule R97(b)) -/
  | hardwiredDestination
  deriving DecidableEq, Repr

/-- The result of decoding: a command, or the reason the word is illegal. -/
inductive Decoded where
  | command (i : Instr)
  | illegal (e : DecodeError)
  deriving DecidableEq, Repr

/-- The command, if the word is legal. -/
def Decoded.instr? : Decoded → Option Instr
  | .command i => some i
  | .illegal _ => none

/-- Read an index into a file of 8 registers, `p[]` or `s[]` (rule R97(a)), and go on with it. -/
def withIndex8 (x : BitVec 5) (k : Fin 8 → Decoded) : Decoded :=
  if h : x.toNat < 8 then k ⟨x.toNat, h⟩ else .illegal .indexOutOfRange

/-- Read an index into `f[]`: "Every 5-bit value is a legal index into `f[]`" (rule R97). -/
def fieldIndex (x : BitVec 5) : FieldReg := ⟨x.toNat, x.isLt⟩

/-- Go on if a field that rule R93 marks `0` is zero (rule R98). -/
def requireZero {n : Nat} (x : BitVec n) (k : Decoded) : Decoded :=
  if x = 0 then k else .illegal .nonZeroField

/-- Opcode `0x1` (rules R92, R93, R97). -/
def decodeMmul (w : CommandWord) : Decoded :=
  if w.fn ≠ 0 then .illegal .undefinedFunction else
  requireZero w.rc <|
  withIndex8 w.rd fun sd => withIndex8 w.ra fun sa => withIndex8 w.rb fun sb =>
  if sd.val < 6 then .command (.mmul sd sa sb) else .illegal .hardwiredDestination

/-- Opcode `0x2` (rules R92, R93, R97). -/
def decodeFred (w : CommandWord) : Decoded :=
  requireZero w.rb <| requireZero w.rc <|
  if w.fn = 0 then .command (.fred (fieldIndex w.rd) (fieldIndex w.ra))
  else if w.fn = 1 then .command (.fredc (fieldIndex w.rd) (fieldIndex w.ra))
  else .illegal .undefinedFunction

/-- Opcode `0x3`: every `fn` value is a legal encoding (rules R92, R93, R97). -/
def decodePdbl (w : CommandWord) : Decoded :=
  requireZero w.rb <| requireZero w.rc <|
  withIndex8 w.rd fun pd => withIndex8 w.ra fun pa => .command (.pdbl pd pa w.fn)

/-- Opcode `0x4` (rules R92, R93, R97). -/
def decodePadd (w : CommandWord) : Decoded :=
  requireZero w.rc <|
  withIndex8 w.rd fun pd => withIndex8 w.ra fun pa => withIndex8 w.rb fun pb =>
  if w.fn = 0 then .command (.paddE pd pa pb)
  else if w.fn = 1 then .command (.paddPN pd pa pb)
  else if w.fn = 2 then .command (.paddAN pd pa pb)
  else .illegal .undefinedFunction

/-- Opcode `0x5` (rules R92, R93, R97). -/
def decodeSmvb (w : CommandWord) : Decoded :=
  if w.fn ≠ 0 then .illegal .undefinedFunction else
  withIndex8 w.rd fun pd => withIndex8 w.ra fun sa => withIndex8 w.rb fun pA => withIndex8 w.rc fun sb =>
  .command (.smvb pd sa pA sb)

/-- Opcode `0x6` (rules R92, R93, R97). -/
def decodeSmfb (w : CommandWord) : Decoded :=
  if w.fn ≠ 0 then .illegal .undefinedFunction else
  requireZero w.rb <| requireZero w.rc <|
  withIndex8 w.rd fun pd => withIndex8 w.ra fun sa => .command (.smfb pd sa)

/-- The decoder (rules R91, R92): total, and every illegal word is refused by name. -/
def decode (w : CommandWord) : Decoded :=
  match w.op.toNat with
  | 1 => decodeMmul w
  | 2 => decodeFred w
  | 3 => decodePdbl w
  | 4 => decodePadd w
  | 5 => decodeSmvb w
  | 6 => decodeSmfb w
  | _ => .illegal .reservedOpcode

/-- The instruction the decoder reads from a word numbered as spec/opcode_table.json numbers it.  A command
is one 32-bit word (rule R91), so there is no layout in bytes to undo; bits above `nbits` are 0. -/
def decodeTableWord (nbits w : Nat) : Option Instr :=
  (decode (BitVec.ofNat 32 (w % 2 ^ nbits))).instr?

/-! ## The encoder -/

/-- A register index as the 5-bit field of the word (rule R91). -/
def indexField {n : Nat} (i : Fin n) : BitVec 5 := BitVec.ofNat 5 i.val

/-- The word of a command (rules R91 to R94). -/
def encode : Instr → CommandWord
  | .mmul sd sa sb => assemble 0x1 (indexField sd) (indexField sa) (indexField sb) 0 0
  | .fred fd fa => assemble 0x2 (indexField fd) (indexField fa) 0 0 0
  | .fredc fd fa => assemble 0x2 (indexField fd) (indexField fa) 0 0 1
  | .pdbl pd pa k => assemble 0x3 (indexField pd) (indexField pa) 0 0 k
  | .paddE pd pa pb => assemble 0x4 (indexField pd) (indexField pa) (indexField pb) 0 0
  | .paddPN pd pa pb => assemble 0x4 (indexField pd) (indexField pa) (indexField pb) 0 1
  | .paddAN pd pa pb => assemble 0x4 (indexField pd) (indexField pa) (indexField pb) 0 2
  | .smvb pd sa pA sb => assemble 0x5 (indexField pd) (indexField sa) (indexField pA) (indexField sb) 0
  | .smfb pd sa => assemble 0x6 (indexField pd) (indexField sa) 0 0 0

/-! ## The opcode table of rule R103 -/

/-- The `match` value of the command's row in rule R103. -/
def rowMatch : Instr → CommandWord
  | .mmul _ _ _ => 0x10000000
  | .fred _ _ => 0x20000000
  | .fredc _ _ => 0x20000001
  | .pdbl _ _ _ => 0x30000000
  | .paddE _ _ _ => 0x40000000
  | .paddPN _ _ _ => 0x40000001
  | .paddAN _ _ _ => 0x40000002
  | .smvb _ _ _ _ => 0x50000000
  | .smfb _ _ => 0x60000000

/-- The `mask` value of the command's row in rule R103. -/
def rowMask : Instr → CommandWord
  | .mmul _ _ _ => 0xF0001FFF
  | .fred _ _ => 0xF003FFFF
  | .fredc _ _ => 0xF003FFFF
  | .pdbl _ _ _ => 0xF003FF00
  | .paddE _ _ _ => 0xF0001FFF
  | .paddPN _ _ _ => 0xF0001FFF
  | .paddAN _ _ _ => 0xF0001FFF
  | .smvb _ _ _ _ => 0xF00000FF
  | .smfb _ _ => 0xF003FFFF

/-- A row of the table of rule R103. -/
structure OpcodeRow where
  mnemonic : String
  mask : CommandWord
  pattern : CommandWord
  deriving DecidableEq, Repr

/-- "a word `w` is that command when `w & mask = match`" (rule R103). -/
def OpcodeRow.accepts (r : OpcodeRow) (w : CommandWord) : Bool := w &&& r.mask == r.pattern

/-- The table of rule R103, row by row. -/
def opcodeTable : List OpcodeRow :=
  [ ⟨"MMUL", 0xF0001FFF, 0x10000000⟩,
    ⟨"FRED", 0xF003FFFF, 0x20000000⟩,
    ⟨"FREDC", 0xF003FFFF, 0x20000001⟩,
    ⟨"PDBL", 0xF003FF00, 0x30000000⟩,
    ⟨"PADD.E", 0xF0001FFF, 0x40000000⟩,
    ⟨"PADD.PN", 0xF0001FFF, 0x40000001⟩,
    ⟨"PADD.AN", 0xF0001FFF, 0x40000002⟩,
    ⟨"SMVB", 0xF00000FF, 0x50000000⟩,
    ⟨"SMFB", 0xF003FFFF, 0x60000000⟩ ]

/-- The decoder recipe of rule R103, said with the table: a word is legal when it matches a row and its
register indices are in range: `rd`, `ra` everywhere but for `op = 2`, `rb` for `MMUL`, `PADD.*`,
`SMVB`, `rc` for `SMVB`, and `rd < 6` for `MMUL` (rule R97(a), (b); rule R202). -/
def legalByTable (w : CommandWord) : Bool :=
  opcodeTable.any (·.accepts w) &&
  (w.op == 2 ||
    (decide (w.rd.toNat < 8) && decide (w.ra.toNat < 8) &&
      (decide (w.rb.toNat < 8) || w.op == 3 || w.op == 6) &&
      (decide (w.rc.toNat < 8) || w.op != 5) &&
      (decide (w.rd.toNat < 6) || w.op != 1)))

end Sys2Proof
end

