-- ==== Sys2Proof/Config.lean ====
section
/-! DEFINITION. What one implementation fixes (00_scope.md rule R6) and the free values: every opaque
constant here has no body, so nothing can be proved of its value and a statement about it holds for
whatever the hardware does (log entries 2, 6, 7, 8, 9). -/

namespace Sys2Proof.Config

/-- `FE_OUT_BOUND`: every field limb a point command writes is below `2^52` (rule R6, rule R40(b)). -/
abbrev feOutBound : Nat := 2 ^ 52

/-- `WIN_SIZE`: the host window is 4096 bytes (rule R6, rule R60). -/
abbrev windowSize : Nat := 4096

/-- `NAF_W_A`: NAF width for the scalar of the variable point (rule R6). -/
abbrev nafWidthA : Nat := 5

/-- `NAF_W_B`: NAF width for the scalar of the base point (rule R6). -/
abbrev nafWidthB : Nat := 8

/-- `FE_REPR` (rules R6, R40, R42; log entry 6): the limb vector the hardware proposes for a field value
a point command writes.  Its arguments are all rule R40 lets it depend on: the command word, the
input state (both register files; a command only runs with `STATUS = 0` and `FCMD = 0`), the output
coordinate and the field value.  `Machine.reprField` keeps it inside rule R40(a), (b). -/
opaque feRepr : CommandWord → FieldFile → ScalarFile → Fin 4 → Nat → FieldElement

/-- `PT_REPR` (rules R6, R41, R42; log entry 7): the tuple of limb vectors the hardware proposes for the point
that `SMFB` or `SMVB` computes, as a function of the command word and the input state.
`Machine.ptRepresentative` keeps it inside rule R41(a) to (c). -/
opaque ptRepr : CommandWord → FieldFile → ScalarFile → PointLimbs

/-- The scalar an `MMUL` outside its value precondition writes: "any 5 limbs of 52 bits" (rules R156,
R157; log entry 8), one draw per value of the counter. -/
opaque freeScalar : Nat → UnpackedScalar

/-- The four limb vectors an `SMVB` with an invalid point writes, before they are widened: 52-bit limbs
are exactly the limbs "below `2^52`" (rule R188; log entry 9). -/
opaque freePoint : Nat → Vector UnpackedScalar 4

/-- The field registers after a reset that happens while the machine runs: "unspecified: each limb any
64-bit value" (rules R43, R230; log entry 2). -/
opaque resetFieldFile : Nat → FieldFile

/-- The writable scalar registers after a reset that happens while the machine runs: "unspecified: each
limb any 52-bit value" (rules R43, R230; log entry 2). -/
opaque resetScalarFile : Nat → ScalarFile

end Sys2Proof.Config
end

