-- ==== Sys2Proof/Machine/State.lean ====
section
/-! DEFINITION. The machine's state (10_state.md), the host's actions on it (10_state.md rule R45, 20_memory.md rules R64,
R65, 70_reset_and_hazards.md rule R230) and the reasons a step can stop. -/

namespace Sys2Proof.Machine

/-- One action of the outside world, each of them one step of the machine (rules R45, R230): a read or a write
of the host window, `width` bytes at offset `addr` from the window's base, or the platform's reset input. -/
inductive HostAction where
  /-- `MemRead(addr, width)` (rule R64) -/
  | memRead (addr width : Nat)
  /-- `MemWrite(addr, width, value)` (rule R65) -/
  | memWrite (addr width : Nat) (value : HostWord)
  /-- the reset input (rule R230) -/
  | reset
  deriving DecidableEq, Repr

/-- Why the machine stops where the address does not exist. -/
inductive Fault where
  /-- A host access at an offset of `0x1000` or more, outside the 4096-byte window (rules R60, R66).
  Raised by `withLocation`.  Safe: the block's state does not change in the hardware either, and what the
  platform does next is not modelled. -/
  | outsideWindow
  deriving DecidableEq, Repr

/-- Why the model gives a step no meaning. -/
inductive Refusal where
  /-- An instruction whose meaning has not been written yet: raised by `exec` alone.  Safe. -/
  | notModelled (mnemonic : String)
  /-- A host access of a width other than 64 bits: "not admitted: the hardware's response is left to the
  platform bus" (rule R66).  Raised by `withLocation`.  Safe. -/
  | widthNotAdmitted
  /-- A host access at an offset that is not a multiple of 8 (rule R66).  Raised by `withLocation`.  Safe. -/
  | misaligned
  /-- A host access at a reserved offset: "a model gives such an access no meaning (refuses it)" (rules R66, R69;
  log entry 10).  Raised by `State.readLocation` and `writeLocation`.  Safe: the hardware changes no state on such a
  write, and on such a read it returns a value that is left unspecified. -/
  | reservedOffset
  deriving DecidableEq, Repr

/-- The state.  The first five fields are the whole state the block keeps between commands (rule R39): the
register files and the fields of `STATUS` and `FCMD` (rule R35; `CMD` holds nothing).  The last three are the
model's own: the host's pending actions (rule R42 calls them the program), what its reads returned, and
the counter of free values. -/
structure State where
  /-- `f[0] .. f[31]` (rule R30) -/
  f : FieldFile
  /-- `s[0] .. s[5]` (rules R33, R34); `s[6]`, `s[7]` are hardwired, see `State.readScalar` -/
  s : ScalarFile
  /-- `STATUS[0]`, field `FAULT` (rule R35) -/
  fault : BitVec 1
  /-- `STATUS[7:4]`, field `CAUSE` (rule R35) -/
  cause : BitVec 4
  /-- `FCMD[31:0]`, field `WORD` (rule R35) -/
  fcmd : CommandWord
  /-- the host's actions that have not happened yet, the next one first (log entry 3) -/
  host : List HostAction
  /-- the values the host's reads have returned, oldest first (log entry 5) -/
  replies : List HostWord
  /-- how many free values have been drawn (log entries 2, 8, 9) -/
  draws : Nat
  deriving DecidableEq, Repr

/-- The control state after reset, over any contents of the data registers: `STATUS = 0`, `FCMD = 0`, no command
pending (rules R43, R230). -/
def State.afterReset (f : FieldFile) (s : ScalarFile) : State where
  f := f
  s := s
  fault := 0
  cause := 0
  fcmd := 0
  host := []
  replies := []
  draws := 0

/-- The machine right after reset.  The spec leaves the data registers unspecified (rule R43): the model
names zero for every limb (DESIGN CHOICE, unsafe, log entry 1). -/
def State.reset : State :=
  State.afterReset (Vector.replicate 32 (Vector.replicate 5 0)) (Vector.replicate 6 (Vector.replicate 5 0))

end Sys2Proof.Machine
end

