-- ==== Sys2Proof/Machine/Flags.lean ====
section
/-! DEFINITION. The only status the block keeps: the fields of `STATUS` and `FCMD` as the words the host reads, and the
cause codes (10_state.md rules R35, R37; 60_exceptions.md rule R201).  There are no condition codes. -/

namespace Sys2Proof.Machine

/-- The two faults a command can raise (rule R201). -/
inductive Cause where
  | illegalCommand
  | preconditionViolation
  deriving DecidableEq, Repr

/-- The cause codes of rule R201; 0 is "no fault" and 3 to 15 are never produced. -/
def Cause.code : Cause → BitVec 4
  | .illegalCommand => 1
  | .preconditionViolation => 2

/-- The 64-bit word of `STATUS`: `FAULT` in bit 0, `CAUSE` in bits 7 to 4, every other bit 0 (rule R35). -/
def State.statusWord (s : State) : HostWord :=
  (0 : BitVec 56) ++ s.cause ++ (0 : BitVec 3) ++ s.fault

/-- The 64-bit word of `FCMD`: the command word in bits 31 to 0 and zeros above (rule R35). -/
def State.fcmdWord (s : State) : HostWord := s.fcmd.setWidth 64

end Sys2Proof.Machine
end

