-- ==== Sys2Proof/Machine/Arith.lean ====
section
/-! DEFINITION. Limb vectors as integers, arithmetic in `GF(p)` and the constants of the scalar arithmetic
(00_scope.md rules R8, R9, R10, R14, R15, R20).  Values are unbounded integers; every width is explicit. -/

namespace Sys2Proof.Machine

/-! ## Field elements -/

/-- `p = 2^255 - 19` (rule R10). -/
def fieldPrime : Nat := 2 ^ 255 - 19

/-- `fval(v) = v0 + v1*2^51 + v2*2^102 + v3*2^153 + v4*2^204` (rule R10). -/
def fval (v : FieldElement) : Nat :=
  v[0].toNat + v[1].toNat * 2 ^ 51 + v[2].toNat * 2 ^ 102 + v[3].toNat * 2 ^ 153 + v[4].toNat * 2 ^ 204

/-- Limb `j` of `limbs51(n)`: `(n >> 51j) & (2^51-1)` (rule R9). -/
def limb51 (n j : Nat) : FieldLimb := BitVec.ofNat 64 ((n >>> (51 * j)) % 2 ^ 51)

/-- `limbs51(n)` (rule R9), canonical for `n < 2^255`. -/
def limbs51 (n : Nat) : FieldElement :=
  #v[limb51 n 0, limb51 n 1, limb51 n 2, limb51 n 3, limb51 n 4]

/-- How a field value is read from limbs: `fval(v) mod p`, for every one of the `2^320` vectors (rules R10, R130). -/
def fieldValue (v : FieldElement) : Nat := fval v % fieldPrime

/-- Every limb is below `FE_OUT_BOUND` (rule R40(b)). -/
def limbsBounded (v : FieldElement) : Bool :=
  decide (v[0].toNat < Config.feOutBound) && decide (v[1].toNat < Config.feOutBound) &&
  decide (v[2].toNat < Config.feOutBound) && decide (v[3].toNat < Config.feOutBound) &&
  decide (v[4].toNat < Config.feOutBound)

/-- Addition in `GF(p)` (rule R20(b)). -/
def fadd (a b : Nat) : Nat := (a + b) % fieldPrime

/-- Subtraction in `GF(p)`: "`a - b` means `(a - b) mod p`, never a negative number" (rule R20(b)). -/
def fsub (a b : Nat) : Nat := (a + (fieldPrime - b % fieldPrime)) % fieldPrime

/-- Multiplication in `GF(p)` (rule R20(b)). -/
def fmul (a b : Nat) : Nat := a * b % fieldPrime

/-- Powers in `GF(p)` by repeated squaring; `fuel` bounds the number of bits of the exponent. -/
def fpow (a : Nat) : (fuel : Nat) → (e : Nat) → Nat
  | 0, _ => 1
  | fuel + 1, e =>
    if e = 0 then 1
    else if e % 2 = 1 then fmul (fpow (fmul a a) fuel (e / 2)) a
    else fpow (fmul a a) fuel (e / 2)

/-- The inverse in `GF(p)`, for which `/` is notation (rule R20(b)): `a^(p-2)`, which takes 0 to 0 as
rule R20(f) says of `invert`. -/
def finv (a : Nat) : Nat := fpow a 255 (fieldPrime - 2)

/-- Division in `GF(p)`: multiplication by the inverse (rule R20(b)). -/
def fdiv (a b : Nat) : Nat := fmul a (finv b)

/-! ## Scalars -/

/-- The order `L` of the base point (rule R14; the digits are from general knowledge, log entry 15). -/
def groupOrder : Nat := 2 ^ 252 + 27742317777372353535851937790883648493

/-- `sval(v) = v0 + v1*2^52 + v2*2^104 + v3*2^156 + v4*2^208` (rule R14). -/
def sval (v : UnpackedScalar) : Nat :=
  v[0].toNat + v[1].toNat * 2 ^ 52 + v[2].toNat * 2 ^ 104 + v[3].toNat * 2 ^ 156 + v[4].toNat * 2 ^ 208

/-- Limb `j` of `limbs52(n)`: `(n >> 52j) & (2^52-1)` (rule R9). -/
def limb52 (n j : Nat) : ScalarLimb := BitVec.ofNat 52 (n >>> (52 * j))

/-- `limbs52(n)` (rule R9), for `n < 2^260`. -/
def limbs52 (n : Nat) : UnpackedScalar :=
  #v[limb52 n 0, limb52 n 1, limb52 n 2, limb52 n 3, limb52 n 4]

/-- The Montgomery radius `2^260`, `MONT_BITS = 260` (rule R6), written out so that it evaluates everywhere;
Laws/Field.lean states the equation. -/
def montRadix : Nat :=
  0x100000000000000000000000000000000000000000000000000000000000000000

/-- `R = 2^260 mod L` (rule R15). -/
def montR : Nat := montRadix % groupOrder

/-- `RR = 2^520 mod L` (rule R15). -/
def montRR : Nat := montRadix * montRadix % groupOrder

/-- `LFACTOR = -L^(-1) mod 2^52`, the digits of rule R15. -/
def lFactor : Nat := 0x51da312547e1b

/-- `NL = -L^(-1) mod 2^260` (rule R156), computed from `L`. -/
def montNL : Nat := 0xc9db6c6f26fe9183614e75438ffa36beab1a206f2fdba84ffd2b51da312547e1b

/-- `R^(-1) mod L`, the digits of rule R15. -/
def montRInv : Nat := 0xc9db6c6f26fe9183614e75438ffa36bfb2697cda3adacf58e84371e098e4fc4

end Sys2Proof.Machine
end

