-- ==== Sys2Proof/Machine/Curve.lean ====
section
/-! DEFINITION. The curve, the affine group law and the point representations (00_scope.md rules R11, R12, R13, R16, R19), and
the two shared steps of the point units (42_point_add.md rule R141, 41_point_double.md rule R132). -/

namespace Sys2Proof.Machine

/-! ## The curve and the affine group law -/

/-- `d = -121665/121666 mod p` (rule R11). -/
def curveD : Nat := 0x52036cee2b6ffe738cc740797779e89800700a4d4141d8ab75eb4dca135978a3

/-- `2d mod p` (rule R11), the ROM constant `PADD.E` uses (rule R38(a)). -/
def curve2D : Nat := 0x2406d9dc56dffce7198e80f2eef3d13000e0149a8283b156ebd69b9426b2f159

/-- An affine point: a pair of field values (rule R12). -/
structure Affine where
  x : Nat
  y : Nat
  deriving DecidableEq, Repr

/-- `-x^2 + y^2 = 1 + d*x^2*y^2` in `GF(p)` (rule R11). -/
def Affine.onCurve (P : Affine) : Bool :=
  fsub (fmul P.y P.y) (fmul P.x P.x) == fadd 1 (fmul curveD (fmul (fmul P.x P.x) (fmul P.y P.y)))

/-- The identity `(0, 1)` (rule R12). -/
def Affine.zero : Affine := ⟨0, 1⟩

/-- The negative of `(x, y)` is `(-x, y)` (rule R12). -/
def Affine.neg (P : Affine) : Affine := ⟨fsub 0 P.x, P.y⟩

/-- The sum of two affine points, the formulas of rule R12. -/
def Affine.add (P Q : Affine) : Affine :=
  let t := fmul curveD (fmul (fmul P.x Q.x) (fmul P.y Q.y))
  ⟨fdiv (fadd (fmul P.x Q.y) (fmul P.y Q.x)) (fadd 1 t),
   fdiv (fadd (fmul P.y Q.y) (fmul P.x Q.x)) (fsub 1 t)⟩

/-- "`[k]P` is `P` added to itself `k` times, `[0]P` the identity" (rule R12): the definition, which no
machine could run for a scalar of 255 bits. -/
def mulPoint : Nat → Affine → Affine
  | 0, _ => Affine.zero
  | k + 1, P => Affine.add (mulPoint k P) P

/-- `[k]P` for `k < 2^fuel` by doubling and adding, one step for each bit of `k`. -/
def mulPointBits : (fuel : Nat) → (k : Nat) → Affine → Affine
  | 0, _, _ => Affine.zero
  | fuel + 1, k, P =>
    if k = 0 then Affine.zero
    else if k % 2 = 1 then Affine.add (mulPointBits fuel (k / 2) (Affine.add P P)) P
    else mulPointBits fuel (k / 2) (Affine.add P P)

/-- `[k]P` as the commands compute it, for `k < 2^256`.  Laws/CurveGroup.lean proves it equal to `mulPoint k P` for
every `P` on the curve (`scalarMul_eq`), so it is rule R12's `[k]P` (log entry 21). -/
def scalarMul (k : Nat) (P : Affine) : Affine := mulPointBits 256 k P

/-- The base point `B` (rule R16). -/
def basePoint : Affine :=
  ⟨0x216936d3cd6e53fec0a4e231fdd6dc5c692cc7609525a7b2c9562d608f25d51a,
   0x6666666666666666666666666666666666666666666666666666666666666658⟩

/-! ## Point representations (rule R13) -/

/-- Extended `(X : Y : Z : T)`. -/
structure Extended where
  X : Nat
  Y : Nat
  Z : Nat
  T : Nat
  deriving DecidableEq, Repr

/-- Projective `(X : Y : Z)`. -/
structure Projective where
  X : Nat
  Y : Nat
  Z : Nat
  deriving DecidableEq, Repr

/-- Completed `(X : Y : Z : T)`, which represents `(X/Z, Y/T)`; internal only. -/
structure Completed where
  X : Nat
  Y : Nat
  Z : Nat
  T : Nat
  deriving DecidableEq, Repr

/-- ProjectiveNiels `(Y+X, Y-X, Z, 2dT)`, the components in the slot order of 10_state.md rule R32. -/
structure ProjectiveNiels where
  n0 : Nat
  n1 : Nat
  n2 : Nat
  n3 : Nat
  deriving DecidableEq, Repr

/-- AffineNiels `(y+x, y-x, 2dxy)`, the components in the slot order of 10_state.md rule R32. -/
structure AffineNiels where
  n0 : Nat
  n1 : Nat
  n2 : Nat
  deriving DecidableEq, Repr

/-- The Extended identity `(0, 1, 1, 0)` (rule R13). -/
def Extended.identity : Extended := ⟨0, 1, 1, 0⟩

/-- The affine point `(X/Z, Y/Z)` an Extended tuple represents (rule R13). -/
def Extended.toAffine (E : Extended) : Affine := ⟨fdiv E.X E.Z, fdiv E.Y E.Z⟩

/-- The condition of an Extended tuple: `Z != 0`, `X*Y = Z*T`, on the curve (rule R13). -/
def Extended.valid (E : Extended) : Bool :=
  E.Z % fieldPrime != 0 && fmul E.X E.Y == fmul E.Z E.T && E.toAffine.onCurve

/-- `(x, y, 1, x*y)`, the tuple rule R19 compares a result with. -/
def Extended.ofAffine (P : Affine) : Extended := ⟨P.x, P.y, 1, fmul P.x P.y⟩

/-- `P ~ P'`: both valid, `X*Z' = X'*Z` and `Y*Z' = Y'*Z` (rule R19). -/
def Extended.equiv (E F : Extended) : Bool :=
  E.valid && F.valid && fmul E.X F.Z == fmul F.X E.Z && fmul E.Y F.Z == fmul F.Y E.Z

/-- The written tuple "represents the point `Q`": it is equivalent to `(x_Q, y_Q, 1, x_Q*y_Q)` (rule R19). -/
def Extended.represents (E : Extended) (Q : Affine) : Bool := E.equiv (Extended.ofAffine Q)

/-- `-(X,Y,Z,T) = (-X, Y, Z, -T)` (rule R147). -/
def Extended.neg (E : Extended) : Extended := ⟨fsub 0 E.X, E.Y, E.Z, fsub 0 E.T⟩

/-- The affine point `(X/Z, Y/Z)` a Projective tuple represents (rule R13). -/
def Projective.toAffine (P : Projective) : Affine := ⟨fdiv P.X P.Z, fdiv P.Y P.Z⟩

/-- The condition of a Projective tuple: `Z != 0`, on the curve (rule R13). -/
def Projective.valid (P : Projective) : Bool := P.Z % fieldPrime != 0 && P.toAffine.onCurve

/-- The affine point `(X/Z, Y/T)` a Completed tuple represents (rule R13). -/
def Completed.toAffine (C : Completed) : Affine := ⟨fdiv C.X C.Z, fdiv C.Y C.T⟩

/-- Extended to ProjectiveNiels: `(Y+X, Y-X, Z, 2dT)` (rules R13, R142). -/
def Extended.toNiels (E : Extended) : ProjectiveNiels :=
  ⟨fadd E.Y E.X, fsub E.Y E.X, E.Z, fmul curve2D E.T⟩

/-- Affine to AffineNiels: `(y+x, y-x, 2dxy)` (rule R13). -/
def Affine.toNiels (P : Affine) : AffineNiels :=
  ⟨fadd P.y P.x, fsub P.y P.x, fmul curve2D (fmul P.x P.y)⟩

/-- `-(N0,N1,N2,N3) = (N1, N0, N2, -N3)` (rule R147). -/
def ProjectiveNiels.neg (N : ProjectiveNiels) : ProjectiveNiels := ⟨N.n1, N.n0, N.n2, fsub 0 N.n3⟩

/-- `-(n0,n1,n2) = (n1, n0, -n2)` (rule R147). -/
def AffineNiels.neg (N : AffineNiels) : AffineNiels := ⟨N.n1, N.n0, fsub 0 N.n2⟩

/-- An AffineNiels tuple as the operand of `addN`: `N0 = n0`, `N1 = n1`, `N2 = 1`, `N3 = n2` (rule R141). -/
def AffineNiels.widen (N : AffineNiels) : ProjectiveNiels := ⟨N.n0, N.n1, 1, N.n2⟩

/-! ## The steps of the point units -/

/-- `ext`: Completed to Extended (rule R141). -/
def ext (C : Completed) : Extended := ⟨fmul C.X C.T, fmul C.Y C.Z, fmul C.Z C.T, fmul C.X C.Y⟩

/-- `addN`: an Extended point plus a ProjectiveNiels tuple, as a Completed point (rule R141). -/
def addN (E : Extended) (N : ProjectiveNiels) : Completed :=
  let PP := fmul (fadd E.Y E.X) N.n0
  let MM := fmul (fsub E.Y E.X) N.n1
  let TT := fmul E.T N.n3
  let ZZ2 := fmul 2 (fmul E.Z N.n2)
  ⟨fsub PP MM, fadd PP MM, fadd ZZ2 TT, fsub ZZ2 TT⟩

/-- `ext(addN(E; N))`, one pass of the point adder (rules R141 to R144). -/
def addNiels (E : Extended) (N : ProjectiveNiels) : Extended := ext (addN E N)

/-- The four squarings of the point doubler and their combination, as a Completed point (rule R132). -/
def doubleCompleted (P : Projective) : Completed :=
  let XX := fmul P.X P.X
  let YY := fmul P.Y P.Y
  let ZZ2 := fmul (fmul 2 P.Z) P.Z
  let S := fmul (fadd P.X P.Y) (fadd P.X P.Y)
  let Cx := fsub S (fadd YY XX)
  let Cy := fadd YY XX
  let Cz := fsub YY XX
  let Ct := fsub ZZ2 Cz
  ⟨Cx, Cy, Cz, Ct⟩

/-- The Projective form of an Extended tuple: `T` is dropped (10_state.md rule R32). -/
def Extended.toProjective (E : Extended) : Projective := ⟨E.X, E.Y, E.Z⟩

/-- One doubling (rule R132). -/
def doubleOnce (P : Projective) : Extended := ext (doubleCompleted P)

/-- `k + 1` doublings (rule R132's `repeat`; at least one is always made, rule R131). -/
def doubleTimes (P : Projective) : Nat → Extended
  | 0 => doubleOnce P
  | k + 1 => doubleOnce (doubleTimes P k).toProjective

end Sys2Proof.Machine
end

