-- ==== Sys2Proof/Machine/Operands.lean ====
section
/-! DEFINITION. Every operand form a command reads (10_state.md rules R31, R32, R34; 41_point_double.md rule R130). -/

namespace Sys2Proof.Machine

/-- The field register that is slot `k` of `p[i]`: `f[4i+k]` (rule R31). -/
def slot (i : PointReg) (k : Fin 4) : FieldReg := ⟨4 * i.val + k.val, by omega⟩

/-- The scalar register file as commands and the host read it: `s[6] = limbs52(R)` and
`s[7] = limbs52(RR)` are hardwired (rule R34). -/
def State.readScalar (s : State) (i : ScalarReg) : UnpackedScalar :=
  if h : i.val < 6 then s.s[i.val] else if i.val = 6 then limbs52 montR else limbs52 montRR

/-- The integer a scalar register holds, `sval(s[i])` (rule R33). -/
def State.scalar (s : State) (i : ScalarReg) : Nat := sval (s.readScalar i)

/-- `val(f[i])`, the field value of a slot (rule R130). -/
def State.slotValue (s : State) (i : PointReg) (k : Fin 4) : Nat := fieldValue s.f[slot i k]

/-- `p[i]` read as Extended: all four slots (rule R32). -/
def State.readExtended (s : State) (i : PointReg) : Extended :=
  ⟨s.slotValue i 0, s.slotValue i 1, s.slotValue i 2, s.slotValue i 3⟩

/-- `p[i]` read as Projective: slot 3 is ignored (rule R32). -/
def State.readProjective (s : State) (i : PointReg) : Projective :=
  ⟨s.slotValue i 0, s.slotValue i 1, s.slotValue i 2⟩

/-- `p[i]` read as ProjectiveNiels (rule R32). -/
def State.readProjectiveNiels (s : State) (i : PointReg) : ProjectiveNiels :=
  ⟨s.slotValue i 0, s.slotValue i 1, s.slotValue i 2, s.slotValue i 3⟩

/-- `p[i]` read as AffineNiels: slot 3 is ignored (rule R32). -/
def State.readAffineNiels (s : State) (i : PointReg) : AffineNiels :=
  ⟨s.slotValue i 0, s.slotValue i 1, s.slotValue i 2⟩

end Sys2Proof.Machine
end

