-- ==== Sys2Proof/Machine/Ops.lean ====
section
/-! DEFINITION. The named operations every meaning is written over: register writes, the result representations of
10_state.md rules R40 and R41, entering the faulted state (60_exceptions.md rule R205), reset (70_reset_and_hazards.md
rule R230) and the host window (20_memory.md). -/

namespace Sys2Proof.Machine

/-! ## Register writes -/

/-- `f[i] <- v` (rule R9). -/
def State.writeField (s : State) (i : FieldReg) (v : FieldElement) : State := { s with f := s.f.set i.val v }

/-- `s[i] <- v`; nothing is stored for the hardwired `s[6]`, `s[7]` (rules R9, R34). -/
def State.writeScalar (s : State) (i : ScalarReg) (v : UnpackedScalar) : State :=
  if h : i.val < 6 then { s with s := s.s.set i.val v } else s

/-- `p[i] <- (a,b,c,e)`: the four field registers `f[4i] .. f[4i+3]` (rule R31). -/
def State.writePoint (s : State) (i : PointReg) (t : PointLimbs) : State :=
  (((s.writeField (slot i 0) t[0]).writeField (slot i 1) t[1]).writeField (slot i 2) t[2]).writeField (slot i 3) t[3]

/-- A free value has been used: the next one is another. -/
def State.drawn (s : State) : State := { s with draws := s.draws + 1 }

/-! ## Result representations -/

/-- Rule R40: the vector has the value `n` modulo `p` and every limb below `2^52`. -/
def representsField (v : FieldElement) (n : Nat) : Bool := fieldValue v == n % fieldPrime && limbsBounded v

/-- `repr(n)` (rules R9, R40): the vector `FE_REPR` chooses, where it meets rule R40, and the canonical vector,
"a valid choice", where it does not (log entry 6).  So exactly the vectors of rule R40 can come out. -/
def reprField (w : CommandWord) (s : State) (k : Fin 4) (n : Nat) : FieldElement :=
  let v := Config.feRepr w s.f s.s k n
  if representsField v n then v else limbs51 (n % fieldPrime)

/-- `(repr(X), repr(Y), repr(Z), repr(T))` (rules R132, R142 to R144). -/
def reprExtended (w : CommandWord) (s : State) (E : Extended) : PointLimbs :=
  #v[reprField w s 0 E.X, reprField w s 1 E.Y, reprField w s 2 E.Z, reprField w s 3 E.T]

/-- The Extended tuple of four limb vectors, each read as a field value (rule R130). -/
def extendedOf (t : PointLimbs) : Extended :=
  ⟨fieldValue t[0], fieldValue t[1], fieldValue t[2], fieldValue t[3]⟩

/-- Every limb of the four vectors is below `2^52` (rule R41(a)). -/
def tupleBounded (t : PointLimbs) : Bool :=
  limbsBounded t[0] && limbsBounded t[1] && limbsBounded t[2] && limbsBounded t[3]

/-- Rule R41(a) to (c): bounded limbs, and a valid Extended tuple equivalent to `(x_Q, y_Q, 1, x_Q*y_Q)`. -/
def representsPoint (t : PointLimbs) (Q : Affine) : Bool := tupleBounded t && (extendedOf t).represents Q

/-- `(x_Q, y_Q, 1, x_Q*y_Q)` with canonical limbs, the valid fixing of `PT_REPR` that
93_implementation_defined.md section 2 gives. -/
def canonicalTuple (Q : Affine) : PointLimbs :=
  #v[limbs51 Q.x, limbs51 Q.y, limbs51 1, limbs51 (fmul Q.x Q.y)]

/-- "a representative of `Q`" (rule R41): the tuple `PT_REPR` chooses, where it meets rule R41, and the
canonical one where it does not (log entry 7). -/
def ptRepresentative (w : CommandWord) (s : State) (Q : Affine) : PointLimbs :=
  let t := Config.ptRepr w s.f s.s
  if representsPoint t Q then t else canonicalTuple Q

/-- Any four limb vectors with limbs below `2^52` (rule R188), as draw number `n`. -/
def freePointLimbs (n : Nat) : PointLimbs := (Config.freePoint n).map fun v => v.map fun l => l.setWidth 64

/-! ## Faults -/

/-- `raise F(w)`: "exactly this, as the whole effect of the `CMD` write ... and nothing else" (rule R205).  The
faulted state is left by reset alone: there is no return (rule R208). -/
def State.raised (s : State) (c : Cause) (w : CommandWord) : State :=
  { s with fault := 1, cause := c.code, fcmd := w }

/-- `raise F(w)` as the outcome of a step. -/
def raise (c : Cause) (w : CommandWord) (s : State) : Host.Outcome State Fault Refusal := .next (s.raised c w)

/-! ## Reset -/

/-- The reset input while the machine runs (rules R43, R230): `STATUS` and `FCMD` become 0, and the data
registers hold free values ("a model must assume nothing").  The host's later actions stay pending and what it has
read it keeps: both are outside the block. -/
def State.resetInput (s : State) : State :=
  { s with
    f := Config.resetFieldFile s.draws
    s := Config.resetScalarFile s.draws
    fault := 0
    cause := 0
    fcmd := 0
    draws := s.draws + 1 }

/-! ## The host window -/

/-- What stands at an aligned offset of the window (rule R61). -/
inductive Location where
  | cmd
  | status
  | fcmd
  | scalar (i : ScalarReg) (j : Fin 5)
  | field (i : FieldReg) (j : Fin 5)
  | reserved
  deriving DecidableEq, Repr

/-- The layout of rule R61, for an offset below `0x1000`; the low three bits play no part. -/
def locate (a : Nat) : Location :=
  if a / 8 = 0 then .cmd
  else if a / 8 = 1 then .status
  else if a / 8 = 2 then .fcmd
  else if h : 0x200 ≤ a ∧ a < 0x400 then
    if g : a % 64 / 8 < 5 then .scalar ⟨(a - 0x200) / 64, by omega⟩ ⟨a % 64 / 8, g⟩ else .reserved
  else if h : 0x800 ≤ a ∧ a < 0x1000 then
    if g : a % 64 / 8 < 5 then .field ⟨(a - 0x800) / 64, by omega⟩ ⟨a % 64 / 8, g⟩ else .reserved
  else .reserved

/-- The offset of a location that is not reserved (rule R61). -/
def Location.offset? : Location → Option Nat
  | .cmd => some 0x000
  | .status => some 0x008
  | .fcmd => some 0x010
  | .scalar i j => some (0x200 + 64 * i.val + 8 * j.val)
  | .field i j => some (0x800 + 64 * i.val + 8 * j.val)
  | .reserved => none

/-- Offset of limb `j` of `s[i]` (rule R61). -/
def scalarOffset (i : ScalarReg) (j : Fin 5) : Nat := 0x200 + 64 * i.val + 8 * j.val

/-- Offset of limb `j` of `f[i]` (rule R61). -/
def fieldOffset (i : FieldReg) (j : Fin 5) : Nat := 0x800 + 64 * i.val + 8 * j.val

/-- What a read of a location returns (rule R64): `CMD` reads 0, a scalar limb is zero-extended.  A reserved
offset has no value of its own (rule R69). -/
def State.peek (s : State) : Location → Option HostWord
  | .cmd => some 0
  | .status => some s.statusWord
  | .fcmd => some s.fcmdWord
  | .scalar i j => some ((s.readScalar i)[j].setWidth 64)
  | .field i j => some s.f[i][j]
  | .reserved => none

/-- Byte `b` of a window word carries bits `[8b+7 : 8b]` (rule R63). -/
def hostByte (v : HostWord) (b : Nat) : BitVec 8 := v.extractLsb' (8 * b) 8

/-- The byte at byte offset `a` of the window, where the window holds one: the model's read of one byte. -/
def State.peekByte (s : State) (a : Nat) : Option (BitVec 8) :=
  if a < Config.windowSize then (s.peek (locate a)).map (hostByte · (a % 8)) else none

/-- What a write does to a location other than `CMD` (rule R65): `STATUS`, `FCMD`, the limbs of `s[6]` and `s[7]`
(rule R68) do not change, and a reserved offset has no storage (rule R69); a scalar limb keeps bits 51 to 0 (rule R67). -/
def State.poke (s : State) (l : Location) (v : HostWord) : State :=
  match l with
  | .scalar i j => s.writeScalar i ((s.readScalar i).set j.val (v.setWidth 52))
  | .field i j => s.writeField i (s.f[i].set j.val v)
  | .cmd => s
  | .status => s
  | .fcmd => s
  | .reserved => s

/-- Go on with the location of an access that is 64 bits wide, inside the window and at a multiple of 8.  The
order of these three checks is the model's (log entry 11); the fourth condition of rule R66, "not reserved", is checked at
the location itself, by `State.readLocation` and `writeLocation`. -/
def withLocation (a width : Nat) (k : Location → Host.Outcome State Fault Refusal) :
    Host.Outcome State Fault Refusal :=
  if width ≠ 8 then .refused .widthNotAdmitted
  else if Config.windowSize ≤ a then .fault .outsideWindow
  else if a % 8 ≠ 0 then .refused .misaligned
  else k (locate a)

/-- The host receives the value of a read. -/
def State.reply (s : State) (v : HostWord) : State := { s with replies := s.replies ++ [v] }

/-- A read of a location (rule R64); a reserved one is refused (rules R66, R69). -/
def State.readLocation (s : State) (l : Location) : Host.Outcome State Fault Refusal :=
  match s.peek l with
  | some v => .next (s.reply v)
  | none => .refused .reservedOffset

/-- `MemRead(a, width)` (rule R64). -/
def memRead (a width : Nat) (s : State) : Host.Outcome State Fault Refusal :=
  withLocation a width s.readLocation

end Sys2Proof.Machine
end

