-- ==== Sys2Proof/Machine/FieldReduce.lean ====
section
/-! DEFINITION. The field reducer: `FRED` and `FREDC` (40_field_reduce.md). -/

namespace Sys2Proof.Machine

/-- The low 51 bits of limb `j` (rule R121's `l_j & M`). -/
def limbLow (v : FieldElement) (j : Fin 5) : Nat := v[j].toNat % 2 ^ 51

/-- The carry out of limb `j` (rule R121's `c_j = l_j >> 51`). -/
def limbCarry (v : FieldElement) (j : Fin 5) : Nat := v[j].toNat / 2 ^ 51

/-- One parallel carry pass (rule R121): all five carries are taken from the input limbs, and the carry out of
limb 4 comes back into limb 0 with factor 19. -/
def weakReduce (v : FieldElement) : FieldElement :=
  #v[BitVec.ofNat 64 (limbLow v 0 + 19 * limbCarry v 4),
     BitVec.ofNat 64 (limbLow v 1 + limbCarry v 0),
     BitVec.ofNat 64 (limbLow v 2 + limbCarry v 1),
     BitVec.ofNat 64 (limbLow v 3 + limbCarry v 2),
     BitVec.ofNat 64 (limbLow v 4 + limbCarry v 3)]

/-- The full reduction: `limbs51(fval(v) mod p)` (rule R123). -/
def canonicalReduce (v : FieldElement) : FieldElement := limbs51 (fieldValue v)

/-- `FRED fd, fa` (rule R121). -/
def execFred (fd fa : FieldReg) (s : State) : Host.Outcome State Fault Refusal :=
  .next (s.writeField fd (weakReduce s.f[fa]))

/-- `FREDC fd, fa` (rule R123). -/
def execFredc (fd fa : FieldReg) (s : State) : Host.Outcome State Fault Refusal :=
  .next (s.writeField fd (canonicalReduce s.f[fa]))

/-- The constant-time realisation of `FREDC` in rule R125 (informative): two weak passes, the quotient
`q = floor((value + 19) / 2^255)`, `19 * q` added to limb 0, a carry ripple, and the top cut off limb 4. -/
def canonicalByPasses (v : FieldElement) : FieldElement :=
  let u := weakReduce (weakReduce v)
  let l0 := u[0].toNat
  let l1 := u[1].toNat
  let l2 := u[2].toNat
  let l3 := u[3].toNat
  let l4 := u[4].toNat
  let q := (l4 + (l3 + (l2 + (l1 + (l0 + 19) / 2 ^ 51) / 2 ^ 51) / 2 ^ 51) / 2 ^ 51) / 2 ^ 51
  let m0 := l0 + 19 * q
  let m1 := l1 + m0 / 2 ^ 51
  let m2 := l2 + m1 / 2 ^ 51
  let m3 := l3 + m2 / 2 ^ 51
  let m4 := l4 + m3 / 2 ^ 51
  #v[BitVec.ofNat 64 (m0 % 2 ^ 51), BitVec.ofNat 64 (m1 % 2 ^ 51), BitVec.ofNat 64 (m2 % 2 ^ 51),
     BitVec.ofNat 64 (m3 % 2 ^ 51), BitVec.ofNat 64 (m4 % 2 ^ 51)]

end Sys2Proof.Machine
end

