-- ==== Sys2Proof/Machine/PointAdd.lean ====
section
/-! DEFINITION. The point adder: `PADD.E`, `PADD.PN` and `PADD.AN` (42_point_add.md). -/

namespace Sys2Proof.Machine

/-- The shared tail of rules R142 to R144: the Extended operand plus the Niels tuple, written with `repr`. -/
def addAndWrite (w : CommandWord) (pd pa : PointReg) (N : ProjectiveNiels) (s : State) :
    Host.Outcome State Fault Refusal :=
  .next (s.writePoint pd (reprExtended w s (addNiels (s.readExtended pa) N)))

/-- `PADD.E pd, pa, pb`: the second operand is Extended (rule R142). -/
def execPaddE (pd pa pb : PointReg) (s : State) : Host.Outcome State Fault Refusal :=
  addAndWrite (encode (.paddE pd pa pb)) pd pa (s.readExtended pb).toNiels s

/-- `PADD.PN pd, pa, pb`: the second operand is ProjectiveNiels (rule R143). -/
def execPaddPN (pd pa pb : PointReg) (s : State) : Host.Outcome State Fault Refusal :=
  addAndWrite (encode (.paddPN pd pa pb)) pd pa (s.readProjectiveNiels pb) s

/-- `PADD.AN pd, pa, pb`: the second operand is AffineNiels, slot 3 is not read (rule R144). -/
def execPaddAN (pd pa pb : PointReg) (s : State) : Host.Outcome State Fault Refusal :=
  addAndWrite (encode (.paddAN pd pa pb)) pd pa (s.readAffineNiels pb).widen s

end Sys2Proof.Machine
end

