-- ==== Sys2Proof/Machine/PointDouble.lean ====
section
/-! DEFINITION. The point doubler: `PDBL` (41_point_double.md). -/

namespace Sys2Proof.Machine

/-- `PDBL pd, pa, k` (rules R131, R132): `k = 0` is a precondition violation; otherwise `k` doublings of the
Projective form of `p[pa]`, whose slot 3 is not read. -/
def execPdbl (pd pa : PointReg) (k : BitVec 8) (s : State) : Host.Outcome State Fault Refusal :=
  let w := encode (.pdbl pd pa k)
  if k = 0 then raise .preconditionViolation w s
  else .next (s.writePoint pd (reprExtended w s (doubleTimes (s.readProjective pa) (k.toNat - 1))))

end Sys2Proof.Machine
end

