-- ==== Sys2Proof/Machine/ScalarMmul.lean ====
section
/-! DEFINITION. The Montgomery multiplier modulo `L`: `MMUL` (43_scalar_mmul.md). -/

namespace Sys2Proof.Machine

/-- Montgomery reduction of `T < 2^260 * L` (rule R156): `m`, then `u = (T + m*L) / 2^260`, then one conditional
subtraction. -/
def montReduce (T : Nat) : Nat :=
  let m := (T % montRadix) * montNL % montRadix
  let u := (T + m * groupOrder) / montRadix
  if groupOrder ≤ u then u - groupOrder else u

/-- The value precondition of `MMUL`, which the hardware does not check (rule R157). -/
def montInRange (a b : Nat) : Bool := decide (a * b < montRadix * groupOrder)

/-- `MMUL sd, sa, sb` (rules R156, R157): inside the value precondition the fully reduced Montgomery product, outside
it any five limbs (log entry 8).  The hardwired `s[6]`, `s[7]` as destination are an illegal command
(rule R97(b)); the decoder has already refused such a word. -/
def execMmul (sd sa sb : ScalarReg) (s : State) : Host.Outcome State Fault Refusal :=
  if sd.val < 6 then
    if montInRange (s.scalar sa) (s.scalar sb) then
      .next (s.writeScalar sd (limbs52 (montReduce (s.scalar sa * s.scalar sb))))
    else .next (s.writeScalar sd (Config.freeScalar s.draws)).drawn
  else raise .illegalCommand (encode (.mmul sd sa sb)) s

/-! ## The limb-wise realisation of rule R158 (informative) -/

/-- `part1(x)`: `q = (x * LFACTOR) & M`, and the carry `(x + q * l_0) >> 52` (rule R158). -/
def montPart1 (x : Nat) : Nat × Nat :=
  let q := x % 2 ^ 52 * lFactor % 2 ^ 52
  ((x + q * (groupOrder % 2 ^ 52)) / 2 ^ 52, q)

/-- `part2(x)`: `(x >> 52, x & M)` (rule R158). -/
def montPart2 (x : Nat) : Nat × Nat := (x / 2 ^ 52, x % 2 ^ 52)

/-- `l_j`, limb `j` of `L` (rule R158). -/
def orderLimb (j : Nat) : Nat := groupOrder / 2 ^ (52 * j) % 2 ^ 52

/-- `u` of rule R158 from the limbs of the two factors: the nine column sums, five steps of `part1` and four of
`part2`. -/
def montLimbwiseU (a b : UnpackedScalar) : Nat :=
  let a0 := a[0].toNat; let a1 := a[1].toNat; let a2 := a[2].toNat; let a3 := a[3].toNat; let a4 := a[4].toNat
  let b0 := b[0].toNat; let b1 := b[1].toNat; let b2 := b[2].toNat; let b3 := b[3].toNat; let b4 := b[4].toNat
  let l1 := orderLimb 1; let l2 := orderLimb 2; let l3 := orderLimb 3; let l4 := orderLimb 4
  let z0 := a0 * b0
  let z1 := a0 * b1 + a1 * b0
  let z2 := a0 * b2 + a1 * b1 + a2 * b0
  let z3 := a0 * b3 + a1 * b2 + a2 * b1 + a3 * b0
  let z4 := a0 * b4 + a1 * b3 + a2 * b2 + a3 * b1 + a4 * b0
  let z5 := a1 * b4 + a2 * b3 + a3 * b2 + a4 * b1
  let z6 := a2 * b4 + a3 * b3 + a4 * b2
  let z7 := a3 * b4 + a4 * b3
  let z8 := a4 * b4
  let p0 := montPart1 z0
  let p1 := montPart1 (p0.1 + z1 + p0.2 * l1)
  let p2 := montPart1 (p1.1 + z2 + p0.2 * l2 + p1.2 * l1)
  let p3 := montPart1 (p2.1 + z3 + p0.2 * l3 + p1.2 * l2 + p2.2 * l1)
  let p4 := montPart1 (p3.1 + z4 + p0.2 * l4 + p1.2 * l3 + p2.2 * l2 + p3.2 * l1)
  let r0 := montPart2 (p4.1 + z5 + p1.2 * l4 + p2.2 * l3 + p3.2 * l2 + p4.2 * l1)
  let r1 := montPart2 (r0.1 + z6 + p2.2 * l4 + p3.2 * l3 + p4.2 * l2)
  let r2 := montPart2 (r1.1 + z7 + p3.2 * l4 + p4.2 * l3)
  let r3 := montPart2 (r2.1 + z8 + p4.2 * l4)
  r0.2 + r1.2 * 2 ^ 52 + r2.2 * 2 ^ 104 + r3.2 * 2 ^ 156 + r3.1 * 2 ^ 208

/-- The result of rule R158: `u - L if u >= L else u`. -/
def montLimbwise (a b : UnpackedScalar) : Nat :=
  let u := montLimbwiseU a b
  if groupOrder ≤ u then u - groupOrder else u

end Sys2Proof.Machine
end

