-- ==== Sys2Proof/Machine/Recode.lean ====
section
/-! DEFINITION. The digit recodings inside `SMFB` and `SMVB` (00_scope.md rules R17, R18). -/

namespace Sys2Proof.Machine

/-- `n` recentred digits and the last one, from the remaining value `k` with the carry `c` into its lowest nibble:
`e = (k & 15) + c`, `c' = (e + 8) >> 4`, digit `e - 16*c'`; the last digit is not recentred (rule R17). -/
def radix16From : (n k c : Nat) → List Int
  | 0, k, c => [((k % 16 + c : Nat) : Int)]
  | n + 1, k, c =>
    (((k % 16 + c : Nat) : Int) - 16 * (((k % 16 + c + 8) / 16 : Nat) : Int)) ::
      radix16From n (k / 16) ((k % 16 + c + 8) / 16)

/-- `radix16(k)`: 64 digits, least significant first (rule R17). -/
def radix16 (k : Nat) : List Int := radix16From 63 k 0

/-- The digit rule R18 takes from an odd `k`: `k mod 2^w`, less `2^w` when that is at least `2^(w-1)`. -/
def nafDigit (w k : Nat) : Int :=
  if 2 ^ (w - 1) ≤ k % 2 ^ w then ((k % 2 ^ w : Nat) : Int) - 2 ^ w else ((k % 2 ^ w : Nat) : Int)

/-- `n` digits of the width-`w` NAF of `k` (rule R18's loop; once `k` is 0 every digit is 0). -/
def nafFrom (w : Nat) : (n k : Nat) → List Int
  | 0, _ => []
  | n + 1, k =>
    if k % 2 = 1 then nafDigit w k :: nafFrom w n (((k : Int) - nafDigit w k).toNat / 2)
    else 0 :: nafFrom w n (k / 2)

/-- `naf(k, w)`: 256 digits, least significant first (rule R18). -/
def naf (k w : Nat) : List Int := nafFrom w 256 k

/-- `sum d_i * base^i`, the value of a digit sequence (rules R17, R18). -/
def digitSum (base : Int) : List Int → Int
  | [] => 0
  | d :: ds => d + base * digitSum base ds

end Sys2Proof.Machine
end

