-- ==== Sys2Proof/Machine/ScalarMultFixed.lean ====
section
/-! DEFINITION. The fixed-base windowed scalar multiplication: `SMFB` (44_scalar_mult_fixed.md). -/

namespace Sys2Proof.Machine

/-- `sval < 2^255`, the checked precondition on a scalar (rules R171, R186). -/
def scalarInRange (k : Nat) : Bool := decide (k < 2 ^ 255)

/-- `SMFB pd, sa` (rules R171, R172): a representative of `[k]B`, or a precondition violation for `k >= 2^255`. -/
def execSmfb (pd : PointReg) (sa : ScalarReg) (s : State) : Host.Outcome State Fault Refusal :=
  let w := encode (.smfb pd sa)
  if scalarInRange (s.scalar sa) then
    .next (s.writePoint pd (ptRepresentative w s (scalarMul (s.scalar sa) basePoint)))
  else raise .preconditionViolation w s

/-! ## The reference algorithm (rules R173 to R175, informative as to the representative) -/

/-- `TB[i][j] = AffineNiels([(j+1) * 256^i] B)` (rule R173). -/
def fixedTable (i j : Nat) : AffineNiels := (scalarMul ((j + 1) * 256 ^ i) basePoint).toNiels

/-- `select(i, e)` (rule R174): a scan over all 8 entries that keeps the one at `|e|`, then a negation when `e < 0`. -/
def fixedSelect (i : Nat) (e : Int) : AffineNiels :=
  let t := (List.range 8).foldl (fun t j => if e.natAbs = j + 1 then fixedTable i j else t) ⟨1, 1, 0⟩
  if e < 0 then t.neg else t

/-- `P + select(i, e)` (rule R175, steps 2 and 4). -/
def fixedStep (digits : List Int) (i : Nat) (P : Extended) (pos : Nat) : Extended :=
  addNiels P (fixedSelect i (digits.getD pos 0)).widen

/-- The algorithm of rule R175: the odd digits, `[16]`, the even digits. -/
def fixedReference (k : Nat) : Extended :=
  let e := radix16 k
  let odd := (List.range 32).foldl (fun P i => fixedStep e i P (2 * i + 1)) Extended.identity
  let scaled := doubleTimes odd.toProjective 3
  (List.range 32).foldl (fun P i => fixedStep e i P (2 * i)) scaled

end Sys2Proof.Machine
end

