-- ==== Sys2Proof/Machine/ScalarMultVar.lean ====
section
/-! DEFINITION. The variable-base double-scalar multiplication: `SMVB` (45_scalar_mult_var.md). -/

namespace Sys2Proof.Machine

/-- `[a]A + [b]B` (rule R187). -/
def doubleScalarMul (a : Nat) (A : Affine) (b : Nat) : Affine :=
  Affine.add (scalarMul a A) (scalarMul b basePoint)

/-- `SMVB pd, sa, pA, sb` (rules R186, R187, R188): a representative of `[a]A + [b]B` for a valid Extended `A`, any four
bounded limb vectors for an invalid one (log entry 9), or a precondition violation. -/
def execSmvb (pd : PointReg) (sa : ScalarReg) (pA : PointReg) (sb : ScalarReg) (s : State) :
    Host.Outcome State Fault Refusal :=
  let w := encode (.smvb pd sa pA sb)
  if scalarInRange (s.scalar sa) && scalarInRange (s.scalar sb) then
    if (s.readExtended pA).valid then
      .next (s.writePoint pd
        (ptRepresentative w s (doubleScalarMul (s.scalar sa) (s.readExtended pA).toAffine (s.scalar sb))))
    else .next (s.writePoint pd (freePointLimbs s.draws)).drawn
  else raise .preconditionViolation w s

/-! ## The reference algorithm (rules R189, R190, informative as to the representative) -/

/-- `NB[j] = AffineNiels([2j+1]B)`, `j = 0 .. 63` (rule R189). -/
def baseNafTable (j : Nat) : AffineNiels := (scalarMul (2 * j + 1) basePoint).toNiels

/-- `NA[j]`, `j = 0 .. 7`: the ProjectiveNiels form of `[2j+1]A`, built from `A` and `[2]A` by additions
(rule R189). -/
def variableNafPoint (A : Extended) : Nat → Extended
  | 0 => A
  | j + 1 => addNiels (variableNafPoint A j) (doubleOnce A.toProjective).toNiels

/-- `P + NA[(n-1)/2]` or `P - NA[(-n-1)/2]`, or `P` for the digit 0 (rule R190). -/
def addVariableDigit (A P : Extended) (n : Int) : Extended :=
  if 0 < n then addNiels P (variableNafPoint A ((n.natAbs - 1) / 2)).toNiels
  else if n < 0 then addNiels P (variableNafPoint A ((n.natAbs - 1) / 2)).toNiels.neg
  else P

/-- `P + NB[(n-1)/2]` or `P - NB[(-n-1)/2]`, or `P` for the digit 0 (rule R190). -/
def addBaseDigit (P : Extended) (n : Int) : Extended :=
  if 0 < n then addNiels P (baseNafTable ((n.natAbs - 1) / 2)).widen
  else if n < 0 then addNiels P (baseNafTable ((n.natAbs - 1) / 2)).neg.widen
  else P

/-- One step of the ladder for the digit pair of one position (rule R190, step 5). -/
def ladderStep (A P : Extended) (d : Int × Int) : Extended :=
  addBaseDigit (addVariableDigit A (doubleOnce P.toProjective) d.1) d.2

/-- The algorithm of rule R190: both NAFs, from the most significant position where either digit is not 0. -/
def variableReference (a : Nat) (A : Extended) (b : Nat) : Extended :=
  let digits := ((naf a Config.nafWidthA).zip (naf b Config.nafWidthB)).reverse
  (digits.dropWhile fun d => d.1 == 0 && d.2 == 0).foldl (ladderStep A) Extended.identity

end Sys2Proof.Machine
end

