-- ==== Sys2Proof/Machine/Dispatch.lean ====
section
/-! DEFINITION. The meaning of every command, one arm per constructor: steps 3 and 4 of 30_encoding.md rule R90. -/

namespace Sys2Proof.Machine

def exec (i : Instr) (s : State) : Host.Outcome State Fault Refusal :=
  match i with
  | .mmul sd sa sb => Sys2Proof.Machine.execMmul sd sa sb s
  | .fred fd fa => Sys2Proof.Machine.execFred fd fa s
  | .fredc fd fa => Sys2Proof.Machine.execFredc fd fa s
  | .pdbl pd pa k => Sys2Proof.Machine.execPdbl pd pa k s
  | .paddE pd pa pb => Sys2Proof.Machine.execPaddE pd pa pb s
  | .paddPN pd pa pb => Sys2Proof.Machine.execPaddPN pd pa pb s
  | .paddAN pd pa pb => Sys2Proof.Machine.execPaddAN pd pa pb s
  | .smvb pd sa pA sb => Sys2Proof.Machine.execSmvb pd sa pA sb s
  | .smfb pd sa => Sys2Proof.Machine.execSmfb pd sa s

end Sys2Proof.Machine
end

