-- ==== Sys2Proof/Machine/Command.lean ====
section
/-! DEFINITION. A write to `CMD` (30_encoding.md rule R90) and the host's actions (20_memory.md rules R64, R65). -/

namespace Sys2Proof.Machine

/-- Process the command word `w` (rule R90): 1. drop it in the faulted state (rule R207); 2. decode it, and raise
`IllegalCommand` if it is illegal; 3. and 4. are the command's own meaning. -/
def issue (w : CommandWord) (s : State) : Host.Outcome State Fault Refusal :=
  if s.fault = 1 then .next s
  else match decode w with
    | .command i => exec i s
    | .illegal _ => raise .illegalCommand w s

/-- The command word in a value written to `CMD`: `v[31:0]`; the upper half is ignored (rules R65, R98). -/
def commandWord (v : HostWord) : CommandWord := v.setWidth 32

/-- A write to a location of the window (rule R65); one to a reserved offset is refused (rules R66, R69). -/
def writeLocation (l : Location) (v : HostWord) (s : State) : Host.Outcome State Fault Refusal :=
  match l with
  | .cmd => issue (commandWord v) s
  | .status => .next (s.poke .status v)
  | .fcmd => .next (s.poke .fcmd v)
  | .scalar i j => .next (s.poke (.scalar i j) v)
  | .field i j => .next (s.poke (.field i j) v)
  | .reserved => .refused .reservedOffset

/-- `MemWrite(a, width, v)` (rule R65). -/
def memWrite (a width : Nat) (v : HostWord) (s : State) : Host.Outcome State Fault Refusal :=
  withLocation a width fun l => writeLocation l v s

/-- One action of the outside world (rules R45, R230). -/
def perform (a : HostAction) (s : State) : Host.Outcome State Fault Refusal :=
  match a with
  | .memRead addr width => memRead addr width s
  | .memWrite addr width v => memWrite addr width v s
  | .reset => .next s.resetInput

/-- Take the host's next action out of the queue and perform it; with none pending the block is idle and
"keeps all state" (rule R221; log entry 4). -/
def stepHost (s : State) : Host.Outcome State Fault Refusal :=
  match s.host with
  | [] => .next s
  | a :: rest => perform a { s with host := rest }

/-- The host action that issues the command word `w`: `WR 0x000, w` (rule R100). -/
def commandWrite (w : CommandWord) : HostAction := .memWrite 0x000 8 (w.setWidth 64)

end Sys2Proof.Machine
end

