-- ==== Sys2Proof/Machine/Step.lean ====
section
/-! DEFINITION. The step function (10_state.md rule R45) and how one command is placed where it runs next. -/

namespace Sys2Proof.Machine

/-- One step of the machine: "either one host window access or, as part of a host write to `CMD`, the whole
execution of that command" (rule R45), or the reset input (rule R230). -/
def step (s : State) : Host.Outcome State Fault Refusal := stepHost s

/-- The block fetches nothing: "the next command is whatever the host writes to `CMD` next" (rule R36).  So the
word is placed as the host's next action, a write to `CMD`, before the actions already pending (log entry 3). -/
def State.withFetchWord (s : State) (nbits w : Nat) : State :=
  { s with host := commandWrite (BitVec.ofNat 32 (w % 2 ^ nbits)) :: s.host }

end Sys2Proof.Machine
end

