-- ==== Sys2Proof/Machine/Assembler.lean ====
section
/-! DEFINITION. The host actions a program listing is made of (30_encoding.md rule R100) and the pseudo-instructions (rule
R101): each is a list of host actions, since the host is the sequencer (10_state.md rule R36). -/

namespace Sys2Proof.Machine

/-- `WR a, v` (rule R100). -/
def wr (a : Nat) (v : HostWord) : HostAction := .memWrite a 8 v

/-- `RD a` (rule R100). -/
def rd (a : Nat) : HostAction := .memRead a 8

/-- `<command>`: `WR 0x000, w` with `w` the command's encoding (rule R100). -/
def cmd (i : Instr) : HostAction := commandWrite (encode i)

/-- `LDS si, n`: five writes of `limbs52(n)` (rule R100). -/
def lds (i : ScalarReg) (n : Nat) : List HostAction :=
  [wr (scalarOffset i 0) ((limbs52 n)[0].setWidth 64), wr (scalarOffset i 1) ((limbs52 n)[1].setWidth 64),
   wr (scalarOffset i 2) ((limbs52 n)[2].setWidth 64), wr (scalarOffset i 3) ((limbs52 n)[3].setWidth 64),
   wr (scalarOffset i 4) ((limbs52 n)[4].setWidth 64)]

/-- `LDF fi, (v0,v1,v2,v3,v4)`: five writes of the limbs (rule R100). -/
def ldf (i : FieldReg) (v : FieldElement) : List HostAction :=
  [wr (fieldOffset i 0) v[0], wr (fieldOffset i 1) v[1], wr (fieldOffset i 2) v[2], wr (fieldOffset i 3) v[3],
   wr (fieldOffset i 4) v[4]]

/-- `LDFV fi, n`: `LDF fi, limbs51(n)` (rule R100). -/
def ldfv (i : FieldReg) (n : Nat) : List HostAction := ldf i (limbs51 n)

/-- `SMUL sd, sa, sb` = `MMUL sd, sa, sb ; MMUL sd, sd, sRR` (rules R101, R160). -/
def smul (sd sa sb : ScalarReg) : List HostAction := [cmd (.mmul sd sa sb), cmd (.mmul sd sd sRR)]

/-- `TOMONT sd, sa` = `MMUL sd, sa, sRR` (rule R101). -/
def toMont (sd sa : ScalarReg) : List HostAction := [cmd (.mmul sd sa sRR)]

/-- `FROMMONT sd, sa`: 1 into the scratch register `st`, then `MMUL sd, sa, st` (rule R101). -/
def fromMont (sd sa st : ScalarReg) : List HostAction := lds st 1 ++ [cmd (.mmul sd sa st)]

/-- `SRED sd, sa` = `MMUL sd, sa, sRR`, 1 into the scratch register `st`, `MMUL sd, sd, st` (rule R101). -/
def sred (sd sa st : ScalarReg) : List HostAction :=
  [cmd (.mmul sd sa sRR)] ++ lds st 1 ++ [cmd (.mmul sd sd st)]

/-- `DBL pd, pa` = `PDBL pd, pa, 1` (rule R101). -/
def dbl (pd pa : PointReg) : List HostAction := [cmd (.pdbl pd pa 1)]

/-- `MULCOF pd, pa` = `PDBL pd, pa, 3` (rule R101). -/
def mulCof (pd pa : PointReg) : List HostAction := [cmd (.pdbl pd pa 3)]

/-- `MUL16 pd, pa` = `PDBL pd, pa, 4` (rule R101). -/
def mul16 (pd pa : PointReg) : List HostAction := [cmd (.pdbl pd pa 4)]

/-- `MULBASE pd, sa` = `SMFB pd, sa` (rule R101). -/
def mulBase (pd : PointReg) (sa : ScalarReg) : List HostAction := [cmd (.smfb pd sa)]

/-- `VERIFYEQ pd, sa, pA, sb` = `SMVB pd, sa, pA, sb` (rule R101). -/
def verifyEq (pd : PointReg) (sa : ScalarReg) (pA : PointReg) (sb : ScalarReg) : List HostAction :=
  [cmd (.smvb pd sa pA sb)]

end Sys2Proof.Machine
end

