-- ==== Sys2Proof/Safety.lean ====
section
/-! DEFINITION. What counts as a safe run (60_exceptions.md rules R205 to R209), and the invariant of the control state. -/

namespace Sys2Proof.Machine

/-- The faulted state: `STATUS.FAULT = 1` (rule R205). -/
def State.faulted (s : State) : Bool := s.fault == 1

/-- The control state as the rules let it be: with `FAULT = 0` both `CAUSE` and `FCMD` are 0 (rule R35), with
`FAULT = 1` the cause is one of the two codes that exist (rule R201). -/
def State.ControlOk (s : State) : Prop :=
  (s.fault = 0 ∧ s.cause = 0 ∧ s.fcmd = 0) ∨
    (s.fault = 1 ∧ (s.cause = Cause.illegalCommand.code ∨ s.cause = Cause.preconditionViolation.code))

/-- `n` steps from `s` end in a state and `STATUS = 0` there, so that "every command of the sequence executed"
(rule R209). -/
def SafeRun (n : Nat) (s : State) : Prop :=
  ∃ t, Host.Core.run Sys2Proof.core n s = .next t ∧ t.statusWord = 0

/-! ## What a command leaves unchanged -/

/-- `STATUS` and `FCMD` are the same. -/
def SameControl (s t : State) : Prop := t.fault = s.fault ∧ t.cause = s.cause ∧ t.fcmd = s.fcmd

/-- The host's pending actions and the values it has read are the same. -/
def SameHost (s t : State) : Prop := t.host = s.host ∧ t.replies = s.replies

/-- From `s` to `t` nothing changed but the field register `r`. -/
def OnlyField (r : FieldReg) (s t : State) : Prop :=
  (∀ j, j ≠ r → t.f[j] = s.f[j]) ∧ (∀ i, t.readScalar i = s.readScalar i) ∧ SameControl s t ∧ SameHost s t ∧
    t.draws = s.draws

/-- From `s` to `t` nothing changed but the scalar register `r` and, by `n`, the draw counter. -/
def OnlyScalar (r : ScalarReg) (n : Nat) (s t : State) : Prop :=
  (∀ j, t.f[(j : FieldReg)] = s.f[j]) ∧ (∀ i, i ≠ r → t.readScalar i = s.readScalar i) ∧ SameControl s t ∧
    SameHost s t ∧ t.draws = s.draws + n

/-- From `s` to `t` nothing changed but the four slots of the point register `r` and, by `n`, the draw counter. -/
def OnlyPoint (r : PointReg) (n : Nat) (s t : State) : Prop :=
  (∀ j : FieldReg, (∀ k, j ≠ slot r k) → t.f[j] = s.f[j]) ∧ (∀ i, t.readScalar i = s.readScalar i) ∧
    SameControl s t ∧ SameHost s t ∧ t.draws = s.draws + n

/-- The block is in the state of a raised fault (rule R205) and nothing else changed. -/
def OnlyFault (c : Cause) (w : CommandWord) (s t : State) : Prop :=
  t.fault = 1 ∧ t.cause = c.code ∧ t.fcmd = w ∧ t.f = s.f ∧ t.s = s.s ∧ SameHost s t ∧ t.draws = s.draws

/-- The limb vectors of the four slots of `p[r]` have limbs below `2^52` (rule R40(b)). -/
def PointBounded (r : PointReg) (t : State) : Prop :=
  ∀ (k : Fin 4) (j : Fin 5), (t.f[slot r k][j]).toNat < 2 ^ 52

/-- The window bytes of the limbs of `f[r]` (rule R61). -/
def fieldBytes (r : FieldReg) (a : Nat) : Prop := fieldOffset r 0 ≤ a ∧ a < fieldOffset r 0 + 40

/-- The window bytes of the limbs of `s[r]` (rule R61). -/
def scalarBytes (r : ScalarReg) (a : Nat) : Prop := scalarOffset r 0 ≤ a ∧ a < scalarOffset r 0 + 40

/-- The window bytes of the destination register of a command (rules R61, R93). -/
def destinationBytes (i : Instr) (a : Nat) : Prop :=
  match i with
  | .mmul sd _ _ => scalarBytes sd a
  | .fred fd _ => fieldBytes fd a
  | .fredc fd _ => fieldBytes fd a
  | .pdbl pd _ _ => ∃ k, fieldBytes (slot pd k) a
  | .paddE pd _ _ => ∃ k, fieldBytes (slot pd k) a
  | .paddPN pd _ _ => ∃ k, fieldBytes (slot pd k) a
  | .paddAN pd _ _ => ∃ k, fieldBytes (slot pd k) a
  | .smvb pd _ _ _ => ∃ k, fieldBytes (slot pd k) a
  | .smfb pd _ => ∃ k, fieldBytes (slot pd k) a

end Sys2Proof.Machine
end

