-- ==== Sys2Proof/Certificates/Slice0/Obligations.lean ====
section
/-! DEFINITION. The statements about the machine, from the numbered rules of spec/. -/

open Sys2Proof Sys2Proof.Machine

/-! ## Encoding (30_encoding.md) -/

/-- Words written out from the format of rule R91 (95_test_vectors.md section 3) decode to the commands they stand
for, one or more of each family, and words the rules forbid do not decode. -/
def Obligations.SampleWordsDecode : Prop :=
  decode 0x11002000 = .command (.mmul 2 0 1) ∧ decode 0x1108e000 = .command (.mmul 2 2 sRR) ∧
  decode 0x20800000 = .command (.fred 1 0) ∧ decode 0x2ffc0001 = .command (.fredc 31 31) ∧
  decode 0x308000ff = .command (.pdbl 1 0 255) ∧ decode 0x41844000 = .command (.paddE 3 1 2) ∧
  decode 0x41002001 = .command (.paddPN 2 0 1) ∧ decode 0x41002002 = .command (.paddAN 2 0 1) ∧
  decode 0x50840200 = .command (.smvb 1 1 0 2) ∧ decode 0x63940000 = .command (.smfb 7 5) ∧
  (∀ i, decode 0x00000000 ≠ .command i) ∧ (∀ i, decode 0x13002000 ≠ .command i) ∧
  (∀ i, decode 0x41002003 ≠ .command i) ∧ (∀ i, decode 0x20802000 ≠ .command i)

/-- Decoding the word of a well-formed command gives the command back, with every operand at every value its field
admits (rules R91 to R94). -/
def Obligations.DecodeOfEncodeIsTheCommand : Prop :=
  ∀ i : Instr, i.wellFormed = true → decode (encode i) = .command i

/-- A word that decodes is the word of the command it decodes to, which is well-formed: no two words stand for one
command, and no bit of a legal word is ignored (rules R91, R97, R98). -/
def Obligations.EncodeOfDecodeIsTheWord : Prop :=
  ∀ (w : CommandWord) (i : Instr), decode w = .command i → encode i = w ∧ i.wellFormed = true

/-- The decoder accepts exactly the words the recipe of rule R103 accepts: a row of the table with every index in
range (rules R97, R202).  No word matches two rows, and a legal word matches its command's own row. -/
def Obligations.DecoderMatchesOpcodeTable : Prop :=
  (∀ w : CommandWord, (∃ i, decode w = .command i) ↔ legalByTable w = true) ∧
  (∀ w : CommandWord, ∀ r ∈ opcodeTable, ∀ q ∈ opcodeTable, r.accepts w = true → q.accepts w = true → r = q) ∧
  (∀ (w : CommandWord) (i : Instr), decode w = .command i → w &&& rowMask i = rowMatch i)

/-! ## The step of a `CMD` write (rule R90) -/

/-- A write to `CMD` of a value whose low half is the word of a command runs that command's meaning, the host's
action used up; the upper half of the value is ignored (rules R90, R98).  `withFetchWord` places exactly such a write. -/
def Obligations.StepRunsTheDecodedCommand : Prop :=
  (∀ (s : State) (v : HostWord) (rest : List HostAction) (i : Instr),
    s.host = .memWrite 0x000 8 v :: rest → s.fault = 0 → decode (v.extractLsb' 0 32) = .command i →
    step s = exec i { s with host := rest }) ∧
  (∀ (s : State) (w : Nat) (i : Instr),
    s.fault = 0 → w < 2 ^ 32 → decodeTableWord 32 w = some i → step (s.withFetchWord 32 w) = exec i s)

/-- A reserved opcode raises `IllegalCommand` whatever the other bits of the word and the upper half of the value
are (rule R96): the whole effect is the fault record (rule R205). -/
def Obligations.ReservedOpcodesRaiseIllegalCommand : Prop :=
  ∀ (s : State) (v : HostWord) (rest : List HostAction),
    s.host = .memWrite 0x000 8 v :: rest → s.fault = 0 →
    ((v.extractLsb' 28 4).toNat = 0 ∨ 7 ≤ (v.extractLsb' 28 4).toNat) →
    ∃ t, step s = .next t ∧ OnlyFault .illegalCommand (v.extractLsb' 0 32) { s with host := rest } t

/-- Every word that no command encodes raises `IllegalCommand` with the word recorded in `FCMD`, and changes nothing
else (rules R97, R98, R202, R205). -/
def Obligations.IllegalWordsRaiseIllegalCommand : Prop :=
  ∀ (s : State) (v : HostWord) (rest : List HostAction),
    s.host = .memWrite 0x000 8 v :: rest → s.fault = 0 →
    (∀ i : Instr, i.wellFormed = true → encode i ≠ v.extractLsb' 0 32) →
    ∃ t, step s = .next t ∧ OnlyFault .illegalCommand (v.extractLsb' 0 32) { s with host := rest } t

/-- Rule R205: whenever a `CMD` write takes the machine from the unfaulted into the faulted state, its whole effect is
`FAULT <- 1`, `CAUSE <- c` with one of the two codes, and `FCMD <- w`; no register is changed.  `STATUS` then reads
`0x11` or `0x21`, and `FCMD` reads the word zero-extended. -/
def Obligations.FaultEntryIsPrecise : Prop :=
  ∀ (s t : State) (v : HostWord) (rest : List HostAction),
    s.host = .memWrite 0x000 8 v :: rest → s.fault = 0 → step s = .next t → t.fault = 1 →
    ∃ c : Cause, OnlyFault c (v.extractLsb' 0 32) { s with host := rest } t ∧
      ((c = .illegalCommand ∧ t.statusWord = 0x11) ∨ (c = .preconditionViolation ∧ t.statusWord = 0x21)) ∧
      t.fcmdWord = (v.extractLsb' 0 32).setWidth 64

/-- Rule R207: in the faulted state a write to `CMD` is dropped, whatever the word, and every other admitted access works:
limb writes store, writes to the other locations are ignored, reads return the value of the location. -/
def Obligations.FaultedEngineDropsCommands : Prop :=
  (∀ (s : State) (v : HostWord) (rest : List HostAction),
    s.host = .memWrite 0x000 8 v :: rest → s.fault = 1 → step s = .next { s with host := rest }) ∧
  (∀ (s : State) (rest : List HostAction) (i : FieldReg) (j : Fin 5) (v : HostWord),
    s.host = .memWrite (fieldOffset i j) 8 v :: rest → s.fault = 1 →
    step s = .next { s with host := rest, f := s.f.set i.val (s.f[i].set j.val v) }) ∧
  (∀ (s : State) (rest : List HostAction) (i : ScalarReg) (h : i.val < 6) (j : Fin 5) (v : HostWord),
    s.host = .memWrite (scalarOffset i j) 8 v :: rest → s.fault = 1 →
    step s = .next { s with host := rest, s := s.s.set i.val (s.s[i.val].set j.val (v.extractLsb' 0 52)) }) ∧
  (∀ (s : State) (rest : List HostAction) (a : Nat) (v : HostWord),
    s.host = .memWrite a 8 v :: rest → s.fault = 1 →
    (a = 0x008 ∨ a = 0x010 ∨ ∃ (i : ScalarReg) (j : Fin 5), ¬ i.val < 6 ∧ a = scalarOffset i j) →
    step s = .next { s with host := rest }) ∧
  (∀ (s : State) (rest : List HostAction) (a : Nat) (v : HostWord),
    s.host = .memRead a 8 :: rest → s.fault = 1 → a < 0x1000 → a % 8 = 0 → s.peek (locate a) = some v →
    step s = .next { s with host := rest, replies := s.replies ++ [v] })

/-- The engine leaves the faulted state in one way only: the step is the reset input (rule R208).  Until then the fault
record is never overwritten. -/
def Obligations.OnlyResetLeavesTheFaultedState : Prop :=
  ∀ s t : State, s.fault = 1 → step s = .next t →
    (t.fault = 1 ∧ t.cause = s.cause ∧ t.fcmd = s.fcmd) ∨ (∃ rest, s.host = .reset :: rest ∧ t.fault = 0)

/-! ## The field reducer (40_field_reduce.md) -/

/-- Rule R121: the one word that is `FRED fd, fa`; the command completes; the five output limbs are one parallel carry pass over the
input limbs, no addition wraps; every other register, `STATUS` and `FCMD` are unchanged. -/
def Obligations.FredIsOneParallelCarryPass : Prop :=
  ∀ (fd fa : FieldReg) (s : State),
    (∀ w, decode w = .command (.fred fd fa) ↔ w = assemble 0x2 (indexField fd) (indexField fa) 0 0 0) ∧
    ∃ t, exec (.fred fd fa) s = .next t ∧ OnlyField fd s t ∧
      (t.f[fd][0]).toNat = s.f[fa][0].toNat % 2 ^ 51 + 19 * (s.f[fa][4].toNat / 2 ^ 51) ∧
      (t.f[fd][1]).toNat = s.f[fa][1].toNat % 2 ^ 51 + s.f[fa][0].toNat / 2 ^ 51 ∧
      (t.f[fd][2]).toNat = s.f[fa][2].toNat % 2 ^ 51 + s.f[fa][1].toNat / 2 ^ 51 ∧
      (t.f[fd][3]).toNat = s.f[fa][3].toNat % 2 ^ 51 + s.f[fa][2].toNat / 2 ^ 51 ∧
      (t.f[fd][4]).toNat = s.f[fa][4].toNat % 2 ^ 51 + s.f[fa][3].toNat / 2 ^ 51 ∧
      (s.f[fa] = Vector.replicate 5 0xffffffffffffffff →
        t.f[fd] = #v[0x8000000025fec, 0x8000000001ffe, 0x8000000001ffe, 0x8000000001ffe, 0x8000000001ffe])

/-- Rule R122(a) to (e): `FRED` keeps the value modulo `p`; its limbs are below the stated bounds; limbs below `2^51`
are a fixed point; two passes leave limb 0 at most `2^51 + 18` and the others at most `2^51`; it is not idempotent, and
`limbs51(p)` is a fixed point although it represents 0. -/
def Obligations.FredKeepsTheValueAndBoundsTheLimbs : Prop :=
  (∀ (fd fa : FieldReg) (s : State), ∃ t, exec (.fred fd fa) s = .next t ∧
    fval t.f[fd] % fieldPrime = fval s.f[fa] % fieldPrime ∧
    (t.f[fd][0]).toNat < 2 ^ 51 + 19 * 2 ^ 13 ∧ (∀ j : Fin 5, j ≠ 0 → (t.f[fd][j]).toNat < 2 ^ 51 + 2 ^ 13) ∧
    ((∀ j : Fin 5, (s.f[fa][j]).toNat < 2 ^ 51) → t.f[fd] = s.f[fa]) ∧
    ∃ u, exec (.fred fd fd) t = .next u ∧ (u.f[fd][0]).toNat ≤ 2 ^ 51 + 18 ∧
      (∀ j : Fin 5, j ≠ 0 → (u.f[fd][j]).toNat ≤ 2 ^ 51)) ∧
  (∃ (s t u : State), exec (.fred 0 0) s = .next t ∧ exec (.fred 0 0) t = .next u ∧ u.f[0] ≠ t.f[0]) ∧
  (∀ (fd fa : FieldReg) (s : State), s.f[fa] = limbs51 fieldPrime → ∃ t, exec (.fred fd fa) s = .next t ∧
    t.f[fd] = limbs51 fieldPrime ∧ fieldValue t.f[fd] = 0)

/-- Rule R123: the one word that is `FREDC fd, fa`; the command completes; the destination holds `limbs51(n)` of
`n = fval(f[fa]) mod p`, limb by limb `(n >> 51j) & (2^51 - 1)`; `limbs51(p)` gives 0 and `p + 1` gives 1; nothing else
changes. -/
def Obligations.FredcWritesTheCanonicalLimbs : Prop :=
  ∀ (fd fa : FieldReg) (s : State),
    (∀ w, decode w = .command (.fredc fd fa) ↔ w = assemble 0x2 (indexField fd) (indexField fa) 0 0 1) ∧
    ∃ t, exec (.fredc fd fa) s = .next t ∧ OnlyField fd s t ∧
      (∀ j : Fin 5, (t.f[fd][j]).toNat = (fval s.f[fa] % (2 ^ 255 - 19)) >>> (51 * j.val) &&& (2 ^ 51 - 1)) ∧
      (s.f[fa] = limbs51 (2 ^ 255 - 19) → t.f[fd] = #v[0, 0, 0, 0, 0]) ∧
      (s.f[fa] = #v[0x7ffffffffffee, 0x7ffffffffffff, 0x7ffffffffffff, 0x7ffffffffffff, 0x7ffffffffffff] →
        t.f[fd] = #v[1, 0, 0, 0, 0])

/-- Rule R124(a) to (c): `FREDC` keeps the value modulo `p`, its result is the one vector with every limb below `2^51` and
value below `p`, it is idempotent, and it decides field equality: two registers hold field-equal values exactly when
their `FREDC` results agree limb for limb. -/
def Obligations.FredcDecidesFieldEquality : Prop :=
  ∀ (fd ga gb : FieldReg) (s : State), ∃ t u v,
    exec (.fredc fd ga) s = .next t ∧ exec (.fredc fd gb) s = .next u ∧ exec (.fredc fd fd) t = .next v ∧
    fval t.f[fd] = fval s.f[ga] % fieldPrime ∧ (∀ j : Fin 5, (t.f[fd][j]).toNat < 2 ^ 51) ∧ v.f[fd] = t.f[fd] ∧
    (t.f[fd] = u.f[fd] ↔ fval s.f[ga] % fieldPrime = fval s.f[gb] % fieldPrime)

/-- Rule R125: the branch-free realisation (two weak passes, the quotient, `19 * q`, the ripple) computes what `FREDC`
writes, for every input vector. -/
def Obligations.FredcRealisationAgrees : Prop :=
  ∀ (fd fa : FieldReg) (s : State), ∃ t, exec (.fredc fd fa) s = .next t ∧ t.f[fd] = canonicalByPasses s.f[fa]

/-! ## The point doubler (41_point_double.md) -/

/-- Rule R132 for `k = 1`: `PDBL` completes and the four values it writes are the formulas of one doubling, exact modulo
`p`, for every input, valid or not; slot 3 of the source plays no part; limbs are below `2^52`; nothing but `p[pd]`
changes. -/
def Obligations.PdblOnceWritesTheDoublingFormulas : Prop :=
  ∀ (pd pa : PointReg) (s : State), ∃ t, exec (.pdbl pd pa 1) s = .next t ∧ OnlyPoint pd 0 s t ∧ PointBounded pd t ∧
    ∀ X Y Z Cx Cy Cz Ct : Int, X = s.slotValue pa 0 → Y = s.slotValue pa 1 → Z = s.slotValue pa 2 →
      Cx = (X + Y) * (X + Y) - (Y * Y + X * X) → Cy = Y * Y + X * X → Cz = Y * Y - X * X →
      Ct = 2 * Z * Z - Cz →
      (t.slotValue pd 0 : Int) = (Cx * Ct) % (2 ^ 255 - 19) ∧ (t.slotValue pd 1 : Int) = (Cy * Cz) % (2 ^ 255 - 19) ∧
      (t.slotValue pd 2 : Int) = (Cz * Ct) % (2 ^ 255 - 19) ∧ (t.slotValue pd 3 : Int) = (Cx * Cy) % (2 ^ 255 - 19)

/-- Rule R132's `repeat k times`: for every count from 1 to 255 `PDBL` completes, changes nothing but `p[pd]`, with limbs
below `2^52`; and `k + 1` doublings leave the values of `k` doublings doubled once more. -/
def Obligations.PdblRepeatsTheDoubling : Prop :=
  (∀ (pd pa : PointReg) (k : BitVec 8) (s : State), k ≠ 0 →
    ∃ t, exec (.pdbl pd pa k) s = .next t ∧ OnlyPoint pd 0 s t ∧ PointBounded pd t) ∧
  (∀ (pd pa : PointReg) (k : BitVec 8) (s : State), k ≠ 0 → k ≠ 255 →
    ∃ t u v, exec (.pdbl pd pa k) s = .next t ∧ exec (.pdbl pd pd 1) t = .next u ∧
      exec (.pdbl pd pa (k + 1)) s = .next v ∧ v.readExtended pd = u.readExtended pd)

/-- Rule R131: `PDBL` with `k = 0` raises `PreconditionViolation`, writes no register and leaves the block faulted, with
its own word recorded; with any other count it leaves `STATUS` and `FCMD` alone. -/
def Obligations.PdblZeroCountViolatesThePrecondition : Prop :=
  ∀ (pd pa : PointReg) (k : BitVec 8) (s : State),
    (k = 0 → ∃ t, exec (.pdbl pd pa k) s = .next t ∧
      OnlyFault .preconditionViolation (assemble 0x3 (indexField pd) (indexField pa) 0 0 0) s t) ∧
    (k ≠ 0 → ∃ t, exec (.pdbl pd pa k) s = .next t ∧ SameControl s t)

/-- Rule R133: if `p[pa]` read as Projective is valid and represents `P`, the tuple written is a valid Extended tuple that
represents `[2^k]P`, with `P` added to itself by the affine law of rule R12. -/
def Obligations.PdblMultipliesByPowersOfTwo : Prop :=
  ∀ (pd pa : PointReg) (k : BitVec 8) (s : State), k ≠ 0 → (s.readProjective pa).valid = true →
    ∃ t, exec (.pdbl pd pa k) s = .next t ∧ (t.readExtended pd).valid = true ∧
      (t.readExtended pd).represents (mulPoint (2 ^ k.toNat) (s.readProjective pa).toAffine) = true

/-- Rule R134(a), (b), (e): the identity is a fixed point of every count, the point of order 2 doubles to the identity, and
the all-zero tuple gives the all-zero tuple without a fault. -/
def Obligations.PdblCornerCases : Prop :=
  ∀ (pd pa : PointReg) (k : BitVec 8) (s : State), k ≠ 0 → ∃ t, exec (.pdbl pd pa k) s = .next t ∧ SameControl s t ∧
    (s.readProjective pa = ⟨0, 1, 1⟩ → t.readExtended pd = ⟨0, 1, 1, 0⟩) ∧
    (s.readProjective pa = ⟨0, fieldPrime - 1, 1⟩ → t.readExtended pd = ⟨0, 1, 1, 0⟩) ∧
    (s.readProjective pa = ⟨0, 0, 0⟩ → t.readExtended pd = ⟨0, 0, 0, 0⟩)

/-! ## The point adder (42_point_add.md) -/

/-- Rules R141, R142: `PADD.E` completes and writes the values of `ext(addN(...))` with the second operand turned into
`(Y2+X2, Y2-X2, Z2, 2d*T2)`, exact modulo `p`; limbs are below `2^52`; nothing but `p[pd]` changes. -/
def Obligations.PaddEWritesTheUnifiedSum : Prop :=
  ∀ (pd pa pb : PointReg) (s : State), ∃ t, exec (.paddE pd pa pb) s = .next t ∧ OnlyPoint pd 0 s t ∧
    PointBounded pd t ∧
    ∀ X1 Y1 Z1 T1 X2 Y2 Z2 T2 PP MM TT ZZ2 : Int,
      X1 = s.slotValue pa 0 → Y1 = s.slotValue pa 1 → Z1 = s.slotValue pa 2 → T1 = s.slotValue pa 3 →
      X2 = s.slotValue pb 0 → Y2 = s.slotValue pb 1 → Z2 = s.slotValue pb 2 → T2 = s.slotValue pb 3 →
      PP = (Y1 + X1) * (Y2 + X2) → MM = (Y1 - X1) * (Y2 - X2) → TT = T1 * (2 * curveD * T2) →
      ZZ2 = 2 * (Z1 * Z2) →
      (t.slotValue pd 0 : Int) = ((PP - MM) * (ZZ2 - TT)) % (2 ^ 255 - 19) ∧
      (t.slotValue pd 1 : Int) = ((PP + MM) * (ZZ2 + TT)) % (2 ^ 255 - 19) ∧
      (t.slotValue pd 2 : Int) = ((ZZ2 + TT) * (ZZ2 - TT)) % (2 ^ 255 - 19) ∧
      (t.slotValue pd 3 : Int) = ((PP - MM) * (PP + MM)) % (2 ^ 255 - 19)

/-- Rules R141, R143: `PADD.PN` completes and writes the values of `ext(addN(...))` with the four slots of `p[pb]` as the
Niels tuple, exact modulo `p`; limbs are below `2^52`; nothing but `p[pd]` changes. -/
def Obligations.PaddPNWritesTheUnifiedSum : Prop :=
  ∀ (pd pa pb : PointReg) (s : State), ∃ t, exec (.paddPN pd pa pb) s = .next t ∧ OnlyPoint pd 0 s t ∧
    PointBounded pd t ∧
    ∀ X1 Y1 Z1 T1 N0 N1 N2 N3 PP MM TT ZZ2 : Int,
      X1 = s.slotValue pa 0 → Y1 = s.slotValue pa 1 → Z1 = s.slotValue pa 2 → T1 = s.slotValue pa 3 →
      N0 = s.slotValue pb 0 → N1 = s.slotValue pb 1 → N2 = s.slotValue pb 2 → N3 = s.slotValue pb 3 →
      PP = (Y1 + X1) * N0 → MM = (Y1 - X1) * N1 → TT = T1 * N3 → ZZ2 = 2 * (Z1 * N2) →
      (t.slotValue pd 0 : Int) = ((PP - MM) * (ZZ2 - TT)) % (2 ^ 255 - 19) ∧
      (t.slotValue pd 1 : Int) = ((PP + MM) * (ZZ2 + TT)) % (2 ^ 255 - 19) ∧
      (t.slotValue pd 2 : Int) = ((ZZ2 + TT) * (ZZ2 - TT)) % (2 ^ 255 - 19) ∧
      (t.slotValue pd 3 : Int) = ((PP - MM) * (PP + MM)) % (2 ^ 255 - 19)

/-- Rules R141, R144: `PADD.AN` completes and writes the values of `ext(addN(...))` with slots 0 to 2 of `p[pb]` as the
AffineNiels tuple and `N2 = 1`, exact modulo `p`; slot 3 of `p[pb]` plays no part; limbs are below `2^52`; nothing but
`p[pd]` changes. -/
def Obligations.PaddANWritesTheUnifiedSum : Prop :=
  ∀ (pd pa pb : PointReg) (s : State), ∃ t, exec (.paddAN pd pa pb) s = .next t ∧ OnlyPoint pd 0 s t ∧
    PointBounded pd t ∧
    ∀ X1 Y1 Z1 T1 N0 N1 N2 PP MM TT ZZ2 : Int,
      X1 = s.slotValue pa 0 → Y1 = s.slotValue pa 1 → Z1 = s.slotValue pa 2 → T1 = s.slotValue pa 3 →
      N0 = s.slotValue pb 0 → N1 = s.slotValue pb 1 → N2 = s.slotValue pb 2 →
      PP = (Y1 + X1) * N0 → MM = (Y1 - X1) * N1 → TT = T1 * N2 → ZZ2 = 2 * Z1 →
      (t.slotValue pd 0 : Int) = ((PP - MM) * (ZZ2 - TT)) % (2 ^ 255 - 19) ∧
      (t.slotValue pd 1 : Int) = ((PP + MM) * (ZZ2 + TT)) % (2 ^ 255 - 19) ∧
      (t.slotValue pd 2 : Int) = ((ZZ2 + TT) * (ZZ2 - TT)) % (2 ^ 255 - 19) ∧
      (t.slotValue pd 3 : Int) = ((PP - MM) * (PP + MM)) % (2 ^ 255 - 19)

/-- Rule R145: if the first operand is a valid Extended tuple of `P` and the second a valid tuple of its form of `Q`, the
tuple written is a valid Extended tuple that represents the sum of rule R12: for `PADD.E` any two valid tuples, for
`PADD.PN` and `PADD.AN` the Niels forms of rule R13. -/
def Obligations.PaddAddsPoints : Prop :=
  ∀ (pd pa pb : PointReg) (s : State), (s.readExtended pa).valid = true →
    ((s.readExtended pb).valid = true → ∃ t, exec (.paddE pd pa pb) s = .next t ∧
      (t.readExtended pd).valid = true ∧ (t.readExtended pd).represents
        (Affine.add (s.readExtended pa).toAffine (s.readExtended pb).toAffine) = true) ∧
    (∀ E : Extended, E.valid = true → s.readProjectiveNiels pb = ⟨E.toNiels.n0, E.toNiels.n1, E.Z % fieldPrime,
        E.toNiels.n3⟩ → ∃ t, exec (.paddPN pd pa pb) s = .next t ∧
      (t.readExtended pd).valid = true ∧
      (t.readExtended pd).represents (Affine.add (s.readExtended pa).toAffine E.toAffine) = true) ∧
    (∀ Q : Affine, Q.x < fieldPrime → Q.y < fieldPrime → Q.onCurve = true → s.readAffineNiels pb = Q.toNiels →
      ∃ t, exec (.paddAN pd pa pb) s = .next t ∧ (t.readExtended pd).valid = true ∧
      (t.readExtended pd).represents (Affine.add (s.readExtended pa).toAffine Q) = true)

/-! ## The Montgomery multiplier (43_scalar_mmul.md) -/

/-- Rule R156, inside the value precondition of rule R157: `MMUL` completes, the result is below `L` and is
`a * b * R^(-1) mod L`, that is `result * 2^260 = a * b (mod L)`; nothing but `s[sd]` changes. -/
def Obligations.MmulIsTheReducedMontgomeryProduct : Prop :=
  ∀ (sd sa sb : ScalarReg) (s : State), sd.val < 6 → s.scalar sa * s.scalar sb < 2 ^ 260 * groupOrder →
    ∃ t, exec (.mmul sd sa sb) s = .next t ∧ OnlyScalar sd 0 s t ∧ t.scalar sd < groupOrder ∧
      t.scalar sd * 2 ^ 260 % groupOrder = s.scalar sa * s.scalar sb % groupOrder ∧
      t.scalar sd = s.scalar sa * s.scalar sb * montRInv % groupOrder

/-- Rule R157, outside the value precondition: `MMUL` still completes without a fault and writes `s[sd]` alone, from a free
value (log entry 8); the first two sufficient conditions of the rule put the operands inside. -/
def Obligations.MmulOutOfRangeWritesOnlyItsDestination : Prop :=
  (∀ (sd sa sb : ScalarReg) (s : State), sd.val < 6 → ¬ s.scalar sa * s.scalar sb < 2 ^ 260 * groupOrder →
    ∃ t, exec (.mmul sd sa sb) s = .next t ∧ OnlyScalar sd 1 s t) ∧
  (∀ (sa sb : ScalarReg) (s : State),
    (s.scalar sa < groupOrder ∨ s.scalar sb < groupOrder ∨ (s.scalar sa < 2 ^ 256 ∧ s.scalar sb < 2 ^ 256)) →
    s.scalar sa * s.scalar sb < 2 ^ 260 * groupOrder)

/-- Rule R97(b): no word whose destination is one of the hardwired `s[6]`, `s[7]` is an `MMUL`.  What the meaning does
for such a term, which the decoder never gives, is the model's own choice and no rule of the spec (log entry 12): it
raises `IllegalCommand` with that word. -/
def Obligations.MmulHardwiredDestinationIsIllegal : Prop :=
  ∀ (sd sa sb : ScalarReg), ¬ sd.val < 6 →
    (∀ i, decode (assemble 0x1 (indexField sd) (indexField sa) (indexField sb) 0 0) ≠ .command i) ∧
    ∀ s : State, ∃ t, exec (.mmul sd sa sb) s = .next t ∧
      OnlyFault .illegalCommand (assemble 0x1 (indexField sd) (indexField sa) (indexField sb) 0 0) s t

/-- Rule R159(a) to (g), with `mont(x) = x * R mod L`: products of Montgomery forms, into and out of the domain, the
constants `sR` and `sRR`, commutation and zero. -/
def Obligations.MmulMontgomeryDomain : Prop :=
  ∀ (sd sa sb : ScalarReg) (s : State), sd.val < 6 → s.scalar sa * s.scalar sb < 2 ^ 260 * groupOrder →
    ∃ t u, exec (.mmul sd sa sb) s = .next t ∧ exec (.mmul sd sb sa) s = .next u ∧
      (∀ x y, s.scalar sa = x * montR % groupOrder → s.scalar sb = y * montR % groupOrder →
        t.scalar sd = x * y * montR % groupOrder) ∧
      (sb = sRR → t.scalar sd = s.scalar sa * montR % groupOrder) ∧
      (∀ x, s.scalar sa = x * montR % groupOrder → s.scalar sb = 1 → t.scalar sd = x % groupOrder) ∧
      (sb = sR → t.scalar sd = s.scalar sa % groupOrder) ∧
      t.readScalar sd = u.readScalar sd ∧
      (s.scalar sb = 0 → t.scalar sd = 0) ∧
      (sa = sR → sb = sR → t.readScalar sd = s.readScalar sR) ∧
      (sa = sRR → s.scalar sb = 1 → t.readScalar sd = s.readScalar sR)

/-- Rule R158: the limb-wise listing, which uses only `LFACTOR`, computes what `MMUL` writes, inside the value
precondition. -/
def Obligations.MmulLimbwiseRealisationAgrees : Prop :=
  ∀ (sd sa sb : ScalarReg) (s : State), sd.val < 6 → s.scalar sa * s.scalar sb < 2 ^ 260 * groupOrder →
    ∃ t, exec (.mmul sd sa sb) s = .next t ∧ t.scalar sd = montLimbwise (s.readScalar sa) (s.readScalar sb)

/-- Rule R160: the two commands of the pseudo-instruction `SMUL` leave `a * b mod L` in `s[sd]` and change nothing else
of the block, for every pair of operands inside the value precondition. -/
def Obligations.SmulIsTheProductModL : Prop :=
  ∀ (sd sa sb : ScalarReg) (s : State) (rest : List HostAction), sd.val < 6 → s.fault = 0 →
    s.scalar sa * s.scalar sb < 2 ^ 260 * groupOrder → s.host = smul sd sa sb ++ rest →
    ∃ t u, step s = .next t ∧ step t = .next u ∧ u.scalar sd = s.scalar sa * s.scalar sb % groupOrder ∧
      OnlyScalar sd 0 { s with host := rest } u

/-! ## The fixed-base scalar multiplication (44_scalar_mult_fixed.md) -/

/-- Rules R172, R41: for `k < 2^255` `SMFB` completes and writes a representative of `[k]B`: a valid Extended tuple with
limbs below `2^52`, equivalent to `(x, y, 1, x*y)` of the base point added to itself `k` times (rule R12); nothing but
`p[pd]` changes. -/
def Obligations.SmfbRepresentsTheMultipleOfB : Prop :=
  ∀ (pd : PointReg) (sa : ScalarReg) (s : State), s.scalar sa < 2 ^ 255 →
    ∃ t, exec (.smfb pd sa) s = .next t ∧ OnlyPoint pd 0 s t ∧ PointBounded pd t ∧
      (t.readExtended pd).valid = true ∧ (t.readExtended pd).represents (mulPoint (s.scalar sa) basePoint) = true

/-- Rule R171: a scalar of `2^255` or more, that is one of the bits `[51:47]` of limb 4 set, makes `SMFB` raise
`PreconditionViolation`; no register is written. -/
def Obligations.SmfbLargeScalarViolatesThePrecondition : Prop :=
  ∀ (pd : PointReg) (sa : ScalarReg) (s : State),
    (s.scalar sa < 2 ^ 255 ↔ ((s.readScalar sa)[4]).extractLsb' 47 5 = 0) ∧
    (2 ^ 255 ≤ s.scalar sa → ∃ t, exec (.smfb pd sa) s = .next t ∧
      OnlyFault .preconditionViolation (assemble 0x6 (indexField pd) (indexField sa) 0 0 0) s t)

/-- Rule R176(b), (c): `[k]B` depends on `k mod L` only, and the sum of two results is the result for the sum of the
scalars modulo `L`, whichever point registers hold the two results (`pa`, `pb`), the sum (`pc`) and the result it is
compared with (`pd`); only a register that is still to be read must not be overwritten. -/
def Obligations.SmfbIsAHomomorphism : Prop :=
  ∀ (pa pb pc pd : PointReg) (s1 s2 s3 : ScalarReg) (s : State), s.scalar s1 < 2 ^ 255 → s.scalar s2 < 2 ^ 255 →
    (s.scalar s3 = s.scalar s1 % groupOrder → ∃ t u, exec (.smfb pd s1) s = .next t ∧ exec (.smfb pd s3) s = .next u ∧
      (t.readExtended pd).equiv (u.readExtended pd) = true) ∧
    (pa ≠ pb → pc ≠ pd → s.scalar s3 = (s.scalar s1 + s.scalar s2) % groupOrder →
      ∃ t u v w, exec (.smfb pa s1) s = .next t ∧ exec (.smfb pb s2) t = .next u ∧
        exec (.paddE pc pa pb) u = .next v ∧ exec (.smfb pd s3) v = .next w ∧
        (w.readExtended pc).equiv (w.readExtended pd) = true)

/-- Rule R17: the recentring pass gives 64 digits whose sum is `k`, digits 0 to 62 in `[-8, 8)` and digit 63 in
`[0, 8]`; and no other 64 digits in those ranges have that sum. -/
def Obligations.RadixSixteenRecoding : Prop :=
  ∀ k : Nat, k < 2 ^ 255 → (radix16 k).length = 64 ∧ digitSum 16 (radix16 k) = k ∧
    (∀ i, i < 63 → -8 ≤ (radix16 k).getD i 0 ∧ (radix16 k).getD i 0 < 8) ∧
    0 ≤ (radix16 k).getD 63 0 ∧ (radix16 k).getD 63 0 ≤ 8 ∧
    ∀ l : List Int, l.length = 64 → digitSum 16 l = k → (∀ i, i < 63 → -8 ≤ l.getD i 0 ∧ l.getD i 0 < 8) →
      l = radix16 k

/-- Rule R175: the reference algorithm (radix-16 digits, the table of rule R173, the lookup of rule R174, 64 additions and
4 doublings) gives a valid representative of `[k]B`, the point rule R172 fixes. -/
def Obligations.SmfbReferenceAlgorithmIsCorrect : Prop :=
  ∀ k : Nat, k < 2 ^ 255 → (fixedReference k).represents (mulPoint k basePoint) = true

/-! ## The variable-base scalar multiplication (45_scalar_mult_var.md) -/

/-- Rules R187, R41: for scalars below `2^255` and a valid Extended `A` in `p[pA]`, `SMVB` completes and writes a
representative of `[a]A + [b]B`, a valid Extended tuple with limbs below `2^52`; nothing but `p[pd]` changes. -/
def Obligations.SmvbRepresentsTheDoubleMultiple : Prop :=
  ∀ (pd pA : PointReg) (sa sb : ScalarReg) (s : State), s.scalar sa < 2 ^ 255 → s.scalar sb < 2 ^ 255 →
    (s.readExtended pA).valid = true →
    ∃ t, exec (.smvb pd sa pA sb) s = .next t ∧ OnlyPoint pd 0 s t ∧ PointBounded pd t ∧
      (t.readExtended pd).valid = true ∧
      (t.readExtended pd).represents (Affine.add (mulPoint (s.scalar sa) (s.readExtended pA).toAffine)
        (mulPoint (s.scalar sb) basePoint)) = true

/-- Rule R188: for an invalid tuple in `p[pA]` `SMVB` raises no fault and writes four limb vectors with limbs below
`2^52`, whatever they are (log entry 9); a tuple with `X*Y != Z*T` is invalid. -/
def Obligations.SmvbInvalidPointWritesAnyBoundedLimbs : Prop :=
  (∀ (pd pA : PointReg) (sa sb : ScalarReg) (s : State), s.scalar sa < 2 ^ 255 → s.scalar sb < 2 ^ 255 →
    (s.readExtended pA).valid = false →
    ∃ t, exec (.smvb pd sa pA sb) s = .next t ∧ OnlyPoint pd 1 s t ∧ PointBounded pd t) ∧
  (∀ E : Extended, E.X * E.Y % fieldPrime ≠ E.Z * E.T % fieldPrime → E.valid = false)

/-- Rule R186: if either scalar is `2^255` or more, that is one of the bits `[51:47]` of its limb 4 set, `SMVB` raises
`PreconditionViolation` and writes no register. -/
def Obligations.SmvbLargeScalarViolatesThePrecondition : Prop :=
  ∀ (pd pA : PointReg) (sa sb : ScalarReg) (s : State),
    (s.scalar sa < 2 ^ 255 ↔ ((s.readScalar sa)[4]).extractLsb' 47 5 = 0) ∧
    (s.scalar sb < 2 ^ 255 ↔ ((s.readScalar sb)[4]).extractLsb' 47 5 = 0) ∧
    (2 ^ 255 ≤ s.scalar sa ∨ 2 ^ 255 ≤ s.scalar sb → ∃ t, exec (.smvb pd sa pA sb) s = .next t ∧
      OnlyFault .preconditionViolation
        (assemble 0x5 (indexField pd) (indexField sa) (indexField pA) (indexField sb) 0) s t)

/-- Rule R191(b), (c): with `a = 0`, `SMVB` agrees with `SMFB` of `b`; with `A = B`, it agrees with `SMFB` of
`(a + b) mod L`. -/
def Obligations.SmvbAgreesWithSmfb : Prop :=
  ∀ (pd pA : PointReg) (sa sb sc : ScalarReg) (s : State), s.scalar sa < 2 ^ 255 → s.scalar sb < 2 ^ 255 →
    (s.readExtended pA).valid = true →
    (s.scalar sa = 0 → ∃ t u, exec (.smvb pd sa pA sb) s = .next t ∧ exec (.smfb pd sb) s = .next u ∧
      (t.readExtended pd).equiv (u.readExtended pd) = true) ∧
    ((s.readExtended pA).represents basePoint = true → s.scalar sc = (s.scalar sa + s.scalar sb) % groupOrder →
      ∃ t u, exec (.smvb pd sa pA sb) s = .next t ∧ exec (.smfb pd sc) s = .next u ∧
      (t.readExtended pd).equiv (u.readExtended pd) = true)

/-- Rule R18: for every width from 2 to 8 the recoding gives 256 digits whose sum is `k`; every non-zero digit is odd and
below `2^(w-1)` in absolute value, and the `w - 1` digits after it are zero. -/
def Obligations.NonAdjacentFormRecoding : Prop :=
  ∀ k w : Nat, k < 2 ^ 255 → 2 ≤ w → w ≤ 8 → (naf k w).length = 256 ∧ digitSum 2 (naf k w) = k ∧
    ∀ i, (naf k w).getD i 0 ≠ 0 → (naf k w).getD i 0 % 2 = 1 ∧ |(naf k w).getD i 0| < 2 ^ (w - 1) ∧
      ∀ j, 0 < j → j < w → (naf k w).getD (i + j) 0 = 0

/-- Rule R190: the reference ladder over the two NAFs gives a valid representative of `[a]A + [b]B` for every valid
Extended `A`, the point rule R187 fixes. -/
def Obligations.SmvbReferenceAlgorithmIsCorrect : Prop :=
  ∀ (a b : Nat) (A : Extended), a < 2 ^ 255 → b < 2 ^ 255 → A.valid = true →
    (variableReference a A b).represents (Affine.add (mulPoint a A.toAffine) (mulPoint b basePoint)) = true

/-! ## The host window (20_memory.md) -/

/-- Rule R61: every aligned offset of the window is `CMD`, `STATUS`, `FCMD`, one limb of one register at the offset the
rule gives it, or reserved; and each of those stands at exactly one aligned offset. -/
def Obligations.WindowLayout : Prop :=
  locate 0x000 = .cmd ∧ locate 0x008 = .status ∧ locate 0x010 = .fcmd ∧
  (∀ (i : ScalarReg) (j : Fin 5), locate (0x200 + 64 * i.val + 8 * j.val) = .scalar i j) ∧
  (∀ (i : FieldReg) (j : Fin 5), locate (0x800 + 64 * i.val + 8 * j.val) = .field i j) ∧
  (∀ (i : PointReg) (k : Fin 4) (j : Fin 5),
    locate (0x800 + 0x100 * i.val + 0x40 * k.val + 8 * j.val) = .field (slot i k) j) ∧
  (∀ a, a < 0x1000 → a % 8 = 0 → locate a = .reserved ∨ (locate a).offset? = some a) ∧
  (∀ a, a < 0x1000 → (locate a = .reserved ↔
    (0x018 ≤ a ∧ a < 0x200) ∨ (0x400 ≤ a ∧ a < 0x800) ∨ (0x200 ≤ a ∧ 40 ≤ a % 64)))

/-- Rule R64: what a read returns at each admitted offset, with no side effect on any state but the host's own list of
values read; a second read returns the same value. -/
def Obligations.WindowReadsReturnTheRegisters : Prop :=
  (∀ (s : State) (a : Nat) (rest : List HostAction), s.host = .memRead a 8 :: rest →
    (a = 0x000 → step s = .next { s with host := rest, replies := s.replies ++ [0] }) ∧
    (a = 0x008 → step s = .next
      { s with host := rest, replies := s.replies ++ [BitVec.ofNat 64 (s.fault.toNat + 16 * s.cause.toNat)] }) ∧
    (a = 0x010 → step s = .next
      { s with host := rest, replies := s.replies ++ [BitVec.ofNat 64 s.fcmd.toNat] }) ∧
    (∀ (i : ScalarReg) (j : Fin 5), a = 0x200 + 64 * i.val + 8 * j.val → step s = .next
      { s with host := rest, replies := s.replies ++ [BitVec.ofNat 64 ((s.readScalar i)[j]).toNat] }) ∧
    (∀ (i : FieldReg) (j : Fin 5), a = 0x800 + 64 * i.val + 8 * j.val → step s = .next
      { s with host := rest, replies := s.replies ++ [s.f[i][j]] })) ∧
  (∀ (s : State) (a : Nat) (rest : List HostAction), s.host = .memRead a 8 :: .memRead a 8 :: rest →
    a < 0x1000 → a % 8 = 0 → locate a ≠ .reserved →
    ∃ t v, step s = .next t ∧ step t = .next { s with host := rest, replies := s.replies ++ [v, v] })

/-- Rule R65: what a write does at each admitted offset: it changes exactly the one limb named and nothing else, and a
write to `CMD` executes the command in the low half of the value. -/
def Obligations.WindowWritesChangeOneLimb : Prop :=
  ∀ (s : State) (a : Nat) (v : HostWord) (rest : List HostAction), s.host = .memWrite a 8 v :: rest →
    (a = 0x000 → step s = issue (v.extractLsb' 0 32) { s with host := rest }) ∧
    (a = 0x008 ∨ a = 0x010 → step s = .next { s with host := rest }) ∧
    (∀ (i : ScalarReg) (j : Fin 5), a = 0x200 + 64 * i.val + 8 * j.val →
      (∀ h : i.val < 6, step s = .next
        { s with host := rest, s := s.s.set i.val (s.s[i.val].set j.val (v.extractLsb' 0 52)) }) ∧
      (¬ i.val < 6 → step s = .next { s with host := rest })) ∧
    (∀ (i : FieldReg) (j : Fin 5), a = 0x800 + 64 * i.val + 8 * j.val → step s = .next
      { s with host := rest, f := s.f.set i.val (s.f[i].set j.val v) })

/-- Rule R67: a write to a scalar limb keeps bits `[51:0]` and drops bits `[63:52]` without any fault; five writes of
`limbs52(n)` leave the register holding `n`. -/
def Obligations.ScalarWritesKeep52Bits : Prop :=
  (∀ (s : State) (i : ScalarReg) (j : Fin 5) (v : HostWord) (rest : List HostAction), i.val < 6 →
    s.host = .memWrite (scalarOffset i j) 8 v :: rest →
    ∃ t, step s = .next t ∧ ((t.readScalar i)[j]).toNat = v.toNat % 2 ^ 52 ∧
      (∀ l : Fin 5, l ≠ j → (t.readScalar i)[l] = (s.readScalar i)[l]) ∧
      OnlyScalar i 0 { s with host := rest } t) ∧
  (∀ (s : State) (i : ScalarReg) (n : Nat) (rest : List HostAction), i.val < 6 → n < 2 ^ 260 →
    s.host = lds i n ++ rest →
    ∃ t, Host.Core.run Sys2Proof.core 5 s = .next t ∧ t.scalar i = n ∧ OnlyScalar i 0 { s with host := rest } t)

/-- Rule R68: a write to `STATUS`, `FCMD` or a limb of `s[6]` or `s[7]` changes nothing and raises nothing. -/
def Obligations.ReadOnlyWritesAreIgnored : Prop :=
  ∀ (s : State) (a : Nat) (v : HostWord) (rest : List HostAction), s.host = .memWrite a 8 v :: rest →
    (a = 0x008 ∨ a = 0x010 ∨ ∃ (i : ScalarReg) (j : Fin 5), ¬ i.val < 6 ∧ a = scalarOffset i j) →
    step s = .next { s with host := rest }

/-- Rule R69's sentence about a model: an aligned 64-bit access to a reserved offset, read or write, has no meaning and is
refused (log entry 10 gives the refusal its name). -/
def Obligations.ReservedOffsetsAreRefused : Prop :=
  ∀ (s : State) (a : Nat) (rest : List HostAction), a < 0x1000 → a % 8 = 0 →
    ((0x018 ≤ a ∧ a < 0x200) ∨ (0x400 ≤ a ∧ a < 0x800) ∨ (0x200 ≤ a ∧ 40 ≤ a % 64)) →
    (∀ v, s.host = .memWrite a 8 v :: rest → step s = .refused .reservedOffset) ∧
    (s.host = .memRead a 8 :: rest → step s = .refused .reservedOffset)

/-- Rule R66: exactly the 64-bit accesses at offsets that are multiples of 8, inside the window and not reserved
complete; every other access has no next state (log entries 10 and 11 name the stops). -/
def Obligations.OnlyAdmittedAccessesComplete : Prop :=
  ∀ (s : State) (act : HostAction) (rest : List HostAction) (a width : Nat), s.host = act :: rest →
    (act = .memRead a width ∨ ∃ v, act = .memWrite a width v) →
    ((∃ t, step s = .next t) ↔ width = 8 ∧ a % 8 = 0 ∧ a < 0x1000 ∧
      ¬ ((0x018 ≤ a ∧ a < 0x200) ∨ (0x400 ≤ a ∧ a < 0x800) ∨ (0x200 ≤ a ∧ 40 ≤ a % 64)))

/-- Rule R63: byte `b` of a window word carries bits `[8b+7 : 8b]`, so the eight bytes, byte 0 of least weight, make up
the word; the byte the window holds at offset `8q + b` is byte `b` of the word at `8q`. -/
def Obligations.WindowIsLittleEndian : Prop :=
  (∀ v : HostWord, v.toNat = (hostByte v 0).toNat + (hostByte v 1).toNat * 2 ^ 8 + (hostByte v 2).toNat * 2 ^ 16 +
    (hostByte v 3).toNat * 2 ^ 24 + (hostByte v 4).toNat * 2 ^ 32 + (hostByte v 5).toNat * 2 ^ 40 +
    (hostByte v 6).toNat * 2 ^ 48 + (hostByte v 7).toNat * 2 ^ 56) ∧
  (∀ (s : State) (q b : Nat) (v : HostWord), q < 512 → b < 8 → s.peek (locate (8 * q)) = some v →
    s.peekByte (8 * q + b) = some (hostByte v b))

/-- Rule R31: a point register is a view of four field registers.  Slot `k` of `p[i]` is `f[4i+k]`: the tuples that
commands read from `p[i]` are the values of `f[4i] .. f[4i+3]`, in every form; a host write to limb `j` of `f[4i+k]`
changes that limb, slot `k` of `p[i]`, and nothing else; and every field register is exactly one slot. -/
def Obligations.PointRegistersAreViews : Prop :=
  (∀ (i : PointReg) (k : Fin 4), (slot i k).val = 4 * i.val + k.val) ∧
  (∀ (s : State) (i : PointReg) (f0 f1 f2 f3 : FieldReg), f0.val = 4 * i.val → f1.val = 4 * i.val + 1 →
    f2.val = 4 * i.val + 2 → f3.val = 4 * i.val + 3 → ∀ v0 v1 v2 v3 : Nat, v0 = fval s.f[f0] % (2 ^ 255 - 19) →
    v1 = fval s.f[f1] % (2 ^ 255 - 19) → v2 = fval s.f[f2] % (2 ^ 255 - 19) → v3 = fval s.f[f3] % (2 ^ 255 - 19) →
    s.readExtended i = ⟨v0, v1, v2, v3⟩ ∧ s.readProjective i = ⟨v0, v1, v2⟩ ∧
    s.readProjectiveNiels i = ⟨v0, v1, v2, v3⟩ ∧ s.readAffineNiels i = ⟨v0, v1, v2⟩) ∧
  (∀ (s : State) (i : PointReg) (k : Fin 4) (r : FieldReg) (j : Fin 5) (v : HostWord) (rest : List HostAction),
    r.val = 4 * i.val + k.val → s.host = .memWrite (0x800 + 64 * (4 * i.val + k.val) + 8 * j.val) 8 v :: rest →
    ∃ t, step s = .next t ∧ OnlyField r { s with host := rest } t ∧ t.f[r] = s.f[r].set j.val v ∧
      ∀ (i' : PointReg) (k' : Fin 4), ¬ (i' = i ∧ k' = k) → t.f[slot i' k'] = s.f[slot i' k']) ∧
  (∀ r : FieldReg, ∃ i k, r = slot i k ∧ ∀ i' k', r = slot i' k' → i' = i ∧ k' = k)

/-! ## Whole-machine rules -/

/-- Every command ends in a next state, for every state and operands (rule R246): the machine never refuses a command. -/
def Obligations.EveryCommandCompletes : Prop :=
  (∀ (i : Instr) (s : State), ∃ t, exec i s = .next t) ∧
  (∀ (s : State) (v : HostWord) (rest : List HostAction), s.host = .memWrite 0x000 8 v :: rest →
    ∃ t, step s = .next t ∧ t.host = rest ∧ t.replies = s.replies)

/-- The frame of every command (rules R90, R205): either a fault was raised and no register changed, only the bytes of
`STATUS` and `FCMD`; or `STATUS` and `FCMD` are unchanged and every byte of the window outside the destination register
reads as before. -/
def Obligations.CommandsChangeOnlyTheirDestination : Prop :=
  ∀ (i : Instr) (s t : State), exec i s = .next t →
    t.host = s.host ∧ t.replies = s.replies ∧
    ((t.f = s.f ∧ t.s = s.s ∧ t.fault = 1 ∧ ∀ a, ¬ (0x008 ≤ a ∧ a < 0x018) → t.peekByte a = s.peekByte a) ∨
      (SameControl s t ∧ ∀ a, ¬ destinationBytes i a → t.peekByte a = s.peekByte a))

/-- What a command writes is a function of the command and the register files (rule R246): the host's queue, its replies
and the control registers play no part.  So is whether it counts a free value of its own (log entries 8 and 9); what such a
value is, the statement does not say. -/
def Obligations.CommandsReadOnlyTheRegisters : Prop :=
  ∀ (i : Instr) (s u : State), s.f = u.f → s.s = u.s →
    ∃ t v, exec i s = .next t ∧ exec i u = .next v ∧
      (t.draws = s.draws ↔ v.draws = u.draws) ∧ (t.draws = s.draws → t.f = v.f ∧ t.s = v.s)

/-- The only commands that change the draw counter, the model's own count of the free values used (log entry 14), are an
`MMUL` outside its value precondition (log entry 8) and an `SMVB` with an invalid point (log entry 9).  Rule R246 names these
two cases; the counter that marks them is the model's choice. -/
def Obligations.OnlyTwoCommandsDrawFreeValues : Prop :=
  ∀ (i : Instr) (s t : State), exec i s = .next t → t.draws ≠ s.draws →
    (∃ sd sa sb, i = .mmul sd sa sb ∧ ¬ s.scalar sa * s.scalar sb < 2 ^ 260 * groupOrder) ∨
    (∃ pd sa pA sb, i = .smvb pd sa pA sb ∧ (s.readExtended pA).valid = false)

/-- Rule R34: `s[6]` and `s[7]` read `limbs52(2^260 mod L)` and `limbs52(2^520 mod L)` before and after every step. -/
def Obligations.HardwiredScalarsNeverChange : Prop :=
  ∀ s : State, s.scalar sR = 2 ^ 260 % groupOrder ∧ s.scalar sRR = 2 ^ 520 % groupOrder ∧
    ∀ t, step s = .next t → t.readScalar sR = s.readScalar sR ∧ t.readScalar sRR = s.readScalar sRR

/-- Every step keeps the control state as the rules let it be: `CAUSE` and `FCMD` are 0 while `FAULT` is 0 (rule R35), and
the cause is 1 or 2 while it is 1 (rule R201). -/
def Obligations.StepsKeepTheControlState : Prop :=
  ∀ s t : State, s.ControlOk → step s = .next t → t.ControlOk

/-- The state after reset meets the invariant of the control state. -/
def Obligations.ResetControlState : Prop := State.reset.ControlOk

/-- What reset leaves, the values rule R43 gives: `STATUS` and `FCMD` read 0, `CMD` reads 0 and `s[6]`, `s[7]` hold their
constants, whatever the data registers hold. -/
def Obligations.ResetLeavesTheStatedValues : Prop :=
  (∀ (f : FieldFile) (s : ScalarFile) (a : Nat), a = 0x000 ∨ a = 0x008 ∨ a = 0x010 →
    (State.afterReset f s).peek (locate a) = some 0) ∧
  (∀ (f : FieldFile) (s : ScalarFile), (State.afterReset f s).readScalar 6 =
      #v[0xf48bd6721e6ed, 0x3bab5ac67e45a, 0xfffffeb35e51b, 0xfffffffffffff, 0xfffffffffff] ∧
    (State.afterReset f s).readScalar 7 =
      #v[0x9d265e952d13b, 0xd63c715bea69f, 0x5be65cb687604, 0x3dceec73d217f, 0x9411b7c309a]) ∧
  (∃ f s, State.reset = State.afterReset f s)

/-- Rule R230: the reset input takes any state, faulted or not, to the control state after reset in one step, and the next
command is executed again. -/
def Obligations.ResetInputClearsTheFault : Prop :=
  ∀ (s : State) (i : Instr) (rest : List HostAction), i.wellFormed = true → s.host = .reset :: cmd i :: rest →
    ∃ t, step s = .next t ∧ t.statusWord = 0 ∧ t.fcmdWord = 0 ∧ t.readScalar sR = s.readScalar sR ∧
      t.readScalar sRR = s.readScalar sRR ∧ t.replies = s.replies ∧ step t = exec i { t with host := rest }

/-- With no host action pending the block is idle and keeps all state (rule R221; log entry 4, the model's choice of what a
step then is). -/
def Obligations.IdleBlockKeepsAllState : Prop := ∀ s : State, s.host = [] → step s = .next s
end

