-- ==== Sys2Proof/Laws/Edwards.lean ====
section
/-! SUPPORT. The group law of a twisted Edwards curve `-x^2 + y^2 = 1 + d*x^2*y^2` over a field where `-1` is a square and
`d` is not (00_scope.md rules R11, R12): the law is complete, closed, commutative and associative. -/

namespace Sys2Proof.Laws.Edwards

/-- The curve equation of rule R11. -/
def On {R : Type*} [CommRing R] (d x y : R) : Prop := -x ^ 2 + y ^ 2 = 1 + d * x ^ 2 * y ^ 2

variable {F : Type*} [Field F]

/-- The product `d*x1*x2*y1*y2` of the denominators of rule R12. -/
def cross (d x1 y1 x2 y2 : F) : F := d * x1 * x2 * y1 * y2

/-- `x3` of rule R12. -/
def sumX (d x1 y1 x2 y2 : F) : F := (x1 * y2 + y1 * x2) / (1 + cross d x1 y1 x2 y2)

/-- `y3` of rule R12. -/
def sumY (d x1 y1 x2 y2 : F) : F := (y1 * y2 + x1 * x2) / (1 - cross d x1 y1 x2 y2)

variable {d : F} {x1 y1 x2 y2 x3 y3 : F}

/-- No product `d*x1*x2*y1*y2` of curve points squares to 1: otherwise `d` were a square. -/
theorem cross_sq_ne_one (hd : ¬ IsSquare d) (hm : IsSquare (-1 : F)) (h1 : On d x1 y1) (h2 : On d x2 y2) :
    cross d x1 y1 x2 y2 ^ 2 ≠ 1 := by
  intro hc
  unfold On at h1 h2
  obtain ⟨i, hi⟩ := hm
  set e := cross d x1 y1 x2 y2 with he
  unfold cross at he
  have e0 : e ≠ 0 := fun h => by simp [h] at hc
  have hx1 : x1 ≠ 0 := fun h => e0 (by rw [he, h]; ring)
  have hy1 : y1 ≠ 0 := fun h => e0 (by rw [he, h]; ring)
  have hy2 : y2 ≠ 0 := fun h => e0 (by rw [he, h]; ring)
  have hee : d ^ 2 * x1 ^ 2 * x2 ^ 2 * y1 ^ 2 * y2 ^ 2 = 1 := by rw [← hc, he]; ring
  -- `(i x1 ± e y1)^2 = d x1^2 y1^2 (i x2 ± y2)^2`
  have hsum : (i * x1 + e * y1) ^ 2 = d * (x1 * y1 * (i * x2 + y2)) ^ 2 := by
    linear_combination (-x1 ^ 2 + d * x1 ^ 2 * y1 ^ 2 * x2 ^ 2) * hi + y1 ^ 2 * hc + h1
      - d * x1 ^ 2 * y1 ^ 2 * h2 - hee + 2 * i * x1 * y1 * he
  have hdif : (i * x1 - e * y1) ^ 2 = d * (x1 * y1 * (i * x2 - y2)) ^ 2 := by
    linear_combination (-x1 ^ 2 + d * x1 ^ 2 * y1 ^ 2 * x2 ^ 2) * hi + y1 ^ 2 * hc + h1
      - d * x1 ^ 2 * y1 ^ 2 * h2 - hee - 2 * i * x1 * y1 * he
  have square (u v : F) (hv : v ≠ 0) (h : u ^ 2 = d * v ^ 2) : IsSquare d :=
    ⟨u / v, by field_simp; linear_combination -h⟩
  by_cases hp : i * x2 + y2 = 0
  · by_cases hq : i * x2 - y2 = 0
    · have h2y : (2 : F) * y2 = 0 := by linear_combination hp - hq
      have h20 : (2 : F) = 0 := (mul_eq_zero.1 h2y).resolve_right hy2
      -- in characteristic 2 the element `-1` is 1 and the sum of the two equations is a square relation
      have hi2 : i * x2 = y2 := by linear_combination hq
      have hx2y2 : y2 ^ 2 = -x2 ^ 2 := by rw [← hi2]; linear_combination -x2 ^ 2 * hi
      have : 1 + d * x2 ^ 2 * y2 ^ 2 = 0 := by
        rw [← h2, hx2y2]; linear_combination -x2 ^ 2 * h20
      have hx2 : x2 ≠ 0 := fun h => e0 (by rw [he, h]; ring)
      exact hd (square (i * 1) (x2 * y2) (mul_ne_zero hx2 hy2) (by linear_combination -hi - this))
    · exact hd (square _ _ (mul_ne_zero (mul_ne_zero hx1 hy1) hq) hdif)
  · exact hd (square _ _ (mul_ne_zero (mul_ne_zero hx1 hy1) hp) hsum)

/-- The law is complete: the first denominator of rule R12 is not zero. -/
theorem one_add_cross_ne_zero (hd : ¬ IsSquare d) (hm : IsSquare (-1 : F)) (h1 : On d x1 y1) (h2 : On d x2 y2) :
    1 + cross d x1 y1 x2 y2 ≠ 0 := fun h =>
  cross_sq_ne_one hd hm h1 h2 (by linear_combination (cross d x1 y1 x2 y2 - 1) * h)

/-- The law is complete: the second denominator of rule R12 is not zero. -/
theorem one_sub_cross_ne_zero (hd : ¬ IsSquare d) (hm : IsSquare (-1 : F)) (h1 : On d x1 y1) (h2 : On d x2 y2) :
    1 - cross d x1 y1 x2 y2 ≠ 0 := fun h =>
  cross_sq_ne_one hd hm h1 h2 (by linear_combination (-cross d x1 y1 x2 y2 - 1) * h)

/-- The sum of two points is on the curve. -/
theorem sum_on (hd : ¬ IsSquare d) (hm : IsSquare (-1 : F)) (h1 : On d x1 y1) (h2 : On d x2 y2) :
    On d (sumX d x1 y1 x2 y2) (sumY d x1 y1 x2 y2) := by
  have hB := one_add_cross_ne_zero hd hm h1 h2
  have hD := one_sub_cross_ne_zero hd hm h1 h2
  unfold On sumX sumY at *
  field_simp
  unfold cross
  linear_combination
      (x1^2*y1^2*x2^4*y2^4*d^3 - x1^2*x2^4*y2^4*d^2 - x1^2*x2^4*y2^2*d + x1^2*x2^2*y2^4*d +
      y1^2*x2^4*y2^4*d^2 + y1^2*x2^4*y2^2*d - y1^2*x2^2*y2^4*d - x2^4*y2^4*d^2 - 2*x2^4*y2^4*d -
      2*x2^4*y2^2 + x2^4 + 2*x2^2*y2^4 - 2*x2^2*y2^2*d - 4*x2^2*y2^2 + y2^4) * h1 +
      (x1^4*x2^2*y2^2*d + 2*x1^2*x2^2*y2^2*d + 2*x1^2*x2^2*y2^2 - x1^2*x2^2 + x1^2*y2^2 +
      y1^4*x2^2*y2^2*d - 2*y1^2*x2^2*y2^2*d - 2*y1^2*x2^2*y2^2 + y1^2*x2^2 - y1^2*y2^2 + x2^2*y2^2*d
      + 2*x2^2*y2^2 - x2^2 + y2^2 + 1) * h2

theorem sumX_comm : sumX d x1 y1 x2 y2 = sumX d x2 y2 x1 y1 := by
  unfold sumX cross
  congr 1 <;> ring

theorem sumY_comm : sumY d x1 y1 x2 y2 = sumY d x2 y2 x1 y1 := by
  unfold sumY cross
  congr 1 <;> ring

theorem sumX_zero : sumX d x1 y1 0 1 = x1 := by simp [sumX, cross]

theorem sumY_zero : sumY d x1 y1 0 1 = y1 := by simp [sumY, cross]

theorem neg_on (h1 : On d x1 y1) : On d (-x1) y1 := by
  unfold On at *
  linear_combination h1

theorem sumX_neg : sumX d x1 y1 (-x1) y1 = 0 := by
  unfold sumX
  rw [show x1 * y1 + y1 * -x1 = 0 by ring, zero_div]

theorem sumY_neg (hd : ¬ IsSquare d) (hm : IsSquare (-1 : F)) (h1 : On d x1 y1) :
    sumY d x1 y1 (-x1) y1 = 1 := by
  have hD := one_sub_cross_ne_zero hd hm h1 (neg_on h1)
  unfold sumY
  rw [div_eq_one_iff_eq hD]
  unfold On cross at *
  linear_combination h1

/-- Associativity, first coordinate. -/
theorem sumX_assoc (hd : ¬ IsSquare d) (hm : IsSquare (-1 : F)) (h1 : On d x1 y1) (h2 : On d x2 y2)
    (h3 : On d x3 y3) :
    sumX d (sumX d x1 y1 x2 y2) (sumY d x1 y1 x2 y2) x3 y3 =
      sumX d x1 y1 (sumX d x2 y2 x3 y3) (sumY d x2 y2 x3 y3) := by
  have hB := one_add_cross_ne_zero hd hm h1 h2
  have hD := one_sub_cross_ne_zero hd hm h1 h2
  have hB' := one_add_cross_ne_zero hd hm h2 h3
  have hD' := one_sub_cross_ne_zero hd hm h2 h3
  have hl := one_add_cross_ne_zero hd hm (sum_on hd hm h1 h2) h3
  have hr := one_add_cross_ne_zero hd hm h1 (sum_on hd hm h2 h3)
  refine (div_eq_div_iff hl hr).2 ?_
  unfold cross sumX sumY
  field_simp
  unfold On cross at *
  linear_combination
      (-x1*x2^4*y2^3*x3^2*y3*d^2 - x1*x2^4*y2*x3^2*y3*d - x1*x2^3*y2^4*x3*y3^2*d^2 -
      x1*x2^3*y2^2*x3^3*d - x1*x2^3*y2^2*x3*d + x1*x2^2*y2^3*y3^3*d - x1*x2^2*y2^3*y3*d +
      x1*x2*y2^4*x3*y3^2*d + y1*x2^4*y2^3*x3*y3^2*d^2 + y1*x2^4*y2*x3*y3^2*d +
      y1*x2^3*y2^4*x3^2*y3*d^2 + y1*x2^3*y2^2*y3^3*d - y1*x2^3*y2^2*y3*d - y1*x2^2*y2^3*x3^3*d -
      y1*x2^2*y2^3*x3*d - y1*x2*y2^4*x3^2*y3*d) * h1 +
      (x1^3*x2^2*y2*x3^2*y3*d + x1^3*x2*y2^2*x3*y3^2*d - x1^2*y1*x2^2*y2*x3^3*d -
      x1^2*y1*x2^2*y2*x3*d - x1^2*y1*x2*y2^2*y3^3*d + x1^2*y1*x2*y2^2*y3*d - x1*y1^2*x2^2*y2*y3^3*d
      + x1*y1^2*x2^2*y2*y3*d - x1*y1^2*x2*y2^2*x3^3*d - x1*y1^2*x2*y2^2*x3*d + x1*x2^2*y2*x3^2*y3*d
      + x1*x2*y2^2*x3*y3^2*d + y1^3*x2^2*y2*x3*y3^2*d + y1^3*x2*y2^2*x3^2*y3*d -
      y1*x2^2*y2*x3*y3^2*d - y1*x2*y2^2*x3^2*y3*d) * h2 +
      (x1^3*x2^3*y2^2*x3*d + x1^3*x2^2*y2^3*y3*d + x1^2*y1*x2^4*y2^3*x3*d^2 + x1^2*y1*x2^4*y2*x3*d -
      x1^2*y1*x2^3*y2^4*y3*d^2 + x1^2*y1*x2*y2^4*y3*d - x1*y1^2*x2^4*y2^3*y3*d^2 -
      x1*y1^2*x2^4*y2*y3*d + x1*y1^2*x2^3*y2^4*x3*d^2 - x1*y1^2*x2*y2^4*x3*d + x1*x2^3*y2^2*x3*d +
      x1*x2^2*y2^3*y3*d - y1^3*x2^3*y2^2*y3*d - y1^3*x2^2*y2^3*x3*d + y1*x2^3*y2^2*y3*d +
      y1*x2^2*y2^3*x3*d) * h3

/-- Associativity, second coordinate. -/
theorem sumY_assoc (hd : ¬ IsSquare d) (hm : IsSquare (-1 : F)) (h1 : On d x1 y1) (h2 : On d x2 y2)
    (h3 : On d x3 y3) :
    sumY d (sumX d x1 y1 x2 y2) (sumY d x1 y1 x2 y2) x3 y3 =
      sumY d x1 y1 (sumX d x2 y2 x3 y3) (sumY d x2 y2 x3 y3) := by
  have hB := one_add_cross_ne_zero hd hm h1 h2
  have hD := one_sub_cross_ne_zero hd hm h1 h2
  have hB' := one_add_cross_ne_zero hd hm h2 h3
  have hD' := one_sub_cross_ne_zero hd hm h2 h3
  have hl := one_sub_cross_ne_zero hd hm (sum_on hd hm h1 h2) h3
  have hr := one_sub_cross_ne_zero hd hm h1 (sum_on hd hm h2 h3)
  refine (div_eq_div_iff hl hr).2 ?_
  unfold cross sumX sumY
  field_simp
  unfold On cross at *
  linear_combination
      (x1*x2^4*y2^3*x3*y3^2*d^2 + x1*x2^4*y2*x3*y3^2*d + x1*x2^3*y2^4*x3^2*y3*d^2 +
      x1*x2^3*y2^2*y3^3*d - x1*x2^3*y2^2*y3*d - x1*x2^2*y2^3*x3^3*d - x1*x2^2*y2^3*x3*d -
      x1*x2*y2^4*x3^2*y3*d - y1*x2^4*y2^3*x3^2*y3*d^2 - y1*x2^4*y2*x3^2*y3*d -
      y1*x2^3*y2^4*x3*y3^2*d^2 - y1*x2^3*y2^2*x3^3*d - y1*x2^3*y2^2*x3*d + y1*x2^2*y2^3*y3^3*d -
      y1*x2^2*y2^3*y3*d + y1*x2*y2^4*x3*y3^2*d) * h1 +
      (-x1^3*x2^2*y2*x3*y3^2*d - x1^3*x2*y2^2*x3^2*y3*d + x1^2*y1*x2^2*y2*y3^3*d -
      x1^2*y1*x2^2*y2*y3*d + x1^2*y1*x2*y2^2*x3^3*d + x1^2*y1*x2*y2^2*x3*d + x1*y1^2*x2^2*y2*x3^3*d
      + x1*y1^2*x2^2*y2*x3*d + x1*y1^2*x2*y2^2*y3^3*d - x1*y1^2*x2*y2^2*y3*d - x1*x2^2*y2*x3*y3^2*d
      - x1*x2*y2^2*x3^2*y3*d - y1^3*x2^2*y2*x3^2*y3*d - y1^3*x2*y2^2*x3*y3^2*d +
      y1*x2^2*y2*x3^2*y3*d + y1*x2*y2^2*x3*y3^2*d) * h2 +
      (x1^3*x2^3*y2^2*y3*d + x1^3*x2^2*y2^3*x3*d + x1^2*y1*x2^4*y2^3*y3*d^2 + x1^2*y1*x2^4*y2*y3*d -
      x1^2*y1*x2^3*y2^4*x3*d^2 + x1^2*y1*x2*y2^4*x3*d - x1*y1^2*x2^4*y2^3*x3*d^2 -
      x1*y1^2*x2^4*y2*x3*d + x1*y1^2*x2^3*y2^4*y3*d^2 - x1*y1^2*x2*y2^4*y3*d + x1*x2^3*y2^2*y3*d +
      x1*x2^2*y2^3*x3*d - y1^3*x2^3*y2^2*x3*d - y1^3*x2^2*y2^3*y3*d + y1*x2^3*y2^2*x3*d +
      y1*x2^2*y2^3*y3*d) * h3

end Sys2Proof.Laws.Edwards
end

