-- ==== Sys2Proof/Laws/Prime.lean ====
section
/-! SUPPORT. `p = 2^255 - 19` is prime, so `GF(p)` (00_scope.md rule R10) is a field: Lucas certificates, checked by the
kernel with modular powers. -/

namespace Sys2Proof.Laws

set_option Elab.async false

/-- `a ^ e mod m` by repeated squaring, for exponents below `2 ^ fuel`. -/
def powMod (m a : Nat) : (fuel : Nat) → (e : Nat) → Nat
  | 0, _ => 1
  | fuel + 1, e =>
    if e = 0 then 1
    else if e % 2 = 1 then powMod m (a * a % m) fuel (e / 2) * a % m
    else powMod m (a * a % m) fuel (e / 2)

theorem powMod_cast (m : Nat) (fuel a e : Nat) (h : e < 2 ^ fuel) :
    ((powMod m a fuel e : Nat) : ZMod m) = (a : ZMod m) ^ e := by
  induction fuel generalizing a e with
  | zero => obtain rfl : e = 0 := by simpa using h
            simp [powMod]
  | succ n ih =>
    have hh : e / 2 < 2 ^ n := by rw [pow_succ] at h; omega
    have key := ih (a * a % m) (e / 2) hh
    unfold powMod
    split_ifs with h0 h1
    · simp [h0]
    · rw [ZMod.natCast_mod, Nat.cast_mul, key, ZMod.natCast_mod, Nat.cast_mul]
      conv_rhs => rw [← Nat.div_add_mod e 2, h1, pow_add, pow_mul, pow_one, sq]
    · have h2 : e % 2 = 0 := by omega
      rw [key, ZMod.natCast_mod, Nat.cast_mul]
      conv_rhs => rw [← Nat.div_add_mod e 2, h2, pow_add, pow_mul, pow_zero, mul_one, sq]

/-- A Lucas certificate: `a` has order `n - 1` modulo `n`. -/
theorem prime_of_certificate (n a : Nat) (qs : List Nat) (hn : 1 < n)
    (hqs : ∀ q ∈ qs, q.Prime) (hprod : qs.prod = n - 1) (hbound : n < 2 ^ 255)
    (h1 : powMod n a 255 (n - 1) = 1)
    (h2 : qs.all (fun q => decide (powMod n a 255 ((n - 1) / q) % n ≠ 1)) = true) : n.Prime := by
  have : Fact (1 < n) := ⟨hn⟩
  refine lucas_primality n (a : ZMod n) ?_ ?_
  · rw [← powMod_cast n 255 a (n - 1) (by omega), h1, Nat.cast_one]
  · intro q hq hdvd
    have hmem : q ∈ qs := by
      rw [← hprod] at hdvd
      obtain ⟨r, hr, hqr⟩ := (Prime.dvd_prod_iff hq.prime).1 hdvd
      rwa [(Nat.prime_dvd_prime_iff_eq hq (hqs r hr)).1 hqr]
    have hne := of_decide_eq_true (List.all_eq_true.1 h2 q hmem)
    intro hpow
    have hlt : (n - 1) / q < 2 ^ 255 := lt_of_le_of_lt (Nat.div_le_self _ _) (by omega)
    rw [← powMod_cast n 255 a _ hlt, show (1 : ZMod n) = ((1 : Nat) : ZMod n) by simp,
      ZMod.natCast_eq_natCast_iff] at hpow
    exact hne (Eq.trans hpow (Nat.mod_eq_of_lt hn))

theorem prime_8574133 : Nat.Prime 8574133 := by norm_num

theorem prime_1923133 : Nat.Prime 1923133 := by norm_num

theorem prime_2773320623 : Nat.Prime 2773320623 :=
  prime_of_certificate _ 5 [2, 2437, 569003] (by norm_num)
    (by simp only [List.mem_cons, List.not_mem_nil, or_false, forall_eq_or_imp, forall_eq]; norm_num)
    (by decide +kernel) (by decide +kernel) (by decide +kernel) (by decide +kernel)

theorem prime_72106336199 : Nat.Prime 72106336199 :=
  prime_of_certificate _ 7 [2, 13, 2773320623] (by norm_num)
    (by simp only [List.mem_cons, List.not_mem_nil, or_false, forall_eq_or_imp, forall_eq]
        exact ⟨by norm_num, by norm_num, prime_2773320623⟩)
    (by decide +kernel) (by decide +kernel) (by decide +kernel) (by decide +kernel)

theorem prime_1919519569386763 : Nat.Prime 1919519569386763 :=
  prime_of_certificate _ 2 [2, 3, 7, 19, 47, 47, 127, 8574133] (by norm_num)
    (by simp only [List.mem_cons, List.not_mem_nil, or_false, forall_eq_or_imp, forall_eq]
        exact ⟨by norm_num, by norm_num, by norm_num, by norm_num, by norm_num, by norm_num, by norm_num,
          prime_8574133⟩)
    (by decide +kernel) (by decide +kernel) (by decide +kernel) (by decide +kernel)

theorem prime_31757755568855353 : Nat.Prime 31757755568855353 :=
  prime_of_certificate _ 10 [2, 2, 2, 3, 31, 107, 223, 4153, 430751] (by norm_num)
    (by simp only [List.mem_cons, List.not_mem_nil, or_false, forall_eq_or_imp, forall_eq]; norm_num)
    (by decide +kernel) (by decide +kernel) (by decide +kernel) (by decide +kernel)

theorem prime_75445702479781427272750846543864801 : Nat.Prime 75445702479781427272750846543864801 :=
  prime_of_certificate _ 7 [2, 2, 2, 2, 2, 3, 3, 5, 5, 75707, 72106336199, 1919519569386763] (by norm_num)
    (by simp only [List.mem_cons, List.not_mem_nil, or_false, forall_eq_or_imp, forall_eq]
        exact ⟨by norm_num, by norm_num, by norm_num, by norm_num, by norm_num, by norm_num, by norm_num,
          by norm_num, by norm_num, by norm_num, prime_72106336199, prime_1919519569386763⟩)
    (by decide +kernel) (by decide +kernel) (by decide +kernel) (by decide +kernel)

theorem prime_factor_of_p_sub_one :
    Nat.Prime 74058212732561358302231226437062788676166966415465897661863160754340907 :=
  prime_of_certificate _ 2
    [2, 3, 353, 57467, 132049, 1923133, 31757755568855353, 75445702479781427272750846543864801] (by norm_num)
    (by simp only [List.mem_cons, List.not_mem_nil, or_false, forall_eq_or_imp, forall_eq]
        exact ⟨by norm_num, by norm_num, by norm_num, by norm_num, by norm_num, prime_1923133,
          prime_31757755568855353, prime_75445702479781427272750846543864801⟩)
    (by decide +kernel) (by decide +kernel) (by decide +kernel) (by decide +kernel)

/-- `p = 2^255 - 19` is prime (rule R10). -/
theorem fieldPrime_prime : Nat.Prime Machine.fieldPrime :=
  prime_of_certificate _ 2
    [2, 2, 3, 65147, 74058212732561358302231226437062788676166966415465897661863160754340907] (by decide +kernel)
    (by simp only [List.mem_cons, List.not_mem_nil, or_false, forall_eq_or_imp, forall_eq]
        exact ⟨by norm_num, by norm_num, by norm_num, by norm_num, prime_factor_of_p_sub_one⟩)
    (by decide +kernel) (by decide +kernel) (by decide +kernel) (by decide +kernel)

end Sys2Proof.Laws
end

