-- ==== Sys2Proof/Laws/Field.lean ====
section
/-! SUPPORT. The machine's field arithmetic on naturals is arithmetic in `ZMod p` (00_scope.md rules R10, R20), and the
constants of rules R11 to R16 are what those rules define. -/

namespace Sys2Proof.Laws

set_option Elab.async false

open Sys2Proof.Machine

/-- `GF(p)` (rule R10). -/
abbrev Fp := ZMod fieldPrime

theorem fact_fieldPrime : Fact (Nat.Prime fieldPrime) := ⟨fieldPrime_prime⟩

theorem fieldPrime_pos : 0 < fieldPrime := fieldPrime_prime.pos

/-! ## Casts to `ZMod p` -/

@[simp] theorem cast_fieldPrime : ((fieldPrime : Nat) : Fp) = 0 := ZMod.natCast_self _

@[simp] theorem cast_mod_fieldPrime (a : Nat) : ((a % fieldPrime : Nat) : Fp) = a := ZMod.natCast_mod a _

@[simp] theorem cast_fadd (a b : Nat) : ((fadd a b : Nat) : Fp) = a + b := by simp [fadd]

@[simp] theorem cast_fmul (a b : Nat) : ((fmul a b : Nat) : Fp) = a * b := by simp [fmul]

@[simp] theorem cast_fsub (a b : Nat) : ((fsub a b : Nat) : Fp) = a - b := by
  have h : b % fieldPrime ≤ fieldPrime := (Nat.mod_lt _ fieldPrime_pos).le
  simp [fsub, Nat.cast_sub h, sub_eq_add_neg]

theorem cast_eq_iff_mod {a b : Nat} : (a : Fp) = b ↔ a % fieldPrime = b % fieldPrime :=
  ZMod.natCast_eq_natCast_iff' a b fieldPrime

theorem cast_eq_iff {a b : Nat} (ha : a < fieldPrime) (hb : b < fieldPrime) : (a : Fp) = b ↔ a = b := by
  rw [cast_eq_iff_mod, Nat.mod_eq_of_lt ha, Nat.mod_eq_of_lt hb]

/-- A canonical value equal to an integer in the field is that integer modulo `p`. -/
theorem eq_emod_of_cast {a : Nat} {z : Int} (ha : a < fieldPrime) (h : (a : Fp) = (z : Fp)) :
    (a : Int) = z % (2 ^ 255 - 19) := by
  have h' : ((a : Int) : Fp) = (z : Fp) := by simpa using h
  have hp : ((fieldPrime : Nat) : Int) = 2 ^ 255 - 19 := by decide +kernel
  have e := (ZMod.intCast_eq_intCast_iff' _ _ fieldPrime).1 h'
  rw [hp] at e
  rw [← e, Int.emod_eq_of_lt (by omega)]
  rw [← hp]; exact_mod_cast ha

theorem cast_eq_zero_iff {a : Nat} : (a : Fp) = 0 ↔ a % fieldPrime = 0 := by
  rw [show (0 : Fp) = ((0 : Nat) : Fp) by simp, cast_eq_iff_mod, Nat.zero_mod]

theorem fadd_lt (a b : Nat) : fadd a b < fieldPrime := Nat.mod_lt _ fieldPrime_pos

theorem fmul_lt (a b : Nat) : fmul a b < fieldPrime := Nat.mod_lt _ fieldPrime_pos

theorem fsub_lt (a b : Nat) : fsub a b < fieldPrime := Nat.mod_lt _ fieldPrime_pos

theorem fdiv_lt (a b : Nat) : fdiv a b < fieldPrime := fmul_lt _ _

theorem fieldValue_lt (v : FieldElement) : fieldValue v < fieldPrime := Nat.mod_lt _ fieldPrime_pos

/-- Two results of field operations are equal when their casts are. -/
theorem fmul_eq_fmul_iff {a b c e : Nat} : fmul a b = fmul c e ↔ (a : Fp) * b = c * e := by
  rw [← cast_eq_iff (fmul_lt _ _) (fmul_lt _ _), cast_fmul, cast_fmul]

theorem cast_fpow (fuel a e : Nat) (h : e < 2 ^ fuel) : ((fpow a fuel e : Nat) : Fp) = (a : Fp) ^ e := by
  induction fuel generalizing a e with
  | zero => obtain rfl : e = 0 := by simpa using h
            simp [fpow]
  | succ n ih =>
    have hh : e / 2 < 2 ^ n := by rw [pow_succ] at h; omega
    have key := ih (fmul a a) (e / 2) hh
    unfold fpow
    split_ifs with h0 h1
    · simp [h0]
    · rw [cast_fmul, key, cast_fmul]
      conv_rhs => rw [← Nat.div_add_mod e 2, h1, pow_add, pow_mul, pow_one, sq]
    · have h2 : e % 2 = 0 := by omega
      rw [key, cast_fmul]
      conv_rhs => rw [← Nat.div_add_mod e 2, h2, pow_add, pow_mul, pow_zero, mul_one, sq]

@[simp] theorem cast_finv [Fact (Nat.Prime fieldPrime)] (a : Nat) : ((finv a : Nat) : Fp) = (a : Fp)⁻¹ := by
  rw [finv, cast_fpow _ _ _ (by decide +kernel)]
  by_cases h : (a : Fp) = 0
  · rw [h, inv_zero, zero_pow (by decide +kernel)]
  · refine eq_inv_of_mul_eq_one_left ?_
    rw [← pow_succ, show fieldPrime - 2 + 1 = fieldPrime - 1 by decide +kernel]
    exact ZMod.pow_card_sub_one_eq_one h

@[simp] theorem cast_fdiv [Fact (Nat.Prime fieldPrime)] (a b : Nat) : ((fdiv a b : Nat) : Fp) = a / b := by
  rw [fdiv, cast_fmul, cast_finv, div_eq_mul_inv]

/-! ## The constants -/

theorem curveD_lt : curveD < fieldPrime := by decide +kernel

/-- `d = -121665/121666` (rule R11). -/
theorem curveD_definition : fmul curveD 121666 = fsub 0 121665 := by decide +kernel

theorem curve2D_definition : curve2D = fadd curveD curveD := by decide +kernel

@[simp] theorem cast_curve2D : ((curve2D : Nat) : Fp) = 2 * curveD := by
  rw [curve2D_definition, cast_fadd, two_mul]

/-- `d` is not a square in `GF(p)` (rule R133 rests on it; Euler's criterion). -/
theorem curveD_not_square [Fact (Nat.Prime fieldPrime)] : ¬ IsSquare ((curveD : Nat) : Fp) := by
  have h0 : ((curveD : Nat) : Fp) ≠ 0 := by
    rw [Ne, cast_eq_zero_iff]; decide +kernel
  rw [ZMod.euler_criterion _ h0, ← cast_fpow 255 curveD _ (by decide +kernel),
    show (1 : Fp) = ((1 : Nat) : Fp) by simp, cast_eq_iff_mod]
  decide +kernel

/-- `sqrt(-1)` of rule R134. -/
def sqrtMinusOne : Nat := 0x2b8324804fc1df0b2b4d00993dfbd7a72f431806ad2fe478c4ee1b274a0ea0b0

theorem minus_one_square : IsSquare (-1 : Fp) := by
  refine ⟨(sqrtMinusOne : Nat), ?_⟩
  have h : fmul sqrtMinusOne sqrtMinusOne = fsub 0 1 := by decide +kernel
  have := congrArg (Nat.cast : Nat → Fp) h
  simpa using this.symm

theorem basePoint_onCurve : basePoint.onCurve = true := by decide +kernel

/-- `y_B = 4/5` (rule R16). -/
theorem basePoint_y : fmul 5 basePoint.y = 4 := by decide +kernel

theorem montRadix_eq : montRadix = 2 ^ 260 := by decide +kernel

/-- `NL = -L^(-1) mod 2^260` (rule R156). -/
theorem montNL_definition : montNL * groupOrder % montRadix = montRadix - 1 := by decide +kernel

/-- `LFACTOR = -L^(-1) mod 2^52` (rule R15). -/
theorem lFactor_definition : lFactor * groupOrder % 2 ^ 52 = 2 ^ 52 - 1 := by decide +kernel

/-- `R^(-1)` is the inverse of `R` modulo `L` (rule R15). -/
theorem montRInv_definition : montRInv * montR % groupOrder = 1 := by decide +kernel

end Sys2Proof.Laws
end

