-- ==== Sys2Proof/Laws/CurveGroup.lean ====
section
/-! SUPPORT. The points of the curve of 00_scope.md rule R11 are a commutative group under the law of rule R12, and the
machine's `Affine.add`, `Affine.neg` and `mulPoint` are its operations. -/

namespace Sys2Proof.Laws

open Sys2Proof.Machine

/-- A point of the curve over `GF(p)`. -/
@[ext] structure CurvePoint where
  x : Fp
  y : Fp
  on : Edwards.On ((curveD : Nat) : Fp) x y

section
variable [Fact (Nat.Prime fieldPrime)]

/-- The sum of rule R12. -/
def CurvePoint.sum (P Q : CurvePoint) : CurvePoint :=
  ⟨Edwards.sumX ((curveD : Nat) : Fp) P.x P.y Q.x Q.y, Edwards.sumY ((curveD : Nat) : Fp) P.x P.y Q.x Q.y,
    Edwards.sum_on curveD_not_square minus_one_square P.on Q.on⟩

/-- The identity `(0, 1)`. -/
def CurvePoint.zero : CurvePoint := ⟨0, 1, by simp [Edwards.On]⟩

/-- The negative `(-x, y)`. -/
def CurvePoint.negative (P : CurvePoint) : CurvePoint := ⟨-P.x, P.y, Edwards.neg_on P.on⟩

theorem CurvePoint.sum_comm (P Q : CurvePoint) : P.sum Q = Q.sum P :=
  CurvePoint.ext Edwards.sumX_comm Edwards.sumY_comm

theorem CurvePoint.sum_zero (P : CurvePoint) : P.sum CurvePoint.zero = P :=
  CurvePoint.ext Edwards.sumX_zero Edwards.sumY_zero

theorem CurvePoint.sum_assoc (P Q S : CurvePoint) : (P.sum Q).sum S = P.sum (Q.sum S) :=
  CurvePoint.ext (Edwards.sumX_assoc curveD_not_square minus_one_square P.on Q.on S.on)
    (Edwards.sumY_assoc curveD_not_square minus_one_square P.on Q.on S.on)

theorem CurvePoint.sum_negative (P : CurvePoint) : P.sum P.negative = CurvePoint.zero :=
  CurvePoint.ext Edwards.sumX_neg (Edwards.sumY_neg curveD_not_square minus_one_square P.on)

/-- The group of the curve.  Bring it into a proof with `letI := curveGroup`. -/
@[reducible] def curveGroup : AddCommGroup CurvePoint where
  add := CurvePoint.sum
  zero := CurvePoint.zero
  neg := CurvePoint.negative
  add_assoc := CurvePoint.sum_assoc
  zero_add P := (CurvePoint.sum_comm _ _).trans (CurvePoint.sum_zero P)
  add_zero := CurvePoint.sum_zero
  neg_add_cancel P := (CurvePoint.sum_comm _ _).trans (CurvePoint.sum_negative P)
  add_comm := CurvePoint.sum_comm
  nsmul := @nsmulRec _ ⟨CurvePoint.zero⟩ ⟨CurvePoint.sum⟩
  zsmul := @zsmulRec _ ⟨CurvePoint.zero⟩ ⟨CurvePoint.sum⟩ ⟨CurvePoint.negative⟩ (@nsmulRec _ ⟨CurvePoint.zero⟩ ⟨CurvePoint.sum⟩)

end

/-! ## Affine points of the machine -/

/-- A canonical affine point: on the curve, both coordinates below `p`. -/
structure Good (P : Affine) : Prop where
  x_lt : P.x < fieldPrime
  y_lt : P.y < fieldPrime
  on : P.onCurve = true

theorem onCurve_iff (P : Affine) :
    P.onCurve = true ↔ Edwards.On ((curveD : Nat) : Fp) (P.x : Fp) (P.y : Fp) := by
  unfold Affine.onCurve Edwards.On
  rw [beq_iff_eq, ← cast_eq_iff (fsub_lt _ _) (fadd_lt _ _)]
  simp only [cast_fsub, cast_fmul, cast_fadd, Nat.cast_one]
  constructor <;> intro h <;> linear_combination h

theorem good_basePoint : Good basePoint := ⟨by decide +kernel, by decide +kernel, basePoint_onCurve⟩

theorem good_zero : Good Affine.zero := ⟨by decide +kernel, by decide +kernel, by decide +kernel⟩

/-- The curve point of a good affine point. -/
def Good.point {P : Affine} (h : Good P) : CurvePoint := ⟨P.x, P.y, (onCurve_iff P).1 h.on⟩

/-- Good affine points are determined by their curve points. -/
theorem Good.point_inj {P Q : Affine} (hP : Good P) (hQ : Good Q) (h : hP.point = hQ.point) : P = Q := by
  have hx := (cast_eq_iff hP.x_lt hQ.x_lt).1 (congrArg CurvePoint.x h)
  have hy := (cast_eq_iff hP.y_lt hQ.y_lt).1 (congrArg CurvePoint.y h)
  cases P; cases Q; simp_all

section
variable [Fact (Nat.Prime fieldPrime)]

theorem cast_add_x (P Q : Affine) :
    (((Affine.add P Q).x : Nat) : Fp) = Edwards.sumX ((curveD : Nat) : Fp) P.x P.y Q.x Q.y := by
  simp only [Affine.add, cast_fdiv, cast_fadd, cast_fmul, Nat.cast_one, Edwards.sumX, Edwards.cross]
  congr 2; ring

theorem cast_add_y (P Q : Affine) :
    (((Affine.add P Q).y : Nat) : Fp) = Edwards.sumY ((curveD : Nat) : Fp) P.x P.y Q.x Q.y := by
  simp only [Affine.add, cast_fdiv, cast_fadd, cast_fsub, cast_fmul, Nat.cast_one, Edwards.sumY, Edwards.cross]
  congr 2; ring

theorem good_add_aux {P Q : Affine} (hP : Good P) (hQ : Good Q) : Good (Affine.add P Q) where
  x_lt := fdiv_lt _ _
  y_lt := fdiv_lt _ _
  on := by
    rw [onCurve_iff, cast_add_x, cast_add_y]
    exact (hP.point.sum hQ.point).on

theorem point_add {P Q : Affine} (hP : Good P) (hQ : Good Q) :
    (good_add_aux hP hQ).point = hP.point.sum hQ.point :=
  CurvePoint.ext (cast_add_x P Q) (cast_add_y P Q)

end

/-- The sum of good points is good: the law is complete and closed (rule R12). -/
theorem good_add {P Q : Affine} (hP : Good P) (hQ : Good Q) : Good (Affine.add P Q) :=
  haveI := fact_fieldPrime; good_add_aux hP hQ

theorem good_neg {P : Affine} (hP : Good P) : Good P.neg where
  x_lt := fsub_lt _ _
  y_lt := hP.y_lt
  on := by
    have := fact_fieldPrime
    rw [onCurve_iff]
    have := Edwards.neg_on ((onCurve_iff P).1 hP.on)
    simpa [Affine.neg] using this

theorem good_mulPoint {P : Affine} (hP : Good P) (k : Nat) : Good (mulPoint k P) := by
  induction k with
  | zero => exact good_zero
  | succ n ih => exact good_add ih hP

theorem add_comm_good {P Q : Affine} (hP : Good P) (hQ : Good Q) : Affine.add P Q = Affine.add Q P := by
  have := fact_fieldPrime
  exact (good_add hP hQ).point_inj (good_add hQ hP)
    ((point_add hP hQ).trans ((CurvePoint.sum_comm _ _).trans (point_add hQ hP).symm))

theorem add_assoc_good {P Q S : Affine} (hP : Good P) (hQ : Good Q) (hS : Good S) :
    Affine.add (Affine.add P Q) S = Affine.add P (Affine.add Q S) := by
  have := fact_fieldPrime
  refine (good_add (good_add hP hQ) hS).point_inj (good_add hP (good_add hQ hS)) ?_
  rw [point_add (good_add hP hQ) hS, point_add hP (good_add hQ hS), point_add hP hQ, point_add hQ hS,
    CurvePoint.sum_assoc]

theorem add_zero_good {P : Affine} (hP : Good P) : Affine.add P Affine.zero = P := by
  have := fact_fieldPrime
  refine (good_add hP good_zero).point_inj hP ?_
  rw [point_add hP good_zero]
  exact CurvePoint.ext (by simp [CurvePoint.sum, Good.point, Affine.zero, Edwards.sumX_zero])
    (by simp [CurvePoint.sum, Good.point, Affine.zero, Edwards.sumY_zero])

theorem zero_add_good {P : Affine} (hP : Good P) : Affine.add Affine.zero P = P :=
  (add_comm_good good_zero hP).trans (add_zero_good hP)

theorem add_neg_good {P : Affine} (hP : Good P) : Affine.add P P.neg = Affine.zero := by
  have := fact_fieldPrime
  refine (good_add hP (good_neg hP)).point_inj good_zero ?_
  rw [point_add hP (good_neg hP)]
  have h := CurvePoint.sum_negative hP.point
  refine (CurvePoint.ext ?_ ?_ : _ = _)
  · have := congrArg CurvePoint.x h
    simpa [CurvePoint.sum, CurvePoint.negative, CurvePoint.zero, Good.point, Affine.neg, Affine.zero] using this
  · have := congrArg CurvePoint.y h
    simpa [CurvePoint.sum, CurvePoint.negative, CurvePoint.zero, Good.point, Affine.neg, Affine.zero] using this

/-! ## Multiples -/

theorem mulPoint_add_scalars {P : Affine} (hP : Good P) (m n : Nat) :
    mulPoint (m + n) P = Affine.add (mulPoint m P) (mulPoint n P) := by
  induction n with
  | zero => exact (add_zero_good (good_mulPoint hP m)).symm
  | succ n ih =>
    rw [← Nat.add_assoc, mulPoint, ih, mulPoint,
      add_assoc_good (good_mulPoint hP m) (good_mulPoint hP n) hP]

theorem mulPoint_mul {P : Affine} (hP : Good P) (m n : Nat) :
    mulPoint (m * n) P = mulPoint m (mulPoint n P) := by
  induction m with
  | zero => rw [Nat.zero_mul]; rfl
  | succ m ih => rw [Nat.succ_mul, mulPoint_add_scalars hP, ih, mulPoint]

theorem mulPoint_zero_point (k : Nat) : mulPoint k Affine.zero = Affine.zero := by
  induction k with
  | zero => rfl
  | succ k ih => rw [mulPoint, ih, add_zero_good good_zero]

theorem mulPoint_one {P : Affine} (hP : Good P) : mulPoint 1 P = P := zero_add_good hP

theorem mulPoint_add_points {P Q : Affine} (hP : Good P) (hQ : Good Q) (k : Nat) :
    mulPoint k (Affine.add P Q) = Affine.add (mulPoint k P) (mulPoint k Q) := by
  induction k with
  | zero => exact (add_zero_good good_zero).symm
  | succ k ih =>
    have hp := good_mulPoint hP k
    have hq := good_mulPoint hQ k
    rw [mulPoint, ih, mulPoint, mulPoint, add_assoc_good hp hq (good_add hP hQ),
      add_assoc_good hp hP (good_add hq hQ), ← add_assoc_good hq hP hQ, add_comm_good hq hP,
      add_assoc_good hP hq hQ]

/-- `[k]P` in the curve group. -/
theorem point_mulPoint [Fact (Nat.Prime fieldPrime)] {P : Affine} (hP : Good P) (k : Nat) :
    letI := curveGroup
    (good_mulPoint hP k).point = k • hP.point := by
  let := curveGroup
  induction k with
  | zero =>
    show _ = (0 : Nat) • _
    rw [zero_nsmul]
    exact CurvePoint.ext (by simp [Good.point, mulPoint, Affine.zero]; rfl)
      (by simp [Good.point, mulPoint, Affine.zero]; rfl)
  | succ k ih =>
    rw [succ_nsmul, ← ih]
    exact point_add (good_mulPoint hP k) hP

/-! ## The fast multiple -/

theorem mulPoint_eq_bits {P : Affine} (hP : Good P) (fuel k : Nat) (h : k < 2 ^ fuel) :
    mulPoint k P = mulPointBits fuel k P := by
  induction fuel generalizing k P with
  | zero => obtain rfl : k = 0 := by simpa using h
            rfl
  | succ n ih =>
    have hh : k / 2 < 2 ^ n := by rw [pow_succ] at h; omega
    have h2 : mulPoint (2 * (k / 2)) P = mulPointBits n (k / 2) (Affine.add P P) := by
      rw [← ih (good_add hP hP) _ hh, mulPoint_add_points hP hP, two_mul, mulPoint_add_scalars hP]
    unfold mulPointBits
    split_ifs with h0 h1
    · rw [h0]; rfl
    · rw [← h2]
      conv_lhs => rw [← Nat.div_add_mod k 2, h1]
      rfl
    · have h3 : k % 2 = 0 := by omega
      rw [← h2]
      conv_lhs => rw [← Nat.div_add_mod k 2, h3]
      rfl

/-- The machine's `[k]P` is rule R12's. -/
theorem scalarMul_eq {P : Affine} (hP : Good P) {k : Nat} (h : k < 2 ^ 256) : scalarMul k P = mulPoint k P :=
  (mulPoint_eq_bits hP 256 k h).symm

end Sys2Proof.Laws
end

