-- ==== Sys2Proof/Laws/Decode.lean ====
section
/-! SUPPORT. The fields of an assembled word, and the assembly of a word's fields (30_encoding.md rule R91). -/

namespace Sys2Proof.Laws

section
variable (op : BitVec 4) (rd ra rb rc : BitVec 5) (fn : BitVec 8)

@[simp] theorem assemble_op : CommandWord.op (assemble op rd ra rb rc fn) = op := by
  ext i hi
  simp only [CommandWord.op, assemble, BitVec.getElem_extractLsb', BitVec.getLsbD_append]
  rw [if_neg (by omega), if_neg (by omega), if_neg (by omega), if_neg (by omega), if_neg (by omega),
    ← BitVec.getLsbD_eq_getElem]
  congr 1; omega

@[simp] theorem assemble_rd : CommandWord.rd (assemble op rd ra rb rc fn) = rd := by
  ext i hi
  simp only [CommandWord.rd, assemble, BitVec.getElem_extractLsb', BitVec.getLsbD_append]
  rw [if_neg (by omega), if_neg (by omega), if_neg (by omega), if_neg (by omega), if_pos (by omega),
    ← BitVec.getLsbD_eq_getElem]
  congr 1; omega

@[simp] theorem assemble_ra : CommandWord.ra (assemble op rd ra rb rc fn) = ra := by
  ext i hi
  simp only [CommandWord.ra, assemble, BitVec.getElem_extractLsb', BitVec.getLsbD_append]
  rw [if_neg (by omega), if_neg (by omega), if_neg (by omega), if_pos (by omega), ← BitVec.getLsbD_eq_getElem]
  congr 1; omega

@[simp] theorem assemble_rb : CommandWord.rb (assemble op rd ra rb rc fn) = rb := by
  ext i hi
  simp only [CommandWord.rb, assemble, BitVec.getElem_extractLsb', BitVec.getLsbD_append]
  rw [if_neg (by omega), if_neg (by omega), if_pos (by omega), ← BitVec.getLsbD_eq_getElem]
  congr 1; omega

@[simp] theorem assemble_rc : CommandWord.rc (assemble op rd ra rb rc fn) = rc := by
  ext i hi
  simp only [CommandWord.rc, assemble, BitVec.getElem_extractLsb', BitVec.getLsbD_append]
  rw [if_neg (by omega), if_pos (by omega), ← BitVec.getLsbD_eq_getElem]
  congr 1; omega

@[simp] theorem assemble_fn : CommandWord.fn (assemble op rd ra rb rc fn) = fn := by
  ext i hi
  simp only [CommandWord.fn, assemble, BitVec.getElem_extractLsb', BitVec.getLsbD_append]
  rw [if_pos (by omega), ← BitVec.getLsbD_eq_getElem]
  congr 1; omega

end

/-- A word is the assembly of its fields: the six fields are all of it. -/
theorem assemble_fields (w : CommandWord) :
    assemble (CommandWord.op w) (CommandWord.rd w) (CommandWord.ra w) (CommandWord.rb w) (CommandWord.rc w)
      (CommandWord.fn w) = w := by
  apply BitVec.eq_of_getLsbD_eq
  intro i hi
  simp only [assemble, CommandWord.op, CommandWord.rd, CommandWord.ra, CommandWord.rb, CommandWord.rc,
    CommandWord.fn, BitVec.getLsbD_append, BitVec.getLsbD_extractLsb']
  interval_cases i <;> simp

@[simp] theorem indexField_toNat {n : Nat} (i : Fin n) (h : n ≤ 32) : (indexField i).toNat = i.val := by
  rw [indexField, BitVec.toNat_ofNat]
  exact Nat.mod_eq_of_lt (by omega)

@[simp] theorem withIndex8_indexField (i : Fin 8) (k : Fin 8 → Decoded) :
    withIndex8 (indexField i) k = k i := by
  have h := indexField_toNat i (by norm_num)
  simp [withIndex8, h]

@[simp] theorem fieldIndex_indexField (i : FieldReg) : fieldIndex (indexField i) = i :=
  Fin.ext (indexField_toNat i (by norm_num))

@[simp] theorem indexField_fieldIndex (x : BitVec 5) : indexField (fieldIndex x) = x :=
  BitVec.eq_of_toNat_eq (indexField_toNat _ (by norm_num))

/-- What `withIndex8` needs to give a command: the index is in range (rule R97(a)). -/
theorem withIndex8_command {x : BitVec 5} {k : Fin 8 → Decoded} {i : Instr}
    (h : withIndex8 x k = .command i) : ∃ j : Fin 8, indexField j = x ∧ k j = .command i := by
  unfold withIndex8 at h
  split_ifs at h with hx
  exact ⟨_, BitVec.eq_of_toNat_eq (indexField_toNat _ (by norm_num)), h⟩

/-- What `requireZero` needs to give a command: the field is zero (rule R98). -/
theorem requireZero_command {n : Nat} {x : BitVec n} {k : Decoded} {i : Instr}
    (h : requireZero x k = .command i) : x = 0 ∧ k = .command i := by
  unfold requireZero at h
  split_ifs at h with hx
  exact ⟨hx, h⟩

@[simp] theorem requireZero_zero {n : Nat} (k : Decoded) : requireZero (0 : BitVec n) k = k := if_pos rfl

end Sys2Proof.Laws
end

