-- ==== Sys2Proof/Laws/State.lean ====
section
/-! SUPPORT. One lemma per field of the state and update, and what a register holds after each register write
(10_state.md rules R30 to R35). -/

namespace Sys2Proof.Laws

open Sys2Proof.Machine

variable (s : State)

/-! ## Fields after updates -/

@[simp] theorem writeField_f (i : FieldReg) (v : FieldElement) : (s.writeField i v).f = s.f.set i.val v := rfl
@[simp] theorem writeField_s (i : FieldReg) (v : FieldElement) : (s.writeField i v).s = s.s := rfl
@[simp] theorem writeField_fault (i : FieldReg) (v : FieldElement) : (s.writeField i v).fault = s.fault := rfl
@[simp] theorem writeField_cause (i : FieldReg) (v : FieldElement) : (s.writeField i v).cause = s.cause := rfl
@[simp] theorem writeField_fcmd (i : FieldReg) (v : FieldElement) : (s.writeField i v).fcmd = s.fcmd := rfl
@[simp] theorem writeField_host (i : FieldReg) (v : FieldElement) : (s.writeField i v).host = s.host := rfl
@[simp] theorem writeField_replies (i : FieldReg) (v : FieldElement) : (s.writeField i v).replies = s.replies := rfl
@[simp] theorem writeField_draws (i : FieldReg) (v : FieldElement) : (s.writeField i v).draws = s.draws := rfl

@[simp] theorem drawn_f : s.drawn.f = s.f := rfl
@[simp] theorem drawn_s : s.drawn.s = s.s := rfl
@[simp] theorem drawn_fault : s.drawn.fault = s.fault := rfl
@[simp] theorem drawn_cause : s.drawn.cause = s.cause := rfl
@[simp] theorem drawn_fcmd : s.drawn.fcmd = s.fcmd := rfl
@[simp] theorem drawn_host : s.drawn.host = s.host := rfl
@[simp] theorem drawn_replies : s.drawn.replies = s.replies := rfl
@[simp] theorem drawn_draws : s.drawn.draws = s.draws + 1 := rfl

@[simp] theorem raised_f (c : Cause) (w : CommandWord) : (s.raised c w).f = s.f := rfl
@[simp] theorem raised_s (c : Cause) (w : CommandWord) : (s.raised c w).s = s.s := rfl
@[simp] theorem raised_fault (c : Cause) (w : CommandWord) : (s.raised c w).fault = 1 := rfl
@[simp] theorem raised_cause (c : Cause) (w : CommandWord) : (s.raised c w).cause = c.code := rfl
@[simp] theorem raised_fcmd (c : Cause) (w : CommandWord) : (s.raised c w).fcmd = w := rfl
@[simp] theorem raised_host (c : Cause) (w : CommandWord) : (s.raised c w).host = s.host := rfl
@[simp] theorem raised_replies (c : Cause) (w : CommandWord) : (s.raised c w).replies = s.replies := rfl
@[simp] theorem raised_draws (c : Cause) (w : CommandWord) : (s.raised c w).draws = s.draws := rfl

@[simp] theorem resetInput_f : s.resetInput.f = Config.resetFieldFile s.draws := rfl
@[simp] theorem resetInput_s : s.resetInput.s = Config.resetScalarFile s.draws := rfl
@[simp] theorem resetInput_fault : s.resetInput.fault = 0 := rfl
@[simp] theorem resetInput_cause : s.resetInput.cause = 0 := rfl
@[simp] theorem resetInput_fcmd : s.resetInput.fcmd = 0 := rfl
@[simp] theorem resetInput_host : s.resetInput.host = s.host := rfl
@[simp] theorem resetInput_replies : s.resetInput.replies = s.replies := rfl
@[simp] theorem resetInput_draws : s.resetInput.draws = s.draws + 1 := rfl

@[simp] theorem reply_f (v : HostWord) : (s.reply v).f = s.f := rfl
@[simp] theorem reply_s (v : HostWord) : (s.reply v).s = s.s := rfl
@[simp] theorem reply_fault (v : HostWord) : (s.reply v).fault = s.fault := rfl
@[simp] theorem reply_cause (v : HostWord) : (s.reply v).cause = s.cause := rfl
@[simp] theorem reply_fcmd (v : HostWord) : (s.reply v).fcmd = s.fcmd := rfl
@[simp] theorem reply_host (v : HostWord) : (s.reply v).host = s.host := rfl
@[simp] theorem reply_replies (v : HostWord) : (s.reply v).replies = s.replies ++ [v] := rfl
@[simp] theorem reply_draws (v : HostWord) : (s.reply v).draws = s.draws := rfl

@[simp] theorem writePoint_s (i : PointReg) (t : PointLimbs) : (s.writePoint i t).s = s.s := rfl
@[simp] theorem writePoint_fault (i : PointReg) (t : PointLimbs) : (s.writePoint i t).fault = s.fault := rfl
@[simp] theorem writePoint_cause (i : PointReg) (t : PointLimbs) : (s.writePoint i t).cause = s.cause := rfl
@[simp] theorem writePoint_fcmd (i : PointReg) (t : PointLimbs) : (s.writePoint i t).fcmd = s.fcmd := rfl
@[simp] theorem writePoint_host (i : PointReg) (t : PointLimbs) : (s.writePoint i t).host = s.host := rfl
@[simp] theorem writePoint_replies (i : PointReg) (t : PointLimbs) : (s.writePoint i t).replies = s.replies := rfl
@[simp] theorem writePoint_draws (i : PointReg) (t : PointLimbs) : (s.writePoint i t).draws = s.draws := rfl

@[simp] theorem writeScalar_f (i : ScalarReg) (v : UnpackedScalar) : (s.writeScalar i v).f = s.f := by
  unfold State.writeScalar; split <;> rfl
@[simp] theorem writeScalar_fault (i : ScalarReg) (v : UnpackedScalar) : (s.writeScalar i v).fault = s.fault := by
  unfold State.writeScalar; split <;> rfl
@[simp] theorem writeScalar_cause (i : ScalarReg) (v : UnpackedScalar) : (s.writeScalar i v).cause = s.cause := by
  unfold State.writeScalar; split <;> rfl
@[simp] theorem writeScalar_fcmd (i : ScalarReg) (v : UnpackedScalar) : (s.writeScalar i v).fcmd = s.fcmd := by
  unfold State.writeScalar; split <;> rfl
@[simp] theorem writeScalar_host (i : ScalarReg) (v : UnpackedScalar) : (s.writeScalar i v).host = s.host := by
  unfold State.writeScalar; split <;> rfl
@[simp] theorem writeScalar_replies (i : ScalarReg) (v : UnpackedScalar) : (s.writeScalar i v).replies = s.replies := by
  unfold State.writeScalar; split <;> rfl
@[simp] theorem writeScalar_draws (i : ScalarReg) (v : UnpackedScalar) : (s.writeScalar i v).draws = s.draws := by
  unfold State.writeScalar; split <;> rfl

/-! ## Register contents after writes -/

@[simp] theorem writeField_same (i : FieldReg) (v : FieldElement) : (s.writeField i v).f[i] = v := by
  simp [State.writeField]

theorem writeField_other {i j : FieldReg} (v : FieldElement) (h : j ≠ i) : (s.writeField i v).f[j] = s.f[j] := by
  have : i.val ≠ j.val := fun e => h (Fin.ext e.symm)
  simp [State.writeField, this]

theorem slot_val (i : PointReg) (k : Fin 4) : (slot i k).val = 4 * i.val + k.val := rfl

/-- Different slots are different field registers (rules R31, R241). -/
theorem slot_inj {i j : PointReg} {k l : Fin 4} : slot i k = slot j l ↔ i = j ∧ k = l := by
  rw [Fin.ext_iff, slot_val, slot_val, Fin.ext_iff, Fin.ext_iff]
  omega

/-- Every field register is a slot of one point register (rule R31). -/
theorem exists_slot (r : FieldReg) : ∃ i k, r = slot i k :=
  ⟨⟨r.val / 4, by omega⟩, ⟨r.val % 4, by omega⟩, Fin.ext (by simp [slot_val]; omega)⟩

/-- A point write puts the four limb vectors into the four slots (rule R31). -/
theorem writePoint_same (i : PointReg) (t : PointLimbs) (k : Fin 4) : (s.writePoint i t).f[slot i k] = t[k] := by
  fin_cases k <;> simp [State.writePoint, State.writeField, slot]

/-- A point write leaves every field register outside its four slots alone (rule R241). -/
theorem writePoint_other (i : PointReg) (t : PointLimbs) {r : FieldReg} (h : ∀ k, r ≠ slot i k) :
    (s.writePoint i t).f[r] = s.f[r] := by
  have h0 := h 0; have h1 := h 1; have h2 := h 2; have h3 := h 3
  unfold State.writePoint
  rw [writeField_other _ _ h3, writeField_other _ _ h2, writeField_other _ _ h1, writeField_other _ _ h0]

theorem readScalar_general {i : ScalarReg} (h : i.val < 6) : s.readScalar i = s.s[i.val] := by
  simp [State.readScalar, h]

/-- `s[6]` and `s[7]` are hardwired in every state (rule R34). -/
@[simp] theorem readScalar_sR : s.readScalar sR = limbs52 montR := by simp [State.readScalar, sR]

@[simp] theorem readScalar_sRR : s.readScalar sRR = limbs52 montRR := by simp [State.readScalar, sRR]

theorem writeScalar_same {i : ScalarReg} (v : UnpackedScalar) (h : i.val < 6) :
    (s.writeScalar i v).readScalar i = v := by
  simp [State.readScalar, State.writeScalar, h]

theorem writeScalar_other {i j : ScalarReg} (v : UnpackedScalar) (h : j ≠ i) :
    (s.writeScalar i v).readScalar j = s.readScalar j := by
  have : i.val ≠ j.val := fun e => h (Fin.ext e.symm)
  unfold State.readScalar State.writeScalar
  split_ifs <;> simp_all

/-- Nothing is stored for a hardwired register (rule R34). -/
theorem writeScalar_hardwired {i : ScalarReg} (v : UnpackedScalar) (h : ¬ i.val < 6) : s.writeScalar i v = s := by
  simp [State.writeScalar, h]

@[simp] theorem writeField_readScalar (i : FieldReg) (v : FieldElement) (j : ScalarReg) :
    (s.writeField i v).readScalar j = s.readScalar j := rfl

@[simp] theorem writePoint_readScalar (i : PointReg) (t : PointLimbs) (j : ScalarReg) :
    (s.writePoint i t).readScalar j = s.readScalar j := rfl

@[simp] theorem drawn_readScalar (j : ScalarReg) : s.drawn.readScalar j = s.readScalar j := rfl

@[simp] theorem raised_readScalar (c : Cause) (w : CommandWord) (j : ScalarReg) :
    (s.raised c w).readScalar j = s.readScalar j := rfl

@[simp] theorem reply_readScalar (v : HostWord) (j : ScalarReg) : (s.reply v).readScalar j = s.readScalar j := rfl

end Sys2Proof.Laws
end

