-- ==== Sys2Proof/Laws/Window.lean ====
section
/-! SUPPORT. The host window: its layout (20_memory.md rule R61), what reads and writes do (rules R64 to R69), and what register
writes change in it. -/

namespace Sys2Proof.Laws

open Sys2Proof.Machine

/-! ## Layout -/

@[simp] theorem locate_cmd : locate 0x000 = .cmd := by decide

@[simp] theorem locate_status : locate 0x008 = .status := by decide

@[simp] theorem locate_fcmd : locate 0x010 = .fcmd := by decide

theorem scalarOffset_admitted (i : ScalarReg) (j : Fin 5) :
    scalarOffset i j < Config.windowSize ∧ scalarOffset i j % 8 = 0 := by
  unfold scalarOffset Config.windowSize; omega

theorem fieldOffset_admitted (i : FieldReg) (j : Fin 5) :
    fieldOffset i j < Config.windowSize ∧ fieldOffset i j % 8 = 0 := by
  unfold fieldOffset Config.windowSize; omega

@[simp] theorem locate_scalarOffset (i : ScalarReg) (j : Fin 5) : locate (scalarOffset i j) = .scalar i j := by
  have hi := i.isLt; have hj := j.isLt
  unfold locate scalarOffset
  rw [if_neg (by omega), if_neg (by omega), if_neg (by omega), dif_pos (by omega), dif_pos (by omega)]
  congr 1 <;> apply Fin.ext <;> simp only <;> omega

@[simp] theorem locate_fieldOffset (i : FieldReg) (j : Fin 5) : locate (fieldOffset i j) = .field i j := by
  have hi := i.isLt; have hj := j.isLt
  unfold locate fieldOffset
  rw [if_neg (by omega), if_neg (by omega), if_neg (by omega), dif_neg (by omega), dif_pos (by omega),
    dif_pos (by omega)]
  congr 1 <;> apply Fin.ext <;> simp only <;> omega

/-- Every byte offset lies in the word of its location (rule R61). -/
theorem offset_locate {a : Nat} {n : Nat} (h : (locate a).offset? = some n) : n = a / 8 * 8 := by
  unfold locate at h
  split_ifs at h <;> simp only [Location.offset?, Option.some.injEq, reduceCtorEq] at h <;> omega

theorem locate_eq_scalar {a : Nat} {i : ScalarReg} {j : Fin 5} (h : locate a = .scalar i j) :
    scalarOffset i j = a / 8 * 8 := offset_locate (by rw [h]; rfl)

theorem locate_eq_field {a : Nat} {i : FieldReg} {j : Fin 5} (h : locate a = .field i j) :
    fieldOffset i j = a / 8 * 8 := offset_locate (by rw [h]; rfl)

/-! ## Accesses -/

/-- A 64-bit access at a multiple of 8 inside the window goes to its location (rule R66). -/
theorem withLocation_admitted {a : Nat} {k : Location → Host.Outcome State Fault Refusal}
    (h : a < Config.windowSize ∧ a % 8 = 0) : withLocation a 8 k = k (locate a) := by
  unfold withLocation
  rw [if_neg (by simp), if_neg (by omega), if_neg (by omega)]

theorem memRead_admitted (s : State) {a : Nat} (h : a < Config.windowSize ∧ a % 8 = 0) :
    memRead a 8 s = s.readLocation (locate a) := withLocation_admitted h

theorem memWrite_admitted (s : State) {a : Nat} (v : HostWord) (h : a < Config.windowSize ∧ a % 8 = 0) :
    memWrite a 8 v s = writeLocation (locate a) v s := withLocation_admitted h

/-- A write anywhere but to `CMD` only stores (rule R65). -/
theorem writeLocation_poke (s : State) {l : Location} (v : HostWord) (h : l ≠ .cmd) (hr : l ≠ .reserved) :
    writeLocation l v s = .next (s.poke l v) := by
  cases l <;> first | exact absurd rfl h | exact absurd rfl hr | rfl

/-- Exactly the reserved offsets have no value (rule R69). -/
theorem peek_eq_none (s : State) {l : Location} : s.peek l = none ↔ l = .reserved := by
  cases l <;> simp [State.peek]

theorem readLocation_peek (s : State) {l : Location} {v : HostWord} (h : s.peek l = some v) :
    s.readLocation l = .next (s.reply v) := by
  simp [State.readLocation, h]

@[simp] theorem readLocation_reserved (s : State) : s.readLocation .reserved = .refused .reservedOffset := rfl

@[simp] theorem writeLocation_reserved (s : State) (v : HostWord) :
    writeLocation .reserved v s = .refused .reservedOffset := rfl

/-- A read that completes returns the location's value and changes nothing but what the host has read (rules R64, R71). -/
theorem readLocation_next {s t : State} {l : Location} (h : s.readLocation l = .next t) :
    ∃ v, s.peek l = some v ∧ t = s.reply v := by
  cases hp : s.peek l with
  | some v => rw [readLocation_peek s hp] at h; injection h with h; exact ⟨v, rfl, h.symm⟩
  | none => rw [(peek_eq_none s).1 hp, readLocation_reserved] at h; cases h

/-- A write that completes runs a command or stores at a location that is not reserved (rules R65, R69). -/
theorem writeLocation_next {s t : State} {l : Location} {v : HostWord} (h : writeLocation l v s = .next t) :
    (l = .cmd ∧ issue (commandWord v) s = .next t) ∨ (l ≠ .cmd ∧ l ≠ .reserved ∧ t = s.poke l v) := by
  by_cases hc : l = .cmd
  · subst hc; exact .inl ⟨rfl, h⟩
  · by_cases hr : l = .reserved
    · rw [hr, writeLocation_reserved] at h; cases h
    · rw [writeLocation_poke s v hc hr] at h; injection h with h; exact .inr ⟨hc, hr, h.symm⟩

/-- A store leaves the control state and the model's own fields alone (rule R65). -/
theorem poke_control (s : State) (l : Location) (v : HostWord) :
    (s.poke l v).fault = s.fault ∧ (s.poke l v).cause = s.cause ∧ (s.poke l v).fcmd = s.fcmd ∧
      (s.poke l v).host = s.host ∧ (s.poke l v).replies = s.replies ∧ (s.poke l v).draws = s.draws := by
  cases l <;> simp [State.poke]

/-! ## What register writes change in the window -/

/-- The window depends on the registers and the control registers alone (rule R64). -/
theorem peek_congr {s t : State} (l : Location) (hf : ∀ i j, l = .field i j → t.f[i] = s.f[i])
    (hs : ∀ i j, l = .scalar i j → t.readScalar i = s.readScalar i)
    (hc : t.fault = s.fault ∧ t.cause = s.cause ∧ t.fcmd = s.fcmd) : t.peek l = s.peek l := by
  cases l with
  | field i j =>
    have h := hf i j rfl
    simp only [Fin.getElem_fin] at h
    simp [State.peek, h]
  | scalar i j =>
    have h := hs i j rfl
    simp [State.peek, h]
  | _ => simp [State.peek, State.statusWord, State.fcmdWord, hc]

theorem peekByte_congr {s t : State} {a : Nat} (h : t.peek (locate a) = s.peek (locate a)) :
    t.peekByte a = s.peekByte a := by
  unfold State.peekByte; rw [h]

end Sys2Proof.Laws
end

