-- ==== Sys2Proof/Laws/Exec.lean ====
section
/-! SUPPORT. What one command and one step can do, said once (30_encoding.md rule R90). -/

namespace Sys2Proof.Laws

open Sys2Proof.Machine

/-- What the command `i` leaves behind: its destination register written, perhaps with a draw, or a fault raised and
nothing else. -/
inductive Effect (i : Instr) (s : State) : State → Prop where
  | field (r : FieldReg) (v : FieldElement) (h : ∀ a, fieldBytes r a → destinationBytes i a) :
      Effect i s (s.writeField r v)
  | scalar (r : ScalarReg) (v : UnpackedScalar) (h : ∀ a, scalarBytes r a → destinationBytes i a) :
      Effect i s (s.writeScalar r v)
  | scalarDrawn (r : ScalarReg) (v : UnpackedScalar) (h : ∀ a, scalarBytes r a → destinationBytes i a) :
      Effect i s (s.writeScalar r v).drawn
  | point (r : PointReg) (t : PointLimbs) (h : ∀ a, (∃ k, fieldBytes (slot r k) a) → destinationBytes i a) :
      Effect i s (s.writePoint r t)
  | pointDrawn (r : PointReg) (t : PointLimbs) (h : ∀ a, (∃ k, fieldBytes (slot r k) a) → destinationBytes i a) :
      Effect i s (s.writePoint r t).drawn
  | raised (c : Cause) : Effect i s (s.raised c (encode i))

/-- Every command ends in a next state, and in no other way than `Effect` says (rules R90, R205, R246). -/
theorem exec_effect (i : Instr) (s : State) : ∃ t, exec i s = .next t ∧ Effect i s t := by
  cases i with
  | mmul sd sa sb =>
    simp only [exec, execMmul, raise]
    split_ifs
    · exact ⟨_, rfl, .scalar _ _ fun _ h => h⟩
    · exact ⟨_, rfl, .scalarDrawn _ _ fun _ h => h⟩
    · exact ⟨_, rfl, .raised _⟩
  | fred fd fa => exact ⟨_, rfl, .field _ _ fun _ h => h⟩
  | fredc fd fa => exact ⟨_, rfl, .field _ _ fun _ h => h⟩
  | pdbl pd pa k =>
    simp only [exec, execPdbl, raise]
    split_ifs
    · exact ⟨_, rfl, .raised _⟩
    · exact ⟨_, rfl, .point _ _ fun _ h => h⟩
  | paddE pd pa pb => exact ⟨_, rfl, .point _ _ fun _ h => h⟩
  | paddPN pd pa pb => exact ⟨_, rfl, .point _ _ fun _ h => h⟩
  | paddAN pd pa pb => exact ⟨_, rfl, .point _ _ fun _ h => h⟩
  | smvb pd sa pA sb =>
    simp only [exec, execSmvb, raise]
    split_ifs
    · exact ⟨_, rfl, .point _ _ fun _ h => h⟩
    · exact ⟨_, rfl, .pointDrawn _ _ fun _ h => h⟩
    · exact ⟨_, rfl, .raised _⟩
  | smfb pd sa =>
    simp only [exec, execSmfb, raise]
    split_ifs
    · exact ⟨_, rfl, .point _ _ fun _ h => h⟩
    · exact ⟨_, rfl, .raised _⟩

/-- A command leaves the host's actions and replies alone. -/
theorem Effect.host {i : Instr} {s t : State} (h : Effect i s t) : t.host = s.host ∧ t.replies = s.replies := by
  cases h <;> simp

/-- The control state after a command: as before, or a fault raised with one of the two causes. -/
theorem Effect.control {i : Instr} {s t : State} (h : Effect i s t) :
    (t.fault = s.fault ∧ t.cause = s.cause ∧ t.fcmd = s.fcmd) ∨ ∃ c, t = s.raised c (encode i) := by
  cases h with
  | raised c => exact .inr ⟨c, rfl⟩
  | _ => exact .inl (by simp)

/-- A write to `CMD` drops the word, raises `IllegalCommand` or runs the command (rule R90). -/
theorem issue_cases (w : CommandWord) (s : State) :
    (s.fault = 1 ∧ issue w s = .next s) ∨
    (s.fault ≠ 1 ∧ ∃ e, decode w = .illegal e ∧ issue w s = .next (s.raised .illegalCommand w)) ∨
    (s.fault ≠ 1 ∧ ∃ i, decode w = .command i ∧ issue w s = exec i s) := by
  unfold issue
  by_cases h : s.fault = 1
  · exact .inl ⟨h, if_pos h⟩
  · rw [if_neg h]
    cases hd : decode w with
    | command i => exact .inr (.inr ⟨h, i, rfl, rfl⟩)
    | illegal e => exact .inr (.inl ⟨h, e, rfl, rfl⟩)

/-- A step performs the host's next action, or leaves an idle machine as it is. -/
theorem step_nil {s : State} (h : s.host = []) : step s = .next s := by
  unfold step stepHost; rw [h]

theorem step_cons {s : State} {a : HostAction} {rest : List HostAction} (h : s.host = a :: rest) :
    step s = perform a { s with host := rest } := by
  unfold step stepHost; rw [h]

theorem commandWord_eq (v : HostWord) : commandWord v = v.extractLsb' 0 32 := by
  apply BitVec.eq_of_getLsbD_eq
  intro i hi
  simp [commandWord, hi]

/-- `commandWrite` writes the word itself. -/
theorem commandWord_setWidth (w : CommandWord) : commandWord (w.setWidth 64) = w := by
  apply BitVec.eq_of_getLsbD_eq
  intro i hi
  simp [commandWord]

/-- The step of a write to `CMD` issues the low half of the value (rules R65, R90). -/
theorem step_command {s : State} {v : HostWord} {rest : List HostAction} (h : s.host = .memWrite 0x000 8 v :: rest) :
    step s = issue (v.extractLsb' 0 32) { s with host := rest } := by
  rw [step_cons h, perform, memWrite_admitted _ _ (by decide), locate_cmd, writeLocation, commandWord_eq]

/-- What a step that ends in a next state can have been: an idle step, a reset, a read, a write to `CMD`, or a store. -/
theorem step_cases {s t : State} (h : step s = .next t) :
    (s.host = [] ∧ t = s) ∨
    ∃ a rest, s.host = a :: rest ∧
      ((a = .reset ∧ t = State.resetInput { s with host := rest }) ∨
       (∃ addr v, a = .memRead addr 8 ∧ State.peek { s with host := rest } (locate addr) = some v ∧
          t = State.reply { s with host := rest } v) ∨
       (∃ addr v, a = .memWrite addr 8 v ∧ locate addr = .cmd ∧
          issue (commandWord v) { s with host := rest } = .next t) ∨
       (∃ addr v, a = .memWrite addr 8 v ∧ locate addr ≠ .cmd ∧ locate addr ≠ .reserved ∧
          t = State.poke { s with host := rest } (locate addr) v)) := by
  cases hs : s.host with
  | nil => rw [step_nil hs] at h; injection h with h; exact .inl ⟨rfl, h.symm⟩
  | cons a rest =>
    rw [step_cons hs] at h
    refine .inr ⟨a, rest, rfl, ?_⟩
    cases a with
    | reset => injection h with h; exact .inl ⟨rfl, h.symm⟩
    | memRead addr width =>
      simp only [perform, memRead, withLocation] at h
      split_ifs at h with h1 h2 h3
      obtain ⟨v, hv, rfl⟩ := readLocation_next h
      exact .inr (.inl ⟨addr, v, by rw [not_not.1 h1], hv, rfl⟩)
    | memWrite addr width v =>
      simp only [perform, memWrite, withLocation] at h
      split_ifs at h with h1 h2 h3
      rw [not_not.1 h1]
      obtain ⟨hc, hi⟩ | ⟨hc, hr, rfl⟩ := writeLocation_next h
      · exact .inr (.inr (.inl ⟨addr, v, rfl, hc, hi⟩))
      · exact .inr (.inr (.inr ⟨addr, v, rfl, hc, hr, rfl⟩))

end Sys2Proof.Laws
end

