-- ==== Sys2Proof/Laws/Limbs.lean ====
section
/-! SUPPORT. Limb vectors and the integers they stand for (00_scope.md rules R9, R10, R14), and the two result
representations (10_state.md rules R40, R41). -/

namespace Sys2Proof.Laws

open Sys2Proof.Machine

@[simp] theorem limb51_toNat (n j : Nat) : (limb51 n j).toNat = n / 2 ^ (51 * j) % 2 ^ 51 := by
  rw [limb51, BitVec.toNat_ofNat, Nat.shiftRight_eq_div_pow]
  exact Nat.mod_eq_of_lt (lt_of_lt_of_le (Nat.mod_lt _ (by norm_num)) (by norm_num))

@[simp] theorem limb52_toNat (n j : Nat) : (limb52 n j).toNat = n / 2 ^ (52 * j) % 2 ^ 52 := by
  rw [limb52, BitVec.toNat_ofNat, Nat.shiftRight_eq_div_pow]

/-- `fval(limbs51(n)) = n` for `n < 2^255` (rule R9). -/
theorem fval_limbs51 {n : Nat} (h : n < 2 ^ 255) : fval (limbs51 n) = n := by
  simp [fval, limbs51]
  omega

theorem fieldValue_limbs51 {n : Nat} (h : n < fieldPrime) : fieldValue (limbs51 n) = n := by
  rw [fieldValue, fval_limbs51 (lt_of_lt_of_le h (by decide +kernel)), Nat.mod_eq_of_lt h]

theorem limbsBounded_limbs51 (n : Nat) : limbsBounded (limbs51 n) = true := by
  simp [limbsBounded, limbs51, Config.feOutBound]
  omega

/-- `sval(limbs52(n)) = n` for `n < 2^260` (rule R14). -/
theorem sval_limbs52 {n : Nat} (h : n < montRadix) : sval (limbs52 n) = n := by
  unfold montRadix at h
  simp [sval, limbs52]
  omega

/-- A scalar register holds an integer below `2^260` (rule R33). -/
theorem sval_lt (v : UnpackedScalar) : sval v < montRadix := by
  have h0 := v[0].isLt; have h1 := v[1].isLt; have h2 := v[2].isLt; have h3 := v[3].isLt; have h4 := v[4].isLt
  unfold sval montRadix
  omega

/-- "Every integer in `[0, 2^260)` has exactly one such vector, `limbs52` of it" (rule R14). -/
theorem limbs52_sval (v : UnpackedScalar) : limbs52 (sval v) = v := by
  have h0 := v[0].isLt; have h1 := v[1].isLt; have h2 := v[2].isLt; have h3 := v[3].isLt; have h4 := v[4].isLt
  apply Vector.ext
  intro i hi
  have : i = 0 ∨ i = 1 ∨ i = 2 ∨ i = 3 ∨ i = 4 := by omega
  obtain rfl | rfl | rfl | rfl | rfl := this <;> apply BitVec.eq_of_toNat_eq <;>
    simp [limbs52, sval] <;> omega

/-! ## The result representations -/

theorem representsField_iff {v : FieldElement} {n : Nat} :
    representsField v n = true ↔ fieldValue v = n % fieldPrime ∧ limbsBounded v = true := by
  simp [representsField]

/-- What `repr` writes meets rule R40, whatever `FE_REPR` is. -/
theorem reprField_represents (w : CommandWord) (s : State) (k : Fin 4) (n : Nat) :
    representsField (reprField w s k n) n = true := by
  simp only [reprField]
  split_ifs with h
  · exact h
  · exact representsField_iff.2
      ⟨by rw [fieldValue_limbs51 (Nat.mod_lt _ fieldPrime_pos)], limbsBounded_limbs51 _⟩

@[simp] theorem fieldValue_reprField (w : CommandWord) (s : State) (k : Fin 4) (n : Nat) :
    fieldValue (reprField w s k n) = n % fieldPrime :=
  (representsField_iff.1 (reprField_represents w s k n)).1

@[simp] theorem limbsBounded_reprField (w : CommandWord) (s : State) (k : Fin 4) (n : Nat) :
    limbsBounded (reprField w s k n) = true :=
  (representsField_iff.1 (reprField_represents w s k n)).2

/-- The representation of a value depends on the two register files alone (rule R40). -/
theorem reprField_congr {s u : State} (hf : s.f = u.f) (hs : s.s = u.s) (w : CommandWord) :
    reprField w s = reprField w u := by
  funext k n
  unfold reprField
  rw [hf, hs]

/-- The same for the four coordinates.  The vectors are built from one function, since the kernel does not get through a
comparison of the two that unfolds `reprField`. -/
theorem reprExtended_congr {s u : State} (hf : s.f = u.f) (hs : s.s = u.s) (w : CommandWord) (E : Extended) :
    reprExtended w s E = reprExtended w u E :=
  congrArg (fun g : Fin 4 → Nat → FieldElement => (#v[g 0 E.X, g 1 E.Y, g 2 E.Z, g 3 E.T] : PointLimbs))
    (reprField_congr hf hs w)

/-- The four limb vectors a point command writes have the four values modulo `p` (rule R40(a)). -/
theorem extendedOf_reprExtended (w : CommandWord) (s : State) (E : Extended) :
    extendedOf (reprExtended w s E) =
      ⟨E.X % fieldPrime, E.Y % fieldPrime, E.Z % fieldPrime, E.T % fieldPrime⟩ := by
  simp [extendedOf, reprExtended]

/-- The four limb vectors a point command writes have limbs below `2^52` (rule R40(b)). -/
theorem tupleBounded_reprExtended (w : CommandWord) (s : State) (E : Extended) :
    tupleBounded (reprExtended w s E) = true := by
  simp [tupleBounded, reprExtended]

end Sys2Proof.Laws
end

