-- ==== Sys2Proof/Laws/Montgomery.lean ====
section
/-! SUPPORT. What the Montgomery reduction and its limb-wise realisation compute (43_scalar_mmul.md rules R156 to R158). -/

namespace Sys2Proof.Laws

set_option Elab.async false

open Sys2Proof.Machine

/-- The division of rule R156 is exact: adding `m * L` clears the low 260 bits. -/
theorem montReduce_exact (T : Nat) :
    montRadix ∣ T + (T % montRadix) * montNL % montRadix * groupOrder := by
  have h : (montNL * groupOrder + 1) % montRadix = 0 := by decide +kernel
  have h1 : (T + (T % montRadix) * montNL % montRadix * groupOrder) ≡ T * (montNL * groupOrder + 1) [MOD montRadix] := by
    calc T + (T % montRadix) * montNL % montRadix * groupOrder
        ≡ T + T * montNL * groupOrder [MOD montRadix] := by
          refine Nat.ModEq.add_left _ (Nat.ModEq.mul_right _ ?_)
          exact (Nat.mod_modEq _ _).trans (Nat.ModEq.mul_right _ (Nat.mod_modEq _ _))
      _ = T * (montNL * groupOrder + 1) := by ring
  exact Nat.modEq_zero_iff_dvd.1 (h1.trans (Nat.modEq_zero_iff_dvd.2 (Dvd.dvd.mul_left (Nat.dvd_of_mod_eq_zero h) _)))

/-- Inside the value precondition the result is fully reduced and is the Montgomery quotient modulo `L` (rule R156). -/
theorem montReduce_spec {T : Nat} (h : T < montRadix * groupOrder) :
    montReduce T < groupOrder ∧ montReduce T * montRadix % groupOrder = T % groupOrder := by
  obtain ⟨u, hu⟩ := montReduce_exact T
  have hr : 0 < montRadix := by decide +kernel
  have hm : (T % montRadix) * montNL % montRadix < montRadix := Nat.mod_lt _ hr
  have hdiv : (T + (T % montRadix) * montNL % montRadix * groupOrder) / montRadix = u := by
    rw [hu, Nat.mul_div_cancel_left _ hr]
  have hlt : u < 2 * groupOrder := by
    have h1 : (T % montRadix) * montNL % montRadix * groupOrder ≤ montRadix * groupOrder :=
      Nat.mul_le_mul_right _ hm.le
    have h2 : montRadix * u < montRadix * (2 * groupOrder) := by
      rw [← hu, show montRadix * (2 * groupOrder) = montRadix * groupOrder + montRadix * groupOrder by ring]
      exact Nat.add_lt_add_of_lt_of_le h h1
    exact Nat.lt_of_mul_lt_mul_left h2
  have hmod : u * montRadix % groupOrder = T % groupOrder := by
    rw [mul_comm, ← hu, Nat.add_mul_mod_self_right]
  have he : montReduce T = if groupOrder ≤ u then u - groupOrder else u := by
    rw [← hdiv]; rfl
  rw [he]
  split_ifs with hge
  · refine ⟨by omega, ?_⟩
    rw [← hmod]
    conv_rhs => rw [← Nat.sub_add_cancel hge, add_mul, Nat.add_mul_mod_self_left]
  · exact ⟨by omega, hmod⟩

/-- The same, with the inverse of `2^260` the rule gives (rule R15). -/
theorem montReduce_eq {T : Nat} (h : T < montRadix * groupOrder) : montReduce T = T * montRInv % groupOrder := by
  obtain ⟨hlt, hmod⟩ := montReduce_spec h
  have hinv : montRadix * montRInv % groupOrder = 1 % groupOrder := by decide +kernel
  have : montReduce T * montRadix * montRInv ≡ T * montRInv [MOD groupOrder] := Nat.ModEq.mul_right _ hmod
  rw [mul_assoc] at this
  have h2 := (Nat.ModEq.mul_left (montReduce T) hinv).symm.trans this
  rw [mul_one] at h2
  rw [← Nat.mod_eq_of_lt hlt]; exact h2

theorem montReduce_lt_radix {T : Nat} (h : T < montRadix * groupOrder) : montReduce T < montRadix :=
  lt_trans (montReduce_spec h).1 (by decide +kernel)

/-- The value read back from the limbs `MMUL` writes. -/
theorem sval_montReduce {T : Nat} (h : T < montRadix * groupOrder) : sval (limbs52 (montReduce T)) = montReduce T :=
  sval_limbs52 (montReduce_lt_radix h)

theorem montInRange_iff {a b : Nat} : montInRange a b = true ↔ a * b < montRadix * groupOrder := by
  simp [montInRange]

/-- The value of the scalar register just written. -/
theorem scalar_writeScalar (s : State) {i : ScalarReg} (v : UnpackedScalar) (h : i.val < 6) :
    (s.writeScalar i v).scalar i = sval v := by rw [State.scalar, writeScalar_same _ _ h]

/-- The hardwired constants as integers (rules R15, R34). -/
theorem scalar_sR (s : State) : s.scalar sR = montR := by rw [State.scalar, readScalar_sR]; decide +kernel

theorem scalar_sRR (s : State) : s.scalar sRR = montRR := by rw [State.scalar, readScalar_sRR]; decide +kernel

/-! ## The limb-wise realisation (rule R158) -/

/-- One `part1` step clears the low 52 bits: `x + q * l_0 = 2^52 * carry`. -/
theorem montPart1_spec (x : Nat) : x + (montPart1 x).2 * (groupOrder % 2 ^ 52) = 2 ^ 52 * (montPart1 x).1 ∧
    (montPart1 x).2 < 2 ^ 52 := by
  have h0 : groupOrder % 2 ^ 52 = 671914833335277 := by decide +kernel
  simp only [montPart1, lFactor, h0]
  omega

/-- One `part2` step splits a column into its low limb and the carry. -/
theorem montPart2_spec (x : Nat) : x = (montPart2 x).2 + 2 ^ 52 * (montPart2 x).1 ∧ (montPart2 x).2 < 2 ^ 52 := by
  simp only [montPart2]; omega

theorem orderLimbs : groupOrder = groupOrder % 2 ^ 52 + orderLimb 1 * 2 ^ 52 + orderLimb 2 * 2 ^ 104 +
    orderLimb 3 * 2 ^ 156 + orderLimb 4 * 2 ^ 208 := by decide +kernel

end Sys2Proof.Laws
end

