-- ==== Sys2Proof/Laws/PerInstr.lean ====
section
/-! SUPPORT. The encoding of every command matches its row of the table of 30_encoding.md rule R103: family `EncodeMatchesRow`,
one lemma for each constructor. -/

namespace Sys2Proof.Laws.EncodeMatchesRow

/-- "`w & mask = match`" for the word of the command (rule R103). -/
def Statement (i : Instr) : Prop := encode i &&& rowMask i = rowMatch i

theorem mmul (sd sa sb : ScalarReg) : Statement (.mmul sd sa sb) := by
  apply BitVec.eq_of_getLsbD_eq
  intro i hi
  simp only [encode, rowMask, rowMatch, assemble, BitVec.getLsbD_and, BitVec.getLsbD_append]
  interval_cases i <;> simp

theorem fred (fd fa : FieldReg) : Statement (.fred fd fa) := by
  apply BitVec.eq_of_getLsbD_eq
  intro i hi
  simp only [encode, rowMask, rowMatch, assemble, BitVec.getLsbD_and, BitVec.getLsbD_append]
  interval_cases i <;> simp

theorem fredc (fd fa : FieldReg) : Statement (.fredc fd fa) := by
  apply BitVec.eq_of_getLsbD_eq
  intro i hi
  simp only [encode, rowMask, rowMatch, assemble, BitVec.getLsbD_and, BitVec.getLsbD_append]
  interval_cases i <;> simp

theorem pdbl (pd pa : PointReg) (k : BitVec 8) : Statement (.pdbl pd pa k) := by
  apply BitVec.eq_of_getLsbD_eq
  intro i hi
  simp only [encode, rowMask, rowMatch, assemble, BitVec.getLsbD_and, BitVec.getLsbD_append]
  interval_cases i <;> simp

theorem paddE (pd pa pb : PointReg) : Statement (.paddE pd pa pb) := by
  apply BitVec.eq_of_getLsbD_eq
  intro i hi
  simp only [encode, rowMask, rowMatch, assemble, BitVec.getLsbD_and, BitVec.getLsbD_append]
  interval_cases i <;> simp

theorem paddPN (pd pa pb : PointReg) : Statement (.paddPN pd pa pb) := by
  apply BitVec.eq_of_getLsbD_eq
  intro i hi
  simp only [encode, rowMask, rowMatch, assemble, BitVec.getLsbD_and, BitVec.getLsbD_append]
  interval_cases i <;> simp

theorem paddAN (pd pa pb : PointReg) : Statement (.paddAN pd pa pb) := by
  apply BitVec.eq_of_getLsbD_eq
  intro i hi
  simp only [encode, rowMask, rowMatch, assemble, BitVec.getLsbD_and, BitVec.getLsbD_append]
  interval_cases i <;> simp

theorem smvb (pd : PointReg) (sa : ScalarReg) (pA : PointReg) (sb : ScalarReg) :
    Statement (.smvb pd sa pA sb) := by
  apply BitVec.eq_of_getLsbD_eq
  intro i hi
  simp only [encode, rowMask, rowMatch, assemble, BitVec.getLsbD_and, BitVec.getLsbD_append]
  interval_cases i <;> simp

theorem smfb (pd : PointReg) (sa : ScalarReg) : Statement (.smfb pd sa) := by
  apply BitVec.eq_of_getLsbD_eq
  intro i hi
  simp only [encode, rowMask, rowMatch, assemble, BitVec.getLsbD_and, BitVec.getLsbD_append]
  interval_cases i <;> simp

end Sys2Proof.Laws.EncodeMatchesRow
end

