-- ==== Sys2Proof/Laws/Points.lean ====
section
/-! SUPPORT. What the steps of the point units compute on valid tuples: doubling and adding Niels tuples are the group law of
00_scope.md rule R12 (41_point_double.md rule R133, 42_point_add.md rule R145). -/

namespace Sys2Proof.Laws

set_option Elab.async false

open Sys2Proof.Machine

/-! ## Tuples that represent a good affine point -/

/-- `(X : Y : Z)` represents `P`: `Z != 0`, `X = x*Z`, `Y = y*Z`. -/
structure ProjRep (E : Projective) (P : Affine) : Prop where
  z : (E.Z : Fp) ≠ 0
  x : (E.X : Fp) = P.x * E.Z
  y : (E.Y : Fp) = P.y * E.Z

/-- `(X : Y : Z : T)` represents `P`: `Z != 0`, `X = x*Z`, `Y = y*Z`, `T = x*y*Z`. -/
structure Rep (E : Extended) (P : Affine) : Prop where
  z : (E.Z : Fp) ≠ 0
  x : (E.X : Fp) = P.x * E.Z
  y : (E.Y : Fp) = P.y * E.Z
  t : (E.T : Fp) = P.x * P.y * E.Z

/-- `(N0, N1, N2, N3)` is a multiple of `(y+x, y-x, 1, 2dxy)`. -/
structure NielsRep (N : ProjectiveNiels) (P : Affine) : Prop where
  z : (N.n2 : Fp) ≠ 0
  n0 : (N.n0 : Fp) = (P.y + P.x) * N.n2
  n1 : (N.n1 : Fp) = (P.y - P.x) * N.n2
  n3 : (N.n3 : Fp) = 2 * curveD * P.x * P.y * N.n2

theorem two_ne_zero_Fp : (2 : Fp) ≠ 0 := by
  rw [show (2 : Fp) = ((2 : Nat) : Fp) by simp, Ne, cast_eq_zero_iff]
  decide +kernel

theorem Rep.toProjective {E : Extended} {P : Affine} (h : Rep E P) : ProjRep E.toProjective P := ⟨h.z, h.x, h.y⟩

theorem Rep.toNiels {E : Extended} {P : Affine} (h : Rep E P) : NielsRep E.toNiels P where
  z := h.z
  n0 := by simp only [Extended.toNiels, cast_fadd, h.x, h.y]; ring
  n1 := by simp only [Extended.toNiels, cast_fsub, h.x, h.y]; ring
  n3 := by simp only [Extended.toNiels, cast_fmul, cast_curve2D, h.t]; ring

theorem rep_ofAffine (P : Affine) : Rep (Extended.ofAffine P) P := by
  have := fact_fieldPrime
  constructor <;> simp [Extended.ofAffine]

theorem rep_identity : Rep Extended.identity Affine.zero := by
  have := fact_fieldPrime
  constructor <;> simp [Extended.identity, Affine.zero]

theorem nielsRep_affine (P : Affine) : NielsRep P.toNiels.widen P := by
  have := fact_fieldPrime
  constructor <;> simp [Affine.toNiels, AffineNiels.widen]
  ring

theorem NielsRep.neg {N : ProjectiveNiels} {P : Affine} (h : NielsRep N P) : NielsRep N.neg P.neg where
  z := h.z
  n0 := by simp only [ProjectiveNiels.neg, Affine.neg, cast_fsub, h.n1]; push_cast; ring
  n1 := by simp only [ProjectiveNiels.neg, Affine.neg, cast_fsub, h.n0]; push_cast; ring
  n3 := by simp only [ProjectiveNiels.neg, Affine.neg, cast_fsub, h.n3]; push_cast; ring

theorem nielsRep_neg_affine (P : Affine) : NielsRep P.toNiels.neg.widen P.neg :=
  (nielsRep_affine P).neg

/-! ## Doubling and addition -/

/-- `ext` of a Completed point `(A : C : B : D)`, up to a factor, represents `(A/B, C/D)` (rules R13, R141). -/
theorem rep_ext [Fact (Nat.Prime fieldPrime)] {K : Completed} {P : Affine} {A B C D c : Fp} (hc : c ≠ 0)
    (hB : B ≠ 0) (hD : D ≠ 0) (hX : (K.X : Fp) = A * c) (hY : (K.Y : Fp) = C * c) (hZ : (K.Z : Fp) = B * c)
    (hT : (K.T : Fp) = D * c) (hx : (P.x : Fp) = A / B) (hy : (P.y : Fp) = C / D) : Rep (ext K) P := by
  refine ⟨?_, ?_, ?_, ?_⟩ <;> simp only [ext, cast_fmul, hX, hY, hZ, hT, hx, hy]
  · exact mul_ne_zero (mul_ne_zero hB hc) (mul_ne_zero hD hc)
  all_goals field_simp

/-- Rule R132 doubles (rule R133). -/
theorem rep_doubleOnce {E : Projective} {P : Affine} (hP : Good P) (h : ProjRep E P) :
    Rep (doubleOnce E) (Affine.add P P) := by
  have := fact_fieldPrime
  have on : -(P.x : Fp) ^ 2 + (P.y : Fp) ^ 2 = 1 + curveD * (P.x : Fp) ^ 2 * (P.y : Fp) ^ 2 := hP.point.on
  have hB := Edwards.one_add_cross_ne_zero curveD_not_square minus_one_square hP.point.on hP.point.on
  have hD := Edwards.one_sub_cross_ne_zero curveD_not_square minus_one_square hP.point.on hP.point.on
  simp only [Good.point, Edwards.cross] at hB hD
  have hz := h.z
  have cz : (((doubleCompleted E).Z : Nat) : Fp) =
      (1 + curveD * P.x * P.x * P.y * P.y) * (E.Z : Fp) ^ 2 := by
    simp only [doubleCompleted, cast_fmul, cast_fsub, h.x, h.y]
    linear_combination (E.Z : Fp) ^ 2 * on
  have ct : (((doubleCompleted E).T : Nat) : Fp) =
      (1 - curveD * P.x * P.x * P.y * P.y) * (E.Z : Fp) ^ 2 := by
    simp only [doubleCompleted, cast_fmul, cast_fsub, h.x, h.y]
    push_cast
    linear_combination -(E.Z : Fp) ^ 2 * on
  have cx : (((doubleCompleted E).X : Nat) : Fp) = 2 * P.x * P.y * (E.Z : Fp) ^ 2 := by
    simp only [doubleCompleted, cast_fmul, cast_fsub, cast_fadd, h.x, h.y]; ring
  have cy : (((doubleCompleted E).Y : Nat) : Fp) = (P.y * P.y + P.x * P.x) * (E.Z : Fp) ^ 2 := by
    simp only [doubleCompleted, cast_fmul, cast_fadd, h.x, h.y]; ring
  exact rep_ext (pow_ne_zero 2 hz) hB hD (A := 2 * P.x * P.y) (C := P.y * P.y + P.x * P.x) cx cy cz ct
    (by rw [cast_add_x, Edwards.sumX, Edwards.cross]; congr 1; ring)
    (by rw [cast_add_y, Edwards.sumY, Edwards.cross])

/-- Rule R141 adds (rule R145). -/
theorem rep_addNiels {E : Extended} {N : ProjectiveNiels} {P Q : Affine} (hP : Good P) (hQ : Good Q)
    (hE : Rep E P) (hN : NielsRep N Q) : Rep (addNiels E N) (Affine.add P Q) := by
  have := fact_fieldPrime
  have hB := Edwards.one_add_cross_ne_zero curveD_not_square minus_one_square hP.point.on hQ.point.on
  have hD := Edwards.one_sub_cross_ne_zero curveD_not_square minus_one_square hP.point.on hQ.point.on
  simp only [Good.point, Edwards.cross] at hB hD
  have h2 := two_ne_zero_Fp
  have hz := hE.z
  have hn := hN.z
  have cx : (((addN E N).X : Nat) : Fp) = 2 * (P.x * Q.y + P.y * Q.x) * (E.Z * N.n2) := by
    simp only [addN, cast_fmul, cast_fsub, cast_fadd, hE.x, hE.y, hN.n0, hN.n1]; ring
  have cy : (((addN E N).Y : Nat) : Fp) = 2 * (P.y * Q.y + P.x * Q.x) * (E.Z * N.n2) := by
    simp only [addN, cast_fmul, cast_fsub, cast_fadd, hE.x, hE.y, hN.n0, hN.n1]; ring
  have cz : (((addN E N).Z : Nat) : Fp) = 2 * (1 + curveD * P.x * Q.x * P.y * Q.y) * (E.Z * N.n2) := by
    simp only [addN, cast_fmul, cast_fadd, hE.t, hN.n3]; push_cast; ring
  have ct : (((addN E N).T : Nat) : Fp) = 2 * (1 - curveD * P.x * Q.x * P.y * Q.y) * (E.Z * N.n2) := by
    simp only [addN, cast_fmul, cast_fsub, hE.t, hN.n3]; push_cast; ring
  exact rep_ext (mul_ne_zero h2 (mul_ne_zero hz hn)) hB hD (A := P.x * Q.y + P.y * Q.x)
    (C := P.y * Q.y + P.x * Q.x) (by rw [cx]; ring) (by rw [cy]; ring) (by rw [cz]; ring) (by rw [ct]; ring)
    (by rw [cast_add_x, Edwards.sumX, Edwards.cross]) (by rw [cast_add_y, Edwards.sumY, Edwards.cross])

/-- `k + 1` doublings multiply by `2^(k+1)` (rule R133). -/
theorem rep_doubleTimes {E : Projective} {P : Affine} (hP : Good P) (h : ProjRep E P) (k : Nat) :
    Rep (doubleTimes E k) (mulPoint (2 ^ (k + 1)) P) := by
  induction k with
  | zero =>
    have := rep_doubleOnce hP h
    rwa [show (2 : Nat) ^ (0 + 1) = 1 + 1 by norm_num, mulPoint_add_scalars hP, mulPoint_one hP]
  | succ k ih =>
    have := rep_doubleOnce (good_mulPoint hP _) ih.toProjective
    rwa [← mulPoint_add_scalars hP, ← two_mul, ← pow_succ'] at this

/-! ## Validity and representation as the machine decides them -/

theorem mod_ne_zero_iff {a : Nat} : (a % fieldPrime != 0) = true ↔ (a : Fp) ≠ 0 := by
  rw [bne_iff_ne, Ne, Ne, cast_eq_zero_iff]

theorem valid_iff (E : Extended) : E.valid = true ↔
    (E.Z : Fp) ≠ 0 ∧ (E.X : Fp) * E.Y = E.Z * E.T ∧ E.toAffine.onCurve = true := by
  unfold Extended.valid
  rw [Bool.and_eq_true, Bool.and_eq_true, mod_ne_zero_iff, beq_iff_eq, fmul_eq_fmul_iff, and_assoc]

theorem good_toAffine {E : Extended} (h : E.valid = true) : Good E.toAffine :=
  ⟨fdiv_lt _ _, fdiv_lt _ _, ((valid_iff E).1 h).2.2⟩

/-- A valid Extended tuple represents its affine point. -/
theorem rep_toAffine {E : Extended} (h : E.valid = true) : Rep E E.toAffine := by
  have := fact_fieldPrime
  obtain ⟨hz, hxy, -⟩ := (valid_iff E).1 h
  refine ⟨hz, ?_, ?_, ?_⟩ <;> simp only [Extended.toAffine, cast_fdiv]
  · field_simp
  · field_simp
  · field_simp; linear_combination -hxy

/-- The affine point a tuple represents is unique. -/
theorem Rep.toAffine_eq {E : Extended} {P : Affine} (hP : Good P) (h : Rep E P) : E.toAffine = P := by
  have := fact_fieldPrime
  have hz := h.z
  have hx : ((E.toAffine.x : Nat) : Fp) = P.x := by
    simp only [Extended.toAffine, cast_fdiv, h.x]; field_simp
  have hy : ((E.toAffine.y : Nat) : Fp) = P.y := by
    simp only [Extended.toAffine, cast_fdiv, h.y]; field_simp
  have hx' := (cast_eq_iff (fdiv_lt _ _) hP.x_lt).1 hx
  have hy' := (cast_eq_iff (fdiv_lt _ _) hP.y_lt).1 hy
  cases P; simp_all [Extended.toAffine]

theorem Rep.valid {E : Extended} {P : Affine} (hP : Good P) (h : Rep E P) : E.valid = true := by
  rw [valid_iff, h.toAffine_eq hP]
  exact ⟨h.z, by rw [h.x, h.y, h.t]; ring, hP.on⟩

/-- `represents` of rule R19 is what `Rep` says, on good points. -/
theorem represents_iff {E : Extended} {P : Affine} (hP : Good P) : E.represents P = true ↔ Rep E P := by
  unfold Extended.represents Extended.equiv
  rw [Bool.and_eq_true, Bool.and_eq_true, Bool.and_eq_true, beq_iff_eq, beq_iff_eq, fmul_eq_fmul_iff,
    fmul_eq_fmul_iff]
  constructor
  · rintro ⟨⟨⟨hv, -⟩, hx⟩, hy⟩
    obtain ⟨hz, hxy, -⟩ := (valid_iff E).1 hv
    have hx' : (E.X : Fp) = P.x * E.Z := by simpa [Extended.ofAffine] using hx
    have hy' : (E.Y : Fp) = P.y * E.Z := by simpa [Extended.ofAffine] using hy
    have := fact_fieldPrime
    refine ⟨hz, hx', hy', mul_left_cancel₀ hz ?_⟩
    rw [← hxy, hx', hy']; ring
  · intro h
    refine ⟨⟨⟨h.valid hP, (rep_ofAffine P).valid hP⟩, ?_⟩, ?_⟩
    · simpa [Extended.ofAffine] using h.x
    · simpa [Extended.ofAffine] using h.y

/-- Two tuples that represent one point are equivalent (rule R19). -/
theorem equiv_of_rep {E F : Extended} {P : Affine} (hP : Good P) (h : Rep E P) (h' : Rep F P) :
    E.equiv F = true := by
  simp only [Extended.equiv, Bool.and_eq_true, beq_iff_eq, fmul_eq_fmul_iff, h.valid hP, h'.valid hP, h.x, h.y, h'.x,
    h'.y]
  refine ⟨⟨⟨trivial, trivial⟩, ?_⟩, ?_⟩ <;> ring

/-- What a tuple represents depends on its components modulo `p` only (rule R130). -/
theorem Rep.mod {E : Extended} {P : Affine} (h : Rep E P) :
    Rep ⟨E.X % fieldPrime, E.Y % fieldPrime, E.Z % fieldPrime, E.T % fieldPrime⟩ P :=
  ⟨by simpa using h.z, by simpa using h.x, by simpa using h.y, by simpa using h.t⟩

theorem projective_valid_iff (E : Projective) : E.valid = true ↔ (E.Z : Fp) ≠ 0 ∧ E.toAffine.onCurve = true := by
  unfold Projective.valid
  rw [Bool.and_eq_true, mod_ne_zero_iff]

theorem good_projective {E : Projective} (h : E.valid = true) : Good E.toAffine :=
  ⟨fdiv_lt _ _, fdiv_lt _ _, ((projective_valid_iff E).1 h).2⟩

theorem projRep_toAffine {E : Projective} (h : E.valid = true) : ProjRep E E.toAffine := by
  have := fact_fieldPrime
  have hz := ((projective_valid_iff E).1 h).1
  refine ⟨hz, ?_, ?_⟩ <;> simp only [Projective.toAffine, cast_fdiv] <;> field_simp

/-! ## Multiples through Extended tuples, for computing -/

/-- `[k]P` on Extended tuples by doubling and adding. -/
def extendedMul : (fuel : Nat) → (k : Nat) → Extended → Extended
  | 0, _, _ => Extended.identity
  | fuel + 1, k, E =>
    if k = 0 then Extended.identity
    else if k % 2 = 1 then addNiels (extendedMul fuel (k / 2) (doubleOnce E.toProjective)) E.toNiels
    else extendedMul fuel (k / 2) (doubleOnce E.toProjective)

theorem rep_extendedMul {E : Extended} {P : Affine} (hP : Good P) (hE : Rep E P) (fuel k : Nat)
    (h : k < 2 ^ fuel) : Rep (extendedMul fuel k E) (mulPoint k P) := by
  induction fuel generalizing k P E with
  | zero => obtain rfl : k = 0 := by simpa using h
            exact rep_identity
  | succ n ih =>
    have hh : k / 2 < 2 ^ n := by rw [pow_succ] at h; omega
    have half := ih (good_add hP hP) (rep_doubleOnce hP hE.toProjective) (k / 2) hh
    rw [mulPoint_add_points hP hP, ← mulPoint_add_scalars hP, ← two_mul] at half
    unfold extendedMul
    split_ifs with h0 h1
    · rw [h0]; exact rep_identity
    · have := rep_addNiels (good_mulPoint hP _) hP half hE.toNiels
      conv => rhs; rw [← Nat.div_add_mod k 2, h1]
      exact this
    · have h3 : k % 2 = 0 := by omega
      conv => rhs; rw [← Nat.div_add_mod k 2, h3]
      exact half

/-- `[k]P`, computed. -/
theorem mulPoint_compute {P : Affine} (hP : Good P) (k : Nat) (h : k < 2 ^ 256) :
    mulPoint k P = (extendedMul 256 k (Extended.ofAffine P)).toAffine :=
  ((rep_extendedMul hP (rep_ofAffine P) 256 k h).toAffine_eq (good_mulPoint hP k)).symm

/-- `B` has order `L` (rule R14: "it was checked to be prime and to satisfy `[L]B = identity`"). -/
theorem mulPoint_groupOrder : mulPoint groupOrder basePoint = Affine.zero := by
  rw [mulPoint_compute good_basePoint _ (by decide +kernel)]
  decide +kernel

/-- `[k]B = [k mod L]B` (rule R172). -/
theorem mulPoint_mod_order (k : Nat) : mulPoint (k % groupOrder) basePoint = mulPoint k basePoint := by
  conv_rhs => rw [← Nat.mod_add_div k groupOrder]
  rw [mulPoint_add_scalars good_basePoint, Nat.mul_comm, mulPoint_mul good_basePoint, mulPoint_groupOrder,
    mulPoint_zero_point, add_zero_good (good_mulPoint good_basePoint _)]

end Sys2Proof.Laws
end

