-- ==== Sys2Proof/Laws/Recode.lean ====
section
/-! SUPPORT. The digit recodings of 00_scope.md rules R17 and R18: what a run of digits stands for, and the range of one digit. -/

namespace Sys2Proof.Laws

open Sys2Proof.Machine

/-! ## Digit sums -/

/-- A digit sum, position by position. -/
theorem digitSum_eq_sum (b : Int) (l : List Int) :
    digitSum b l = ∑ i ∈ Finset.range l.length, l.getD i 0 * b ^ i := by
  induction l with
  | nil => rfl
  | cons d ds ih =>
    rw [digitSum, ih, List.length_cons, Finset.sum_range_succ', Finset.mul_sum, add_comm]
    congr 1
    · exact Finset.sum_congr rfl fun i _ => by rw [List.getD_cons_succ]; ring
    · simp

/-- The positions of an even number of digits, split into the even and the odd ones. -/
theorem sum_even_odd (f : Nat → Int) (n : Nat) :
    ∑ i ∈ Finset.range (2 * n), f i =
      ∑ i ∈ Finset.range n, f (2 * i) + ∑ i ∈ Finset.range n, f (2 * i + 1) := by
  induction n with
  | zero => rfl
  | succ n ih =>
    rw [show 2 * (n + 1) = 2 * n + 1 + 1 by ring, Finset.sum_range_succ, Finset.sum_range_succ, ih,
      Finset.sum_range_succ, Finset.sum_range_succ]
    ring

/-! ## Radix 16 (rule R17) -/

theorem radix16From_length (n k c : Nat) : (radix16From n k c).length = n + 1 := by
  induction n generalizing k c with
  | zero => rfl
  | succ n ih => simp [radix16From, ih]

/-- `n` recentred digits and a last one stand for the value and the carry into it, if the value fits. -/
theorem digitSum_radix16From (n k c : Nat) (h : k < 16 ^ (n + 1)) : digitSum 16 (radix16From n k c) = k + c := by
  induction n generalizing k c with
  | zero =>
    have : k % 16 = k := Nat.mod_eq_of_lt (by simpa using h)
    simp [radix16From, digitSum, this]
  | succ n ih =>
    rw [radix16From, digitSum, ih _ _ (by rw [pow_succ] at h; omega)]
    omega

/-- A recentred digit lies in `[-8, 8)` and the carry is 0 or 1. -/
theorem radix16_digit (k c : Nat) (hc : c ≤ 1) :
    -8 ≤ ((k % 16 + c : Nat) : Int) - 16 * (((k % 16 + c + 8) / 16 : Nat) : Int) ∧
      ((k % 16 + c : Nat) : Int) - 16 * (((k % 16 + c + 8) / 16 : Nat) : Int) < 8 ∧ (k % 16 + c + 8) / 16 ≤ 1 := by
  omega

/-! ## Non-adjacent forms (rule R18) -/

theorem nafFrom_length (w n k : Nat) : (nafFrom w n k).length = n := by
  induction n generalizing k with
  | zero => rfl
  | succ n ih => rw [nafFrom]; split_ifs <;> simp [ih]

/-- The digit of an odd value is odd, below `2^(w-1)` in absolute value, and taking it off leaves a non-negative multiple
of `2^w` that is at most a power of two that bounds the value. -/
theorem nafDigit_spec {w k : Nat} (hw : 2 ≤ w) (hk : k % 2 = 1) :
    ∃ q : Nat, (k : Int) - nafDigit w k = 2 ^ w * q ∧ nafDigit w k % 2 = 1 ∧ |nafDigit w k| < 2 ^ (w - 1) ∧
      ∀ m, k ≤ 2 ^ m → 2 ^ w * q ≤ 2 ^ m := by
  obtain ⟨v, rfl⟩ : ∃ v, w = v + 1 := ⟨w - 1, by omega⟩
  have hp : 2 ^ (v + 1) = 2 * 2 ^ v := pow_succ' 2 v
  have hv : ∃ t, 2 ^ v = 2 * t := ⟨2 ^ (v - 1), by rw [← pow_succ']; congr 1; omega⟩
  obtain ⟨t, ht⟩ := hv
  have hpos : 0 < 2 ^ (v + 1) := by positivity
  have hdm := Nat.div_add_mod k (2 ^ (v + 1))
  have hlt := Nat.mod_lt k hpos
  unfold nafDigit
  simp only [Nat.add_sub_cancel]
  have hodd : k % 2 ^ (v + 1) % 2 = 1 := by
    rw [Nat.mod_mod_of_dvd _ (dvd_pow_self 2 (by omega))]; exact hk
  generalize hr : k % 2 ^ (v + 1) = r at *
  generalize hq : k / 2 ^ (v + 1) = q at *
  split_ifs with hge
  · refine ⟨q + 1, ?_, ?_, ?_, ?_⟩
    · rw [← hdm]; push_cast; ring
    · push_cast [pow_succ'] at *; omega
    · rw [abs_lt]
      have h1 : (2 : Int) ^ (v + 1) = 2 * 2 ^ v := by exact_mod_cast hp
      have h2 : ((2 ^ v : Nat) : Int) = 2 ^ v := by push_cast; rfl
      rw [h1, ← h2]
      have : r ≠ 2 ^ v := by rintro rfl; omega
      omega
    · intro m hm
      by_cases hwm : v + 1 ≤ m
      · obtain ⟨e, rfl⟩ := Nat.exists_eq_add_of_le hwm
        rw [pow_add 2 (v + 1) e] at hm ⊢
        refine Nat.mul_le_mul_left _ ?_
        by_contra hcon
        have : 2 ^ e ≤ q := by omega
        have := Nat.mul_le_mul_left (2 ^ (v + 1)) this
        omega
      · have : 2 ^ m ≤ 2 ^ v := Nat.pow_le_pow_right (by norm_num) (by omega)
        have hk' : k = 2 ^ v := by
          have : r ≤ k := by rw [← hr]; exact Nat.mod_le _ _
          omega
        omega
  · refine ⟨q, ?_, ?_, ?_, ?_⟩
    · rw [← hdm]; push_cast; ring
    · omega
    · rw [abs_lt]
      have h2 : ((2 ^ v : Nat) : Int) = 2 ^ v := by push_cast; rfl
      rw [← h2]; omega
    · intro m hm; omega

/-- `n` digits stand for every value up to `2^(n-1)`. -/
theorem digitSum_nafFrom {w n k : Nat} (hw : 2 ≤ w) (h : k ≤ 2 ^ n) : digitSum 2 (nafFrom w (n + 1) k) = k := by
  induction n generalizing k with
  | zero =>
    obtain rfl | rfl : k = 0 ∨ k = 1 := by simp at h; omega
    · simp [nafFrom, digitSum]
    · have h4 : (4 : Nat) ≤ 2 ^ w := le_trans (by norm_num) (Nat.pow_le_pow_right (n := 2) (by norm_num) hw)
      have h2 : (2 : Nat) ≤ 2 ^ (w - 1) := le_trans (by norm_num) (Nat.pow_le_pow_right (n := 2) (i := 1) (by norm_num) (by omega))
      have h1 : 1 % 2 ^ w = 1 := Nat.mod_eq_of_lt (by omega)
      simp only [nafFrom, nafDigit, h1]
      rw [if_pos (by norm_num), if_neg (by omega)]
      simp [digitSum]
  | succ n ih =>
    rw [nafFrom]
    split_ifs with hk
    · obtain ⟨q, h1, -, -, h4⟩ := nafDigit_spec hw hk
      have hb := h4 _ h
      obtain ⟨v, rfl⟩ : ∃ v, w = v + 1 := ⟨w - 1, by omega⟩
      have hhalf : ((k : Int) - nafDigit (v + 1) k).toNat / 2 = 2 ^ v * q := by
        rw [h1, show ((2 : Int) ^ (v + 1) * q) = ((2 * (2 ^ v * q) : Nat) : Int) by push_cast; ring, Int.toNat_natCast]
        omega
      rw [digitSum, hhalf, ih (by rw [pow_succ', pow_succ', mul_assoc] at hb; omega)]
      have : (k : Int) = nafDigit (v + 1) k + 2 ^ (v + 1) * q := by linarith
      rw [this]; push_cast; ring
    · rw [digitSum, ih (by rw [pow_succ] at h; omega)]
      omega

end Sys2Proof.Laws
end

