-- ==== Sys2Proof/Laws/Reduce.lean ====
section
/-! SUPPORT. What the two reductions of the field reducer compute (40_field_reduce.md rules R121 to R125). -/

namespace Sys2Proof.Laws

open Sys2Proof.Machine

theorem limbCarry_lt (v : FieldElement) (j : Fin 5) : limbCarry v j < 2 ^ 13 := by
  have h := (v[j]).isLt
  unfold limbCarry; omega

theorem limbLow_lt (v : FieldElement) (j : Fin 5) : limbLow v j < 2 ^ 51 := Nat.mod_lt _ (by norm_num)

theorem limb_split (v : FieldElement) (j : Fin 5) : v[j].toNat = limbLow v j + 2 ^ 51 * limbCarry v j := by
  unfold limbLow limbCarry; omega

/-- The five limbs of one weak pass as integers: no addition wraps (rule R122(e)). -/
theorem weakReduce_limbs (v : FieldElement) :
    (weakReduce v)[0].toNat = limbLow v 0 + 19 * limbCarry v 4 ∧
    (weakReduce v)[1].toNat = limbLow v 1 + limbCarry v 0 ∧
    (weakReduce v)[2].toNat = limbLow v 2 + limbCarry v 1 ∧
    (weakReduce v)[3].toNat = limbLow v 3 + limbCarry v 2 ∧
    (weakReduce v)[4].toNat = limbLow v 4 + limbCarry v 3 := by
  have h0 := limbLow_lt v 0; have h1 := limbLow_lt v 1; have h2 := limbLow_lt v 2
  have h3 := limbLow_lt v 3; have h4 := limbLow_lt v 4
  have c0 := limbCarry_lt v 0; have c1 := limbCarry_lt v 1; have c2 := limbCarry_lt v 2
  have c3 := limbCarry_lt v 3; have c4 := limbCarry_lt v 4
  refine ⟨?_, ?_, ?_, ?_, ?_⟩ <;>
  · simp only [weakReduce, Vector.getElem_mk, List.getElem_toArray, List.getElem_cons_zero,
      List.getElem_cons_succ, BitVec.toNat_ofNat]
    omega

/-- A weak pass takes `c4 * p` off the value, `c4` the carry out of the top limb (rule R122(a)). -/
theorem fval_weakReduce (v : FieldElement) : fval (weakReduce v) + limbCarry v 4 * fieldPrime = fval v := by
  obtain ⟨e0, e1, e2, e3, e4⟩ := weakReduce_limbs v
  have s0 := limb_split v 0; have s1 := limb_split v 1; have s2 := limb_split v 2
  have s3 := limb_split v 3; have s4 := limb_split v 4
  simp only [Fin.getElem_fin, Fin.val_zero, show ((1 : Fin 5) : Nat) = 1 from rfl, show ((2 : Fin 5) : Nat) = 2 from rfl,
    show ((3 : Fin 5) : Nat) = 3 from rfl, show ((4 : Fin 5) : Nat) = 4 from rfl] at s0 s1 s2 s3 s4
  unfold fval fieldPrime
  rw [e0, e1, e2, e3, e4, s0, s1, s2, s3, s4]
  omega

theorem fieldValue_weakReduce (v : FieldElement) : fieldValue (weakReduce v) = fieldValue v := by
  unfold fieldValue
  rw [← fval_weakReduce v, Nat.add_mul_mod_self_right]

theorem fval_canonicalReduce (v : FieldElement) : fval (canonicalReduce v) = fieldValue v :=
  fval_limbs51 (lt_trans (fieldValue_lt v) (by norm_num [fieldPrime]))

end Sys2Proof.Laws
end

