-- ==== Sys2Proof/Laws/Reference.lean ====
section
/-! SUPPORT. Tuples as points of the curve group, and what the steps of the reference algorithms of 44_scalar_mult_fixed.md
rules R173 to R175 and 45_scalar_mult_var.md rules R189, R190 do there. -/

namespace Sys2Proof.Laws

open Sys2Proof.Machine

section
variable [Fact (Nat.Prime fieldPrime)]

/-- The Extended tuple stands for the group element `g`. -/
def Stands (E : Extended) (g : CurvePoint) : Prop := ∃ P, ∃ hP : Good P, Rep E P ∧ hP.point = g

/-- The Niels tuple stands for the group element `g`. -/
def NielsStands (N : ProjectiveNiels) (g : CurvePoint) : Prop := ∃ P, ∃ hP : Good P, NielsRep N P ∧ hP.point = g

/-- The base point in the group. -/
def groupBase : CurvePoint := good_basePoint.point

theorem stands_identity : letI := curveGroup; Stands Extended.identity 0 := by
  refine ⟨_, good_zero, rep_identity, ?_⟩
  exact CurvePoint.ext (by simp [Good.point, Affine.zero]; rfl) (by simp [Good.point, Affine.zero]; rfl)

theorem stands_double {E : Extended} {g : CurvePoint} (h : Stands E g) :
    letI := curveGroup; Stands (doubleOnce E.toProjective) (g + g) := by
  obtain ⟨P, hP, hE, rfl⟩ := h
  exact ⟨_, good_add hP hP, rep_doubleOnce hP hE.toProjective, point_add hP hP⟩

theorem stands_add {E : Extended} {N : ProjectiveNiels} {g h : CurvePoint} (hE : Stands E g) (hN : NielsStands N h) :
    letI := curveGroup; Stands (addNiels E N) (g + h) := by
  obtain ⟨P, hP, hE, rfl⟩ := hE
  obtain ⟨Q, hQ, hN, rfl⟩ := hN
  exact ⟨_, good_add hP hQ, rep_addNiels hP hQ hE hN, point_add hP hQ⟩

theorem stands_doubleTimes {E : Extended} {g : CurvePoint} (h : Stands E g) (k : Nat) :
    letI := curveGroup; Stands (doubleTimes E.toProjective k) (2 ^ (k + 1) • g) := by
  obtain ⟨P, hP, hE, rfl⟩ := h
  exact ⟨_, good_mulPoint hP _, rep_doubleTimes hP hE.toProjective k, point_mulPoint hP _⟩

theorem point_neg {P : Affine} (hP : Good P) : letI := curveGroup; (good_neg hP).point = -hP.point := by
  refine (CurvePoint.ext ?_ ?_ : (good_neg hP).point = hP.point.negative) <;>
    simp [Good.point, Affine.neg, CurvePoint.negative]

theorem nielsStands_neg {N : ProjectiveNiels} {g : CurvePoint} (h : NielsStands N g) :
    letI := curveGroup; NielsStands N.neg (-g) := by
  obtain ⟨P, hP, hN, rfl⟩ := h
  exact ⟨_, good_neg hP, hN.neg, point_neg hP⟩

omit [Fact (Nat.Prime fieldPrime)] in
theorem Stands.toNiels {E : Extended} {g : CurvePoint} (h : Stands E g) : NielsStands E.toNiels g := by
  obtain ⟨P, hP, hE, rfl⟩ := h
  exact ⟨P, hP, hE.toNiels, rfl⟩

/-- A multiple of the base point in AffineNiels form, and its negative. -/
theorem nielsStands_base {k : Nat} (h : k < 2 ^ 256) : letI := curveGroup
    NielsStands (scalarMul k basePoint).toNiels.widen (k • groupBase) ∧
      NielsStands (scalarMul k basePoint).toNiels.neg.widen (-(k • groupBase)) := by
  rw [scalarMul_eq good_basePoint h]
  have hg := good_mulPoint good_basePoint k
  exact ⟨⟨_, hg, nielsRep_affine _, point_mulPoint good_basePoint k⟩,
    ⟨_, good_neg hg, nielsRep_neg_affine _, by rw [point_neg hg, point_mulPoint good_basePoint k]; rfl⟩⟩

omit [Fact (Nat.Prime fieldPrime)] in
/-- A tuple that stands for the group element of `P` represents `P` (rule R19). -/
theorem Stands.represents {E : Extended} {P : Affine} (hP : Good P) (h : Stands E hP.point) :
    E.represents P = true := by
  obtain ⟨Q, hQ, hE, he⟩ := h
  rw [represents_iff hP, ← hQ.point_inj hP he]; exact hE

omit [Fact (Nat.Prime fieldPrime)] in
theorem stands_of_valid {E : Extended} (h : E.valid = true) : Stands E (good_toAffine h).point :=
  ⟨_, good_toAffine h, rep_toAffine h, rfl⟩

/-! ## The steps of rule R175 -/

omit [Fact (Nat.Prime fieldPrime)] in
/-- The scan of rule R174 keeps the entry asked for. -/
theorem fixedSelect_entry (i m : Nat) (h1 : 1 ≤ m) (h8 : m ≤ 8) :
    (List.range 8).foldl (fun t j => if m = j + 1 then fixedTable i j else t) ⟨1, 1, 0⟩ = fixedTable i (m - 1) := by
  interval_cases m <;> rfl

/-- `select(i, e)` stands for `[e * 256^i]B` (rule R174). -/
theorem nielsStands_fixedSelect (i : Nat) (e : Int) (hi : i < 32) (he : |e| ≤ 8) : letI := curveGroup
    NielsStands (fixedSelect i e).widen ((e * 256 ^ i) • groupBase) := by
  let := curveGroup
  by_cases h0 : e = 0
  · subst h0
    refine ⟨_, good_zero, ?_, ?_⟩
    · have h : NielsRep (AffineNiels.widen ⟨1, 1, 0⟩) Affine.zero := by
        constructor <;> simp [AffineNiels.widen, Affine.zero]
      simpa [fixedSelect] using h
    · show _ = (0 * 256 ^ i : Int) • groupBase
      rw [zero_mul, zero_zsmul]
      exact CurvePoint.ext (by simp [Good.point, Affine.zero]; rfl) (by simp [Good.point, Affine.zero]; rfl)
  · have hm : 1 ≤ e.natAbs ∧ e.natAbs ≤ 8 := by rw [abs_le] at he; omega
    have hlt : e.natAbs * 256 ^ i < 2 ^ 256 := by
      calc e.natAbs * 256 ^ i ≤ 8 * 256 ^ 31 := Nat.mul_le_mul hm.2 (Nat.pow_le_pow_right (by norm_num) (by omega))
        _ < 2 ^ 256 := by decide +kernel
    obtain ⟨hp, hn⟩ := nielsStands_base hlt
    unfold fixedSelect
    rw [fixedSelect_entry i e.natAbs hm.1 hm.2, fixedTable, Nat.sub_add_cancel hm.1]
    simp only
    rw [← natCast_zsmul] at hp hn
    split_ifs with hneg
    · have : (e * 256 ^ i : Int) = -((e.natAbs * 256 ^ i : Nat) : Int) := by push_cast; rw [abs_of_neg hneg]; ring
      rw [this, neg_zsmul]; exact hn
    · have : (e * 256 ^ i : Int) = ((e.natAbs * 256 ^ i : Nat) : Int) := by push_cast; rw [abs_of_nonneg (by omega)]
      rw [this]; exact hp

/-- A run of steps of rule R175 adds the digits it uses, each with its power of 256. -/
theorem stands_fixedFold {digits : List Int} {P : Extended} {g : CurvePoint} (hd : ∀ i, |digits.getD i 0| ≤ 8)
    (hP : Stands P g) (pos : Nat → Nat) (n : Nat) (hn : n ≤ 32) : letI := curveGroup
    Stands ((List.range n).foldl (fun P i => fixedStep digits i P (pos i)) P)
      (g + (∑ i ∈ Finset.range n, digits.getD (pos i) 0 * 256 ^ i) • groupBase) := by
  let := curveGroup
  induction n with
  | zero => simpa using hP
  | succ n ih =>
    have := stands_add (ih (by omega)) (nielsStands_fixedSelect n (digits.getD (pos n) 0) (by omega) (hd _))
    rw [List.range_succ, List.foldl_append, Finset.sum_range_succ, add_zsmul, ← add_assoc]
    exact this

/-! ## The steps of rule R190 -/

/-- Entry `j` of the table of rule R189 stands for `[2j+1]A`. -/
theorem stands_variableNafPoint {A : Extended} {g : CurvePoint} (hA : Stands A g) (j : Nat) : letI := curveGroup
    Stands (variableNafPoint A j) ((2 * j + 1) • g) := by
  let := curveGroup
  induction j with
  | zero => simpa [variableNafPoint] using hA
  | succ j ih =>
    have := stands_add ih (stands_double hA).toNiels
    rw [show 2 * (j + 1) + 1 = (2 * j + 1) + 2 by ring, add_nsmul, two_nsmul]
    exact this

/-- A digit of `A` that is 0 or odd adds `[n]A` (rule R190). -/
theorem stands_addVariableDigit {A P : Extended} {a g : CurvePoint} (hA : Stands A a) (hP : Stands P g) {n : Int}
    (hn : n = 0 ∨ n % 2 = 1) : letI := curveGroup; Stands (addVariableDigit A P n) (g + n • a) := by
  let := curveGroup
  have ht := (stands_variableNafPoint hA ((n.natAbs - 1) / 2)).toNiels
  unfold addVariableDigit
  split_ifs with h1 h2
  · have := stands_add hP ht
    rwa [← natCast_zsmul, show ((2 * ((n.natAbs - 1) / 2) + 1 : Nat) : Int) = n by omega] at this
  · have := stands_add hP (nielsStands_neg ht)
    rwa [← natCast_zsmul, ← neg_zsmul, show -((2 * ((n.natAbs - 1) / 2) + 1 : Nat) : Int) = n by omega] at this
  · rw [show n = 0 by omega, zero_zsmul, add_zero]; exact hP

/-- A digit of `B` that is 0 or odd, and small enough for the table, adds `[n]B` (rule R190). -/
theorem stands_addBaseDigit {P : Extended} {g : CurvePoint} (hP : Stands P g) {n : Int}
    (hn : n = 0 ∨ n % 2 = 1) (hb : |n| < 2 ^ 7) : letI := curveGroup; Stands (addBaseDigit P n) (g + n • groupBase) := by
  let := curveGroup
  rw [abs_lt] at hb
  obtain ⟨hp, hneg⟩ := nielsStands_base (k := 2 * ((n.natAbs - 1) / 2) + 1)
    (lt_trans (show 2 * ((n.natAbs - 1) / 2) + 1 < 2 ^ 8 by omega) (by norm_num))
  unfold addBaseDigit
  split_ifs with h1 h2
  · have := stands_add hP hp
    rwa [← natCast_zsmul, show ((2 * ((n.natAbs - 1) / 2) + 1 : Nat) : Int) = n by omega] at this
  · have := stands_add hP hneg
    rwa [← natCast_zsmul, ← neg_zsmul, show -((2 * ((n.natAbs - 1) / 2) + 1 : Nat) : Int) = n by omega] at this
  · rw [show n = 0 by omega, zero_zsmul, add_zero]; exact hP

/-- One step of the ladder doubles and adds both digits (rule R190). -/
theorem stands_ladderStep {A P : Extended} {a g : CurvePoint} (hA : Stands A a) (hP : Stands P g) {d : Int × Int}
    (h1 : d.1 = 0 ∨ d.1 % 2 = 1) (h2 : d.2 = 0 ∨ d.2 % 2 = 1) (hb : |d.2| < 2 ^ 7) : letI := curveGroup
    Stands (ladderStep A P d) (g + g + d.1 • a + d.2 • groupBase) :=
  stands_addBaseDigit (stands_addVariableDigit hA (stands_double hP) h1) h2 hb

end

end Sys2Proof.Laws
end

