-- ==== Sys2Proof/Laws/Representative.lean ====
section
/-! SUPPORT. The representative `SMFB` and `SMVB` write meets 10_state.md rule R41, whatever `PT_REPR` is. -/

namespace Sys2Proof.Laws

open Sys2Proof.Machine

theorem canonicalTuple_represents {Q : Affine} (hQ : Good Q) : representsPoint (canonicalTuple Q) Q = true := by
  have hE : extendedOf (canonicalTuple Q) = Extended.ofAffine Q := by
    simp [extendedOf, canonicalTuple, Extended.ofAffine, fieldValue_limbs51 hQ.x_lt, fieldValue_limbs51 hQ.y_lt,
      fieldValue_limbs51 (fmul_lt _ _), fieldValue_limbs51 (show 1 < fieldPrime by decide +kernel)]
  rw [representsPoint, hE, (represents_iff hQ).2 (rep_ofAffine Q), Bool.and_true]
  simp [tupleBounded, canonicalTuple, limbsBounded_limbs51]

theorem ptRepresentative_represents {Q : Affine} (hQ : Good Q) (w : CommandWord) (s : State) :
    representsPoint (ptRepresentative w s Q) Q = true := by
  simp only [ptRepresentative]
  split_ifs with h
  · exact h
  · exact canonicalTuple_represents hQ

/-- The representative of a point depends on the two register files alone (rule R41). -/
theorem ptRepresentative_congr {s u : State} (hf : s.f = u.f) (hs : s.s = u.s) (w : CommandWord) (Q : Affine) :
    ptRepresentative w s Q = ptRepresentative w u Q := by
  unfold ptRepresentative
  rw [hf, hs]

theorem representsPoint_iff {t : PointLimbs} {Q : Affine} :
    representsPoint t Q = true ↔ tupleBounded t = true ∧ (extendedOf t).represents Q = true := by
  simp [representsPoint]

/-- The limbs of a free point are below `2^52` (rule R188). -/
theorem tupleBounded_freePointLimbs (n : Nat) : tupleBounded (freePointLimbs n) = true := by
  have h (b : BitVec 52) : b.toNat % 18446744073709551616 < 4503599627370496 :=
    lt_of_le_of_lt (Nat.mod_le _ _) b.isLt
  simp [tupleBounded, freePointLimbs, limbsBounded, Config.feOutBound, h]

end Sys2Proof.Laws
end

