-- ==== Sys2Proof/Laws/Results.lean ====
section
/-! SUPPORT. What each register write leaves behind, in the words of Safety.lean, and how a written point reads back
(10_state.md rules R31, R40, R41). -/

namespace Sys2Proof.Laws

open Sys2Proof.Machine

variable (s : State)

/-! ## Frames -/

theorem onlyField_writeField (r : FieldReg) (v : FieldElement) : OnlyField r s (s.writeField r v) :=
  ⟨fun _ h => writeField_other s v h, fun _ => by simp, by simp [SameControl], by simp [SameHost], rfl⟩

theorem onlyScalar_writeScalar (r : ScalarReg) (v : UnpackedScalar) : OnlyScalar r 0 s (s.writeScalar r v) :=
  ⟨fun _ => by simp, fun _ h => writeScalar_other s v h, by simp [SameControl], by simp [SameHost], by simp⟩

theorem onlyScalar_writeScalar_drawn (r : ScalarReg) (v : UnpackedScalar) :
    OnlyScalar r 1 s (s.writeScalar r v).drawn :=
  ⟨fun _ => by simp, fun _ h => writeScalar_other s v h, by simp [SameControl], by simp [SameHost], by simp⟩

theorem onlyPoint_writePoint (r : PointReg) (t : PointLimbs) : OnlyPoint r 0 s (s.writePoint r t) :=
  ⟨fun _ h => writePoint_other s r t h, fun _ => by simp, by simp [SameControl], by simp [SameHost], rfl⟩

theorem onlyPoint_writePoint_drawn (r : PointReg) (t : PointLimbs) : OnlyPoint r 1 s (s.writePoint r t).drawn :=
  ⟨fun _ h => writePoint_other s r t h, fun _ => by simp, by simp [SameControl], by simp [SameHost], rfl⟩

theorem onlyFault_raised (c : Cause) (w : CommandWord) : OnlyFault c w s (s.raised c w) :=
  ⟨rfl, rfl, rfl, rfl, rfl, by simp [SameHost], rfl⟩

/-! ## The bytes of the window -/

theorem peekByte_writeField (r : FieldReg) (v : FieldElement) {a : Nat} (h : ¬ fieldBytes r a) :
    (s.writeField r v).peekByte a = s.peekByte a := by
  refine peekByte_congr (peek_congr _ (fun i j hl => writeField_other s v ?_) (fun i j _ => by simp) (by simp))
  rintro rfl
  have hj := locate_eq_field hl
  refine h ?_
  simp only [fieldBytes, fieldOffset, Fin.val_zero] at hj ⊢
  omega

theorem peekByte_writeScalar (r : ScalarReg) (v : UnpackedScalar) {a : Nat} (h : ¬ scalarBytes r a) :
    (s.writeScalar r v).peekByte a = s.peekByte a := by
  refine peekByte_congr (peek_congr _ (fun i j hl => by simp) (fun i j hl => writeScalar_other s v ?_) (by simp))
  rintro rfl
  have hj := locate_eq_scalar hl
  refine h ?_
  simp only [scalarBytes, scalarOffset, Fin.val_zero] at hj ⊢
  omega

theorem peekByte_writePoint (r : PointReg) (t : PointLimbs) {a : Nat} (h : ¬ ∃ k, fieldBytes (slot r k) a) :
    (s.writePoint r t).peekByte a = s.peekByte a := by
  have hk := fun k => not_exists.1 h k
  rw [State.writePoint, peekByte_writeField _ _ _ (hk _), peekByte_writeField _ _ _ (hk _),
    peekByte_writeField _ _ _ (hk _), peekByte_writeField _ _ _ (hk _)]

theorem peekByte_drawn (a : Nat) : s.drawn.peekByte a = s.peekByte a := rfl

/-- A raised fault changes the bytes of `STATUS` and `FCMD` only. -/
theorem peekByte_raised (c : Cause) (w : CommandWord) {a : Nat} (h : ¬ (0x008 ≤ a ∧ a < 0x018)) :
    (s.raised c w).peekByte a = s.peekByte a := by
  refine peekByte_congr ?_
  have hl : ∀ n, (locate a).offset? = some n → n = a / 8 * 8 := fun _ => offset_locate
  generalize locate a = l at hl
  cases l with
  | status => exact absurd (hl _ rfl) (by omega)
  | fcmd => exact absurd (hl _ rfl) (by omega)
  | _ => rfl

/-! ## Reading a written point back -/

theorem limbsBounded_lt {v : FieldElement} (h : limbsBounded v = true) (j : Fin 5) : (v[j]).toNat < 2 ^ 52 := by
  simp only [limbsBounded, Bool.and_eq_true, decide_eq_true_eq, Config.feOutBound] at h
  fin_cases j
  exacts [h.1.1.1.1, h.1.1.1.2, h.1.1.2, h.1.2, h.2]

theorem tupleBounded_get {t : PointLimbs} (h : tupleBounded t = true) (k : Fin 4) : limbsBounded t[k] = true := by
  simp only [tupleBounded, Bool.and_eq_true] at h
  fin_cases k
  exacts [h.1.1.1, h.1.1.2, h.1.2, h.2]

theorem pointBounded_writePoint (r : PointReg) {t : PointLimbs} (h : tupleBounded t = true) :
    PointBounded r (s.writePoint r t) := by
  intro k j
  rw [writePoint_same]
  exact limbsBounded_lt (tupleBounded_get h k) j

theorem readExtended_writePoint (r : PointReg) (t : PointLimbs) : (s.writePoint r t).readExtended r = extendedOf t := by
  simp only [State.readExtended, State.slotValue, writePoint_same]
  rfl

/-- A point register that is not the destination reads as before (rule R31). -/
theorem readExtended_writePoint_other {r q : PointReg} (t : PointLimbs) (h : q ≠ r) :
    (s.writePoint r t).readExtended q = s.readExtended q := by
  simp only [State.readExtended, State.slotValue, writePoint_other s r t fun k hk => h (slot_inj.1 hk).1]

/-- The slots of a point written with `repr` hold the four values modulo `p` (rules R40, R132, R141). -/
theorem slotValue_writeExtended (r : PointReg) (w : CommandWord) (u : State) (E : Extended) :
    (s.writePoint r (reprExtended w u E)).readExtended r =
      ⟨E.X % fieldPrime, E.Y % fieldPrime, E.Z % fieldPrime, E.T % fieldPrime⟩ := by
  rw [readExtended_writePoint, extendedOf_reprExtended]

/-- A point written with `repr` represents what the tuple computed represents. -/
theorem rep_writeExtended (r : PointReg) (w : CommandWord) (u : State) {E : Extended} {P : Affine} (h : Rep E P) :
    Rep ((s.writePoint r (reprExtended w u E)).readExtended r) P := by
  rw [slotValue_writeExtended]; exact h.mod

/-- A representative reads back as the point and has limbs below `2^52` (rule R41). -/
theorem rep_writeRepresentative (r : PointReg) (w : CommandWord) (u : State) {P : Affine} (hP : Good P) :
    Rep ((s.writePoint r (ptRepresentative w u P)).readExtended r) P ∧
      PointBounded r (s.writePoint r (ptRepresentative w u P)) := by
  obtain ⟨h1, h2⟩ := representsPoint_iff.1 (ptRepresentative_represents hP w u)
  rw [readExtended_writePoint]
  exact ⟨(represents_iff hP).1 h2, pointBounded_writePoint _ _ h1⟩

end Sys2Proof.Laws
end

