-- ==== Sys2Proof/Tests/Slice0.lean ====
section
/-! SUPPORT. Tests with the expected results of spec/95_test_vectors.md (its vector's name stands in each comment), and a
witness for the hypotheses of each statement of Certificates/Slice0/Obligations.lean. -/

namespace Sys2Proof.Tests

set_option Elab.async false

open Sys2Proof.Machine Sys2Proof.Laws

/-! ## Helpers -/

/-- `p[i]` loaded with canonical limbs. -/
def loadPoint (i : PointReg) (E : Extended) (s : State) : State :=
  s.writePoint i #v[limbs51 E.X, limbs51 E.Y, limbs51 E.Z, limbs51 E.T]

/-- `s[i]` loaded with an integer. -/
def loadScalar (i : ScalarReg) (n : Nat) (s : State) : State := s.writeScalar i (limbs52 n)

/-- `f[i]` loaded with limbs. -/
def loadField (i : FieldReg) (v : FieldElement) (s : State) : State := s.writeField i v

/-- The host's next actions. -/
def queue (l : List HostAction) (s : State) : State := { s with host := l }

/-- The state after `PDBL p1, p0, 0` faulted (vector X3). -/
def faultedState : State := State.reset.raised .preconditionViolation 0x30800000

/-- `B` as `(x_B, y_B, 1, t_B)` (section 1). -/
def pointB : Extended :=
  ⟨0x216936d3cd6e53fec0a4e231fdd6dc5c692cc7609525a7b2c9562d608f25d51a,
   0x6666666666666666666666666666666666666666666666666666666666666658, 1,
   0x67875f0fd78b766566ea4e8e64abe37d20f09f80775152f56dde8ab3a5b7dda3⟩

/-- The identity `(0, 1, 1, 0)` (rule R13). -/
def pointO : Extended := ⟨0, 1, 1, 0⟩

/-- The Niels form of `B` (vector A2). -/
def nielsB : Extended :=
  ⟨0x07cf9d3a33d4ba65270b4898643d42c2cf932dc6fb8c0e192fbc93c6f58c3b85,
   0x44fd2f9298f81267a5c18434688f8a09fd399f05d140beb39d103905d740913e, 1,
   0x6f117b689f0c65a85a1b7dcbdd43598c26d9e823ccaac49eabc91205877aaa68⟩

/-- The values of vector A1. -/
def sumBB : Extended :=
  ⟨0x3b6f8891960f6ad45776d1e1213c1bd9de44f888163a76921515e6cf9f3fd67e,
   0x336d9ece4cdb30925921f40f14dab827d6e156675107378db6d34c9a874a007e,
   0x59e4ea1a52a20ea2fd9cb81712f675b450b27bff31b598ba722d5b0bf61c8608,
   0x1f6e08da2d298daafc6ea6fedd5e07c172749500483d139bc532c7e392cad989⟩

/-- `p0 = B`, `p1 = O`. -/
def twoPoints : State := loadPoint 1 pointO (loadPoint 0 pointB State.reset)

/-! ## Well-formed terms (rule R97(b)) -/

theorem test_wellFormed_general : (Instr.mmul 5 7 7).wellFormed = true := by decide

theorem test_illFormed_sR : (Instr.mmul sR 0 1).wellFormed = false := by decide

theorem test_illFormed_sRR : (Instr.mmul sRR 0 1).wellFormed = false := by decide

/-! ## Decoding: the words of section 3 -/

theorem test_decode_mmul : decode 0x11002000 = .command (.mmul 2 0 1) := by decide
theorem test_decode_mmul_sRR : decode 0x1108e000 = .command (.mmul 2 2 sRR) := by decide
theorem test_decode_fred : decode 0x20800000 = .command (.fred 1 0) := by decide
theorem test_decode_fredc : decode 0x2ffc0001 = .command (.fredc 31 31) := by decide
theorem test_decode_pdbl : decode 0x308000ff = .command (.pdbl 1 0 255) := by decide
theorem test_decode_paddE : decode 0x41844000 = .command (.paddE 3 1 2) := by decide
theorem test_decode_paddPN : decode 0x41002001 = .command (.paddPN 2 0 1) := by decide
theorem test_decode_paddAN : decode 0x41002002 = .command (.paddAN 2 0 1) := by decide
theorem test_decode_smvb : decode 0x50840200 = .command (.smvb 1 1 0 2) := by decide
theorem test_decode_smfb : decode 0x63940000 = .command (.smfb 7 5) := by decide

/-- One word written out field by field from rule R91: `SMVB p3, s0, p1, s1`. -/
theorem test_decode_bits : decode (0b0101#4 ++ 0b00011#5 ++ 0b00000#5 ++ 0b00001#5 ++ 0b00001#5 ++ 0b00000000#8) =
    .command (.smvb 3 0 1 1) := by decide

theorem test_decode_X1 : decode 0x00000000 = .illegal .reservedOpcode := by decide
theorem test_decode_X2 : decode 0x70000000 = .illegal .reservedOpcode := by decide
theorem test_decode_X3 : decode 0x30800000 = .command (.pdbl 1 0 0) := by decide
theorem test_decode_X4 : decode 0x13002000 = .illegal .hardwiredDestination := by decide
theorem test_decode_X5 : decode 0x14002000 = .illegal .indexOutOfRange := by decide
theorem test_decode_X6 : decode 0x41002003 = .illegal .undefinedFunction := by decide
theorem test_decode_X7 : decode 0x20800002 = .illegal .undefinedFunction := by decide
theorem test_decode_X8 : decode 0x20802000 = .illegal .nonZeroField := by decide
theorem test_decode_X9 : decode 0x34800001 = .illegal .indexOutOfRange := by decide
theorem test_decode_X10 : decode 0x34800000 = .illegal .indexOutOfRange := by decide
theorem test_decode_X11 : decode 0x60000001 = .illegal .undefinedFunction := by decide

/-! ## The field reducer: vectors FR1, FR8, FR9 -/

theorem test_fred_FR1 : weakReduce (Vector.replicate 5 0xffffffffffffffff) =
    #v[0x8000000025fec, 0x8000000001ffe, 0x8000000001ffe, 0x8000000001ffe, 0x8000000001ffe] := by decide

theorem test_fred_FR8 : ∃ t, exec (.fred 1 0) (loadField 0
      #v[0x8000000000005, 0x8000000000006, 3, 0x10000000000009, 0x20000000000001] State.reset) = .next t ∧
    t.f[1] = #v[0x51, 7, 4, 9, 3] := ⟨_, rfl, by decide⟩

theorem test_fredc_FR9 : ∃ t, exec (.fredc 0 0) (loadField 0 #v[0xfffffffffffff, 0x7ffffffffffff, 0, 0, 0]
      State.reset) = .next t ∧ t.f[0] = #v[0x7ffffffffffff, 0, 1, 0, 0] := ⟨_, rfl, by decide +kernel⟩

theorem test_fredc_passes_FR1 : canonicalByPasses (Vector.replicate 5 0xffffffffffffffff) =
    #v[0x25fff, 0x1fff, 0x1fff, 0x1fff, 0x1fff] := by decide +kernel

/-! ## The point doubler: vectors D1, D6 -/

theorem test_pdbl_D1 : ∃ t, exec (.pdbl 1 0 1) twoPoints = .next t ∧ t.readExtended 1 =
    ⟨0x4edbe2246583dab515ddb478484f06f677913e22058e9da4854579b3e7cff596,
     0x4cdb67b39336cc2496487d03c536ae09f5b85599d441cde36db4d326a1d28016,
     0x16793a8694a883a8bf672e05c4bd9d6d142c9effcc6d662e9c8b56c2fd872182,
     0x67db82368b4a636abf1ba9bfb75781f05c9d2540120f44e6f14cb1f8e4b2b654⟩ :=
  ⟨_, rfl, (slotValue_writeExtended _ 1 _ _ _).trans (by decide +kernel)⟩

theorem test_pdbl_D6 : ∃ t, exec (.pdbl 0 0 3) (loadPoint 0
      ⟨0x1fd5b9a006394a28e933993238de4abb5c193c7013e5e238dea14646c545d14a,
       0x7a03ac9277fdc74ec6cc392cfa53202a0f67100d760b3cba4fd84d3d706a17c7, 1, 0⟩ State.reset) = .next t ∧
    t.readExtended 0 =
      ⟨0, 0x32559a021998ce68d4acfb20b056905711a62e0a73e4c656469bc19d51777e9b,
       0x32559a021998ce68d4acfb20b056905711a62e0a73e4c656469bc19d51777e9b, 0⟩ :=
  ⟨_, rfl, (slotValue_writeExtended _ 0 _ _ _).trans (by decide +kernel)⟩

/-! ## The point adder: vectors A1, A2, A3, A5 -/

theorem test_paddE_A1 : ∃ t, exec (.paddE 2 0 0) twoPoints = .next t ∧ t.readExtended 2 = sumBB :=
  ⟨_, rfl, (slotValue_writeExtended _ 2 _ _ _).trans (by decide +kernel)⟩

theorem test_paddPN_A2 : ∃ t, exec (.paddPN 2 0 1) (loadPoint 1 nielsB twoPoints) = .next t ∧
    t.readExtended 2 = sumBB :=
  ⟨_, rfl, (slotValue_writeExtended _ 2 _ _ _).trans (by decide +kernel)⟩

theorem test_paddAN_A3 : ∃ t, exec (.paddAN 2 0 1)
      (loadPoint 1 ⟨nielsB.X, nielsB.Y, nielsB.T, 7⟩ twoPoints) = .next t ∧ t.readExtended 2 = sumBB :=
  ⟨_, rfl, (slotValue_writeExtended _ 2 _ _ _).trans (by decide +kernel)⟩

/-- Vector A5: `B + (-B)` with the host's negation of rule R147. -/
theorem test_paddE_A5 : addNiels pointB pointB.neg.toNiels =
    ⟨0, 0x59e4ea1a52a20ea2fd9cb81712f675b450b27bff31b598ba722d5b0bf61c8608,
     0x59e4ea1a52a20ea2fd9cb81712f675b450b27bff31b598ba722d5b0bf61c8608, 0⟩ := by decide +kernel

/-! ## The Montgomery multiplier: vectors M6, M7 -/

theorem test_mmul_M6 : ∃ t, exec (.mmul 5 0 sRR) (loadScalar 0 (2 ^ 256 - 1) State.reset) = .next t ∧
    t.readScalar 5 = #v[0xd0f4228b36149, 0x7d970f344f4a8, 0xf5be671a13eab, 0xa3dceec73d217, 0x99411b7c309] := by
  refine ⟨_, by simp only [exec, execMmul]; rw [if_pos (by decide), if_pos (by decide +kernel)], ?_⟩
  rw [writeScalar_same _ _ (by decide)]
  decide +kernel

/-- Vector M7 through the limb-wise listing of rule R158. -/
theorem test_mmul_limbwise_M7 : montLimbwise (Vector.replicate 5 0xfffffffffffff) #v[1, 0, 0, 0, 0] =
    sval #v[0xe2bfc5367842a, 0x10ff49efe0c98, 0x7005c9419b862, 0x16e7c9eb18abc, 0x36249390d90] := by decide +kernel

/-! ## The scalar multiplications: vectors F2, F8, V5, V9 and the reference algorithms -/

/-- Vector F8, the point `SMFB` must represent. -/
theorem test_smfb_F8 :
    scalarMul 0x4fe94d9006f020a5a3c080d96827fffd3c010ac0f12e7a42cb33284f86837c30 basePoint =
    ⟨0x55d0e09a2b9d34292297e08d60d0f620c513d47253187c24b12786bd777645ce,
     0x1a5107f7681a02af2523a6daf372e10e3a0764c9d3fe4bd5b70ab18201985ad7⟩ :=
  (scalarMul_eq good_basePoint (by norm_num)).trans
    ((mulPoint_compute good_basePoint _ (by norm_num)).trans (by decide +kernel))

/-- Vector F2 with the reference algorithm of rule R175. -/
theorem test_smfb_reference_F2 : fixedReference 1 =
    ⟨0x66e87506f31c1c51fa379a8cd269e2d4c94299f02b4e84313779449bfd84dfdd,
     0x70ba1e3de729d343a31e6f0318db4c6b19169c76bbf7663894a79023bff46ec9,
     0x6ce8a5cd60f448148be60ac3df121f85df5c43946af53fc6b9d1742caff18a80,
     0x6bed2a6bf5b016a7fb5faed70ebb1bdd6dcee18cef72035a92c76a16646a4cad⟩ := by decide +kernel

/-- Vector V5's inputs. -/
def pointA5 : Extended :=
  ⟨0x49fda73eade3587bfcef7cf7d12da5de5c2819f93e1be1a591409cc0322ef233,
   0x5f4825b298feae6fe02c6e148992466631282eca89430b5d10d21f83d676c8ed, 1,
   0x745c562c9c593d4c3160ea508736c7f9afb94e85000926bf641950bcf3e801d0⟩

/-- Vector V5's affine point with the reference algorithm of rule R190 (log entry 20 says why not its tuple). -/
theorem test_smvb_reference_V5 : (variableReference
    0x0123456789abcdef0123456789abcdef0123456789abcdef0123456789abcdef pointA5
    0x0fedcba9876543210fedcba9876543210fedcba9876543210fedcba987654321).toAffine =
    ⟨0x692f8f205ccd762b9dc88cf82644c25504761cad94b9e8a50a67adec6b990609,
     0x64490e5a19b2eaa54738779d1a1b65d867f5bc32881268e256f6edad31fe2a7b⟩ := by decide +kernel

/-- Vector V9: `(1, 1, 1, 1)` is not on the curve, and `SMVB` raises no fault. -/
theorem test_smvb_V9 : ∃ t, exec (.smvb 2 0 1 1) (loadScalar 0 1 (loadPoint 1 ⟨1, 1, 1, 1⟩ State.reset)) = .next t ∧
    t.fault = 0 ∧ t.draws = 1 := by
  refine ⟨_, by simp only [exec, execSmvb]; rw [if_pos (by decide +kernel), if_neg (by decide +kernel)], ?_, ?_⟩ <;> rfl

/-! ## The recodings: section 6 and section 7 -/

theorem test_radix16_max : radix16 (2 ^ 255 - 1) = -1 :: List.replicate 62 0 ++ [8] := by decide +kernel

theorem test_radix16_sevens :
    radix16 0x7777777777777777777777777777777777777777777777777777777777777778 = List.replicate 63 (-8) ++ [8] := by
  decide +kernel

theorem test_naf_23 : (naf 23 5).take 6 = [-9, 0, 0, 0, 0, 1] := by decide +kernel

theorem test_naf_255 : (naf 255 8).take 9 = [-1, 0, 0, 0, 0, 0, 0, 0, 1] := by decide +kernel

/-! ## The window and the faults: vectors W2 to W9, X1, X3 -/

theorem test_window_W2 : State.reset.peek (locate 0x380) = some 0xf48bd6721e6ed := by decide +kernel

theorem test_window_W3 : step (queue [wr 0x380 0] State.reset) = .next State.reset := by rfl

theorem test_window_W4 : ∃ t, step (queue [wr 0x200 0xffffffffffffffff] State.reset) = .next t ∧
    t.peek (locate 0x200) = some 0x000fffffffffffff := ⟨_, rfl, by decide +kernel⟩

theorem test_window_W5 : ∃ t, step (queue [wr 0x800 0xffffffffffffffff] State.reset) = .next t ∧
    t.peek (locate 0x800) = some 0xffffffffffffffff := ⟨_, rfl, by decide +kernel⟩

theorem test_window_W6 : step (queue [wr 0x008 0xff] State.reset) = .next State.reset := by rfl

/-- Vector W7: the upper half of the value is ignored. -/
theorem test_window_W7 : step (queue [wr 0x000 0x0000000120800000] twoPoints) = exec (.fred 1 0) twoPoints := by rfl

theorem test_fault_X1 : ∃ t, step (queue [wr 0x000 0] State.reset) = .next t ∧ t.statusWord = 0x11 ∧ t.fcmdWord = 0 :=
  ⟨_, rfl, by decide⟩

theorem test_fault_X3 : ∃ t, step (queue [wr 0x000 0x30800000] State.reset) = .next t ∧ t.statusWord = 0x21 ∧
    t.fcmdWord = 0x30800000 := ⟨_, rfl, by decide⟩

/-- Vector W8: a command after the fault is dropped. -/
theorem test_fault_W8 : step (queue [cmd (.fred 1 0)] faultedState) = .next faultedState := by rfl

/-- Vector W9: the window still works in the faulted state. -/
theorem test_fault_W9 : ∃ t, step (queue [wr 0x840 5] faultedState) = .next t ∧ t.peek (locate 0x840) = some 5 :=
  ⟨_, rfl, by decide +kernel⟩

/-! ## Witnesses: the hypotheses of each statement can be met -/

/-- `queue` and the queue's rest, for the statements about a step. -/
theorem queue_host (l : List HostAction) (s : State) : (queue l s).host = l := rfl

theorem witness_DecodeOfEncodeIsTheCommand : (Instr.mmul 5 7 7).wellFormed = true ∧ (Instr.mmul 0 0 0).wellFormed = true ∧
    (Instr.pdbl 7 7 255).wellFormed = true := by decide

theorem witness_EncodeOfDecodeIsTheWord : decode 0x2ffc0001 = .command (.fredc 31 31) := by decide

theorem witness_DecoderMatchesOpcodeTable : legalByTable 0x1108e000 = true ∧ legalByTable 0x13002000 = false ∧
    (⟨"PDBL", 0xF003FF00, 0x30000000⟩ : OpcodeRow) ∈ opcodeTable ∧
    (⟨"PDBL", 0xF003FF00, 0x30000000⟩ : OpcodeRow).accepts 0x308000ff = true ∧
    decode 0x308000ff = .command (.pdbl 1 0 255) := by decide

theorem witness_StepRunsTheDecodedCommand :
    (queue [.memWrite 0x000 8 0x1_20800000] State.reset).host = [.memWrite 0x000 8 0x1_20800000] ∧
    (queue [.memWrite 0x000 8 0x1_20800000] State.reset).fault = 0 ∧
    decode ((0x1_20800000 : HostWord).extractLsb' 0 32) = .command (.fred 1 0) ∧
    State.reset.fault = 0 ∧ 0x20800000 < 2 ^ 32 ∧ decodeTableWord 32 0x20800000 = some (.fred 1 0) := by decide

theorem witness_ReservedOpcodesRaiseIllegalCommand :
    (queue [.memWrite 0x000 8 0x7fffffff] State.reset).fault = 0 ∧
    7 ≤ ((0x7fffffff : HostWord).extractLsb' 28 4).toNat ∧ 7 ≤ ((0xf0000000 : HostWord).extractLsb' 28 4).toNat ∧
    ((0x0fffffff : HostWord).extractLsb' 28 4).toNat = 0 ∧
    ((0x10000000 : HostWord).extractLsb' 28 4).toNat = 1 ∧ ((0x60000000 : HostWord).extractLsb' 28 4).toNat = 6 := by
  decide

theorem witness_IllegalWordsRaiseIllegalCommand : ∃ (s : State) (v : HostWord) (rest : List HostAction),
    s.host = .memWrite 0x000 8 v :: rest ∧ s.fault = 0 ∧
    ∀ i : Instr, i.wellFormed = true → encode i ≠ v.extractLsb' 0 32 := by
  refine ⟨queue [wr 0x000 0] State.reset, 0, [], rfl, rfl, fun i _ h => ?_⟩
  have hop : CommandWord.op (encode i) = 0 := by rw [h]; decide
  cases i <;> simp [encode] at hop

theorem witness_FaultEntryIsPrecise : ∃ t, step (queue [wr 0x000 0x30800000] State.reset) = .next t ∧
    (queue [wr 0x000 0x30800000] State.reset).fault = 0 ∧ t.fault = 1 ∧ t.cause = 2 :=
  ⟨_, rfl, by decide⟩

theorem witness_FaultEntryIsPrecise_illegal : ∃ t, step (queue [wr 0x000 0x70000000] State.reset) = .next t ∧
    (queue [wr 0x000 0x70000000] State.reset).fault = 0 ∧ t.fault = 1 ∧ t.cause = 1 :=
  ⟨_, rfl, by decide⟩

theorem witness_FaultedEngineDropsCommands : faultedState.fault = 1 ∧
    (queue [.memWrite 0x000 8 0x20800000] faultedState).host = [.memWrite 0x000 8 0x20800000] ∧
    (queue [.memWrite (fieldOffset 31 4) 8 1] faultedState).host = [.memWrite (fieldOffset 31 4) 8 1] ∧
    (queue [.memWrite (scalarOffset 5 4) 8 1] faultedState).host = [.memWrite (scalarOffset 5 4) 8 1] ∧
    (queue [.memWrite 0x3e0 8 1] faultedState).host = [.memWrite 0x3e0 8 1] ∧ ¬ (7 : ScalarReg).val < 6 ∧
    0x3e0 = scalarOffset 7 4 ∧ (queue [.memRead 0xfe0 8] faultedState).host = [.memRead 0xfe0 8] ∧ 0xfe0 < 0x1000 ∧ 0xfe0 % 8 = 0 ∧
    faultedState.peek (locate 0xfe0) = some 0 := by decide +kernel

theorem witness_OnlyResetLeavesTheFaultedState : faultedState.fault = 1 ∧
    (∃ t, step (queue [wr 0x000 0x20800000] faultedState) = .next t ∧ t.fault = 1) ∧
    (∃ t, step (queue [.reset] faultedState) = .next t ∧ t.fault = 0) :=
  ⟨rfl, ⟨_, rfl, rfl⟩, ⟨_, rfl, rfl⟩⟩

theorem witness_FredIsOneParallelCarryPass :
    (loadField 31 (Vector.replicate 5 0xffffffffffffffff) State.reset).f[31] = Vector.replicate 5 0xffffffffffffffff := by
  decide

theorem witness_FredKeepsTheValueAndBoundsTheLimbs :
    (∀ j : Fin 5, ((loadField 0 (Vector.replicate 5 0x7ffffffffffff) State.reset).f[0][j]).toNat < 2 ^ 51) ∧
    (loadField 0 (limbs51 fieldPrime) State.reset).f[0] = limbs51 fieldPrime := by decide +kernel

theorem witness_FredcWritesTheCanonicalLimbs :
    (loadField 0 (limbs51 (2 ^ 255 - 19)) State.reset).f[0] = limbs51 (2 ^ 255 - 19) ∧
    (loadField 0 #v[0x7ffffffffffee, 0x7ffffffffffff, 0x7ffffffffffff, 0x7ffffffffffff, 0x7ffffffffffff]
      State.reset).f[0] =
      #v[0x7ffffffffffee, 0x7ffffffffffff, 0x7ffffffffffff, 0x7ffffffffffff, 0x7ffffffffffff] := by decide +kernel

theorem witness_PdblOnceWritesTheDoublingFormulas : ∃ X Y Z Cx Cy Cz Ct : Int, X = twoPoints.slotValue 0 0 ∧
    Y = twoPoints.slotValue 0 1 ∧ Z = twoPoints.slotValue 0 2 ∧ Cx = (X + Y) * (X + Y) - (Y * Y + X * X) ∧
    Cy = Y * Y + X * X ∧ Cz = Y * Y - X * X ∧ Ct = 2 * Z * Z - Cz :=
  ⟨_, _, _, _, _, _, _, rfl, rfl, rfl, rfl, rfl, rfl, rfl⟩

theorem witness_PdblRepeatsTheDoubling : (1 : BitVec 8) ≠ 0 ∧ (1 : BitVec 8) ≠ 255 ∧ (254 : BitVec 8) ≠ 255 ∧
    (255 : BitVec 8) ≠ 0 := by decide

theorem witness_PdblZeroCountViolatesThePrecondition : (0 : BitVec 8) = 0 ∧ (1 : BitVec 8) ≠ 0 := by decide

theorem witness_PdblMultipliesByPowersOfTwo : (255 : BitVec 8) ≠ 0 ∧ (twoPoints.readProjective 0).valid = true := by
  decide +kernel

theorem witness_PdblCornerCases :
    (loadPoint 0 pointO State.reset).readProjective 0 = ⟨0, 1, 1⟩ ∧
    (loadPoint 0 ⟨0, fieldPrime - 1, 1, 0⟩ State.reset).readProjective 0 = ⟨0, fieldPrime - 1, 1⟩ ∧
    (loadPoint 0 ⟨0, 0, 0, 0⟩ State.reset).readProjective 0 = ⟨0, 0, 0⟩ := by decide +kernel

theorem witness_PaddEWritesTheUnifiedSum : ∃ X1 Y1 Z1 T1 X2 Y2 Z2 T2 PP MM TT ZZ2 : Int,
    X1 = twoPoints.slotValue 0 0 ∧ Y1 = twoPoints.slotValue 0 1 ∧ Z1 = twoPoints.slotValue 0 2 ∧
    T1 = twoPoints.slotValue 0 3 ∧ X2 = twoPoints.slotValue 1 0 ∧ Y2 = twoPoints.slotValue 1 1 ∧
    Z2 = twoPoints.slotValue 1 2 ∧ T2 = twoPoints.slotValue 1 3 ∧ PP = (Y1 + X1) * (Y2 + X2) ∧
    MM = (Y1 - X1) * (Y2 - X2) ∧ TT = T1 * (2 * curveD * T2) ∧ ZZ2 = 2 * (Z1 * Z2) :=
  ⟨_, _, _, _, _, _, _, _, _, _, _, _, rfl, rfl, rfl, rfl, rfl, rfl, rfl, rfl, rfl, rfl, rfl, rfl⟩

theorem witness_PaddPNWritesTheUnifiedSum : ∃ X1 Y1 Z1 T1 N0 N1 N2 N3 PP MM TT ZZ2 : Int,
    X1 = twoPoints.slotValue 0 0 ∧ Y1 = twoPoints.slotValue 0 1 ∧ Z1 = twoPoints.slotValue 0 2 ∧
    T1 = twoPoints.slotValue 0 3 ∧ N0 = twoPoints.slotValue 1 0 ∧ N1 = twoPoints.slotValue 1 1 ∧
    N2 = twoPoints.slotValue 1 2 ∧ N3 = twoPoints.slotValue 1 3 ∧ PP = (Y1 + X1) * N0 ∧ MM = (Y1 - X1) * N1 ∧
    TT = T1 * N3 ∧ ZZ2 = 2 * (Z1 * N2) :=
  ⟨_, _, _, _, _, _, _, _, _, _, _, _, rfl, rfl, rfl, rfl, rfl, rfl, rfl, rfl, rfl, rfl, rfl, rfl⟩

theorem witness_PaddANWritesTheUnifiedSum : ∃ X1 Y1 Z1 T1 N0 N1 N2 PP MM TT ZZ2 : Int,
    X1 = twoPoints.slotValue 0 0 ∧ Y1 = twoPoints.slotValue 0 1 ∧ Z1 = twoPoints.slotValue 0 2 ∧
    T1 = twoPoints.slotValue 0 3 ∧ N0 = twoPoints.slotValue 1 0 ∧ N1 = twoPoints.slotValue 1 1 ∧
    N2 = twoPoints.slotValue 1 2 ∧ PP = (Y1 + X1) * N0 ∧ MM = (Y1 - X1) * N1 ∧ TT = T1 * N2 ∧ ZZ2 = 2 * Z1 :=
  ⟨_, _, _, _, _, _, _, _, _, _, _, rfl, rfl, rfl, rfl, rfl, rfl, rfl, rfl, rfl, rfl, rfl⟩

/-- Both operands valid: `B` and the identity. -/
theorem witness_PaddAddsPoints_E : (twoPoints.readExtended 0).valid = true ∧ (twoPoints.readExtended 1).valid = true := by
  decide +kernel

/-- `B` and the ProjectiveNiels form of `B`. -/
theorem witness_PaddAddsPoints_PN : pointB.valid = true ∧ ((loadPoint 1 nielsB twoPoints).readExtended 0).valid = true ∧
    (loadPoint 1 nielsB twoPoints).readProjectiveNiels 1 =
      ⟨pointB.toNiels.n0, pointB.toNiels.n1, pointB.Z % fieldPrime, pointB.toNiels.n3⟩ := by decide +kernel

/-- `B` and the AffineNiels form of `B`. -/
theorem witness_PaddAddsPoints_AN : basePoint.x < fieldPrime ∧ basePoint.y < fieldPrime ∧ basePoint.onCurve = true ∧
    (loadPoint 1 ⟨nielsB.X, nielsB.Y, nielsB.T, 0⟩ twoPoints).readAffineNiels 1 = basePoint.toNiels ∧
    ((loadPoint 1 ⟨nielsB.X, nielsB.Y, nielsB.T, 0⟩ twoPoints).readExtended 0).valid = true := by decide +kernel

/-- The largest register value times `L - 1` is inside the value precondition. -/
def insideState : State := loadScalar 1 (groupOrder - 1) (loadScalar 0 (montRadix - 1) State.reset)

/-- The largest register value times itself is outside (vector M12). -/
def outsideState : State := loadScalar 1 (montRadix - 1) (loadScalar 0 (montRadix - 1) State.reset)

theorem inside_iff (a b : Nat) : a * b < 2 ^ 260 * groupOrder ↔ montInRange a b = true := by
  rw [montInRange_iff, montRadix_eq]

theorem witness_MmulIsTheReducedMontgomeryProduct : (5 : ScalarReg).val < 6 ∧
    insideState.scalar 0 * insideState.scalar 1 < 2 ^ 260 * groupOrder := by
  rw [inside_iff]; decide +kernel

theorem witness_MmulOutOfRangeWritesOnlyItsDestination : (5 : ScalarReg).val < 6 ∧
    ¬ outsideState.scalar 0 * outsideState.scalar 1 < 2 ^ 260 * groupOrder ∧
    insideState.scalar 1 < groupOrder ∧
    (loadScalar 1 (2 ^ 256 - 1) (loadScalar 0 (2 ^ 256 - 1) State.reset)).scalar 0 < 2 ^ 256 ∧
    (loadScalar 1 (2 ^ 256 - 1) (loadScalar 0 (2 ^ 256 - 1) State.reset)).scalar 1 < 2 ^ 256 := by
  rw [inside_iff]; decide +kernel

theorem witness_MmulHardwiredDestinationIsIllegal : ¬ sR.val < 6 ∧ ¬ sRR.val < 6 := by decide

/-- Vector M9: `3R` and `7R`, both in Montgomery form; then `1`, `0`, and the two constants as operands. -/
theorem witness_MmulMontgomeryDomain : (0 : ScalarReg).val < 6 ∧
    montInRange (3 * montR % groupOrder) (7 * montR % groupOrder) = true ∧
    (loadScalar 1 (7 * montR % groupOrder) (loadScalar 0 (3 * montR % groupOrder) State.reset)).scalar 0 =
      3 * montR % groupOrder ∧
    (loadScalar 1 (7 * montR % groupOrder) (loadScalar 0 (3 * montR % groupOrder) State.reset)).scalar 1 =
      7 * montR % groupOrder ∧
    (loadScalar 1 1 State.reset).scalar 1 = 1 ∧ State.reset.scalar 1 = 0 ∧
    montInRange (insideState.scalar 0) (insideState.scalar sR) = true ∧
    montInRange (insideState.scalar 0) (insideState.scalar sRR) = true ∧
    montInRange (insideState.scalar sR) (insideState.scalar sR) = true ∧
    montInRange (insideState.scalar sRR) ((loadScalar 1 1 State.reset).scalar 1) = true := by decide +kernel

theorem witness_MmulLimbwiseRealisationAgrees : (2 : ScalarReg).val < 6 ∧
    insideState.scalar 1 * insideState.scalar 0 < 2 ^ 260 * groupOrder := by
  rw [inside_iff]; decide +kernel

theorem witness_SmulIsTheProductModL : (2 : ScalarReg).val < 6 ∧ (queue (smul 2 0 1) insideState).fault = 0 ∧
    (queue (smul 2 0 1) insideState).scalar 0 * (queue (smul 2 0 1) insideState).scalar 1 < 2 ^ 260 * groupOrder ∧
    (queue (smul 2 0 1) insideState).host = smul 2 0 1 ++ [] := by
  rw [inside_iff]; decide +kernel

/-- `s0 = 2^255 - 1`, `s1 = 2^255`, `p0 = B`: the two sides of the scalar precondition. -/
def scalarEdges : State := loadScalar 1 (2 ^ 255) (loadScalar 0 (2 ^ 255 - 1) twoPoints)

theorem witness_SmfbRepresentsTheMultipleOfB : scalarEdges.scalar 0 < 2 ^ 255 := by decide +kernel

theorem witness_SmfbLargeScalarViolatesThePrecondition : 2 ^ 255 ≤ scalarEdges.scalar 1 ∧
    scalarEdges.scalar 0 < 2 ^ 255 := by decide +kernel

/-- `s0 = L + 5`, `s1 = L - 1`, `s2 = 5`, `s3 = 4`. -/
def homomorphismState : State :=
  loadScalar 3 4 (loadScalar 2 5 (loadScalar 1 (groupOrder - 1) (loadScalar 0 (groupOrder + 5) State.reset)))

theorem witness_SmfbIsAHomomorphism : homomorphismState.scalar 0 < 2 ^ 255 ∧ homomorphismState.scalar 1 < 2 ^ 255 ∧
    homomorphismState.scalar 2 = homomorphismState.scalar 0 % groupOrder ∧
    homomorphismState.scalar 3 = (homomorphismState.scalar 0 + homomorphismState.scalar 1) % groupOrder ∧
    (7 : PointReg) ≠ 0 ∧ (7 : PointReg) ≠ 6 := by decide +kernel

theorem witness_RadixSixteenRecoding : 2 ^ 255 - 1 < 2 ^ 255 ∧ (radix16 (2 ^ 255 - 1)).length = 64 ∧
    digitSum 16 (radix16 (2 ^ 255 - 1)) = ((2 ^ 255 - 1 : Nat) : Int) ∧
    (∀ i, i < 63 → -8 ≤ (radix16 (2 ^ 255 - 1)).getD i 0 ∧ (radix16 (2 ^ 255 - 1)).getD i 0 < 8) := by decide +kernel

theorem witness_SmfbReferenceAlgorithmIsCorrect : 2 ^ 255 - 1 < 2 ^ 255 ∧ 0 < 2 ^ 255 := by norm_num

theorem witness_SmvbRepresentsTheDoubleMultiple : scalarEdges.scalar 0 < 2 ^ 255 ∧
    (scalarEdges.readExtended 0).valid = true := by decide +kernel

/-- Vector V9, and a tuple on the curve with a wrong `T`. -/
theorem witness_SmvbInvalidPointWritesAnyBoundedLimbs :
    ((loadPoint 1 ⟨1, 1, 1, 1⟩ scalarEdges).readExtended 1).valid = false ∧
    (loadPoint 1 ⟨1, 1, 1, 1⟩ scalarEdges).scalar 0 < 2 ^ 255 ∧
    pointB.X * pointB.Y % fieldPrime ≠ pointB.Z * 0 % fieldPrime := by decide +kernel

theorem witness_SmvbLargeScalarViolatesThePrecondition :
    (2 ^ 255 ≤ scalarEdges.scalar 1 ∧ ¬ 2 ^ 255 ≤ scalarEdges.scalar 0) := by decide +kernel

/-- `a = 0` with any valid `A`; then `A = B` with the sum of the scalars modulo `L` in `s3`. -/
theorem witness_SmvbAgreesWithSmfb : scalarEdges.scalar 2 = 0 ∧ scalarEdges.scalar 0 < 2 ^ 255 ∧
    (scalarEdges.readExtended 1).valid = true ∧
    ((loadPoint 0 pointB homomorphismState).readExtended 0).valid = true ∧
    ((loadPoint 0 pointB homomorphismState).readExtended 0).represents basePoint = true ∧
    (loadPoint 0 pointB homomorphismState).scalar 3 =
      ((loadPoint 0 pointB homomorphismState).scalar 0 + (loadPoint 0 pointB homomorphismState).scalar 1) % groupOrder := by
  decide +kernel

theorem witness_NonAdjacentFormRecoding : 2 ^ 255 - 1 < 2 ^ 255 ∧ (naf (2 ^ 255 - 1) 2).getD 0 0 ≠ 0 ∧
    (naf (2 ^ 255 - 1) 8).getD 255 0 ≠ 0 := by decide +kernel

theorem witness_SmvbReferenceAlgorithmIsCorrect : 2 ^ 255 - 1 < 2 ^ 255 ∧ pointB.valid = true ∧ pointO.valid = true := by
  decide +kernel

theorem witness_WindowLayout : 0xff8 < 0x1000 ∧ 0xff8 % 8 = 0 ∧ locate 0xff8 = .reserved ∧
    (locate 0xfe0).offset? = some 0xfe0 ∧ locate 0x018 = .reserved ∧ locate 0x1f8 = .reserved ∧
    locate 0x228 = .reserved ∧ locate 0x400 = .reserved ∧ locate 0x7f8 = .reserved := by decide

theorem witness_WindowReadsReturnTheRegisters : (queue [.memRead 0x000 8] State.reset).host = [.memRead 0x000 8] ∧
    (queue [.memRead 0x008 8] State.reset).host = [.memRead 0x008 8] ∧
    (queue [.memRead 0x010 8] State.reset).host = [.memRead 0x010 8] ∧
    0x3e0 = 0x200 + 64 * (7 : ScalarReg).val + 8 * (4 : Fin 5).val ∧
    0xfe0 = 0x800 + 64 * (31 : FieldReg).val + 8 * (4 : Fin 5).val ∧
    (queue [.memRead 0xfe0 8, .memRead 0xfe0 8] State.reset).host = [.memRead 0xfe0 8, .memRead 0xfe0 8] ∧
    locate 0xfe0 ≠ .reserved := by decide

theorem witness_WindowWritesChangeOneLimb : (queue [.memWrite 0x010 8 1] State.reset).host = [.memWrite 0x010 8 1] ∧
    (queue [.memWrite 0x360 8 1] State.reset).host = [.memWrite 0x360 8 1] ∧
    0x360 = 0x200 + 64 * (5 : ScalarReg).val + 8 * (4 : Fin 5).val ∧ (5 : ScalarReg).val < 6 ∧
    0x380 = 0x200 + 64 * (6 : ScalarReg).val + 8 * (0 : Fin 5).val ∧ ¬ (6 : ScalarReg).val < 6 ∧
    0x800 = 0x800 + 64 * (0 : FieldReg).val + 8 * (0 : Fin 5).val := by decide

theorem witness_ScalarWritesKeep52Bits : (5 : ScalarReg).val < 6 ∧
    (queue [.memWrite (scalarOffset 5 4) 8 0xffffffffffffffff] State.reset).host =
      [.memWrite (scalarOffset 5 4) 8 0xffffffffffffffff] ∧
    (queue (lds 5 (montRadix - 1)) State.reset).host = lds 5 (montRadix - 1) ++ [] ∧ montRadix - 1 < montRadix := by
  decide +kernel

theorem witness_ReadOnlyWritesAreIgnored : ¬ sR.val < 6 ∧ 0x380 = scalarOffset sR 0 ∧ ¬ sRR.val < 6 ∧
    0x3e0 = scalarOffset sRR 4 ∧ (queue [.memWrite 0x3e0 8 1] State.reset).host = [.memWrite 0x3e0 8 1] := by decide

/-- Both ends of each reserved range of rule R61. -/
theorem witness_ReservedOffsetsAreRefused :
    (∀ a ∈ [0x018, 0x1f8, 0x228, 0x3f8, 0x400, 0x7f8, 0x828, 0xff8], a < 0x1000 ∧ a % 8 = 0 ∧
      ((0x018 ≤ a ∧ a < 0x200) ∨ (0x400 ≤ a ∧ a < 0x800) ∨ (0x200 ≤ a ∧ 40 ≤ a % 64))) ∧
    (queue [.memWrite 0x018 8 1] State.reset).host = [.memWrite 0x018 8 1] ∧
    (queue [.memRead 0xff8 8] State.reset).host = [.memRead 0xff8 8] := by decide

/-- Each way an access can fail to be admitted, and the last limb of the window (`0xfe0`), which is admitted. -/
theorem witness_OnlyAdmittedAccessesComplete :
    step (queue [.memRead 0x800 4] State.reset) = .refused .widthNotAdmitted ∧
    step (queue [.memWrite 0x1000 8 0] State.reset) = .fault .outsideWindow ∧
    step (queue [.memRead 0x804 8] State.reset) = .refused .misaligned ∧
    step (queue [.memRead 0xff0 8] State.reset) = .refused .reservedOffset ∧
    ∃ t, step (queue [.memRead 0xfe0 8] State.reset) = .next t :=
  ⟨rfl, rfl, rfl, rfl, _, rfl⟩

theorem witness_WindowIsLittleEndian : 511 < 512 ∧ 7 < 8 ∧ State.reset.peek (locate (8 * 508)) = some 0 ∧
    State.reset.peekByte 0x380 = some 0xed ∧ State.reset.peekByte 0x386 = some 0xf := by decide +kernel

/-- `p7`: its slots are `f28` to `f31`, and the last limb of `f31` stands at `0xfe0`; two tuples that differ by slot. -/
theorem witness_PointRegistersAreViews : (28 : FieldReg).val = 4 * (7 : PointReg).val ∧
    (31 : FieldReg).val = 4 * (7 : PointReg).val + (3 : Fin 4).val ∧
    0xfe0 = 0x800 + 64 * (4 * (7 : PointReg).val + (3 : Fin 4).val) + 8 * (4 : Fin 5).val ∧
    (queue [.memWrite 0xfe0 8 9] State.reset).host = [.memWrite 0xfe0 8 9] ∧
    ¬ ((7 : PointReg) = 7 ∧ (2 : Fin 4) = 3) ∧
    (loadPoint 7 pointB State.reset).readExtended 7 = pointB ∧
    fval (loadPoint 7 pointB State.reset).f[28] % (2 ^ 255 - 19) = pointB.X ∧
    fval (loadPoint 7 pointB State.reset).f[31] % (2 ^ 255 - 19) = pointB.T := by decide +kernel

theorem witness_EveryCommandCompletes :
    (queue [.memWrite 0x000 8 0xffffffff] State.reset).host = [.memWrite 0x000 8 0xffffffff] := by decide

/-- A command that faults, and one that does not. -/
theorem witness_CommandsChangeOnlyTheirDestination : (∃ t, exec (.pdbl 0 0 0) State.reset = .next t ∧ t.fault = 1) ∧
    (∃ t, exec (.fredc 3 2) State.reset = .next t ∧ t.fault = 0) ∧ ¬ destinationBytes (.fredc 3 2) 0x800 :=
  ⟨⟨_, rfl, rfl⟩, ⟨_, rfl, rfl⟩, by simp [destinationBytes, fieldBytes, fieldOffset]⟩

/-- Two states with the same registers that differ in everything else, and a command that counts no free value. -/
theorem witness_CommandsReadOnlyTheRegisters : faultedState.f = (queue [.reset] State.reset.drawn).f ∧
    faultedState.s = (queue [.reset] State.reset.drawn).s ∧
    faultedState.draws ≠ (queue [.reset] State.reset.drawn).draws ∧
    ∃ t, exec (.fredc 3 2) faultedState = .next t ∧ t.draws = faultedState.draws :=
  ⟨by decide, by decide, by decide, _, rfl, rfl⟩

/-- Vectors M12 and V9 draw. -/
theorem witness_OnlyTwoCommandsDrawFreeValues :
    (∃ t, exec (.mmul 0 0 1) outsideState = .next t ∧ t.draws ≠ outsideState.draws) ∧
    (∃ t, exec (.smvb 2 0 1 0) (loadPoint 1 ⟨1, 1, 1, 1⟩ State.reset) = .next t ∧
      t.draws ≠ (loadPoint 1 ⟨1, 1, 1, 1⟩ State.reset).draws) := by
  constructor
  · refine ⟨_, by simp only [exec, execMmul]; rw [if_pos (by decide), if_neg (by decide +kernel)], ?_⟩
    rw [drawn_draws, writeScalar_draws]; decide
  · refine ⟨_, by simp only [exec, execSmvb]; rw [if_pos (by decide +kernel), if_neg (by decide +kernel)], ?_⟩
    rw [drawn_draws, writePoint_draws]; decide

theorem witness_HardwiredScalarsNeverChange : ∃ t, step (queue [wr 0x380 0] State.reset) = .next t := ⟨_, rfl⟩

/-- Both cases of the invariant, each with a step from it. -/
theorem witness_StepsKeepTheControlState :
    ((queue [wr 0x000 0x30800000] State.reset).ControlOk ∧
      ∃ t, step (queue [wr 0x000 0x30800000] State.reset) = .next t) ∧
    ((queue [wr 0x840 5] faultedState).ControlOk ∧ ∃ t, step (queue [wr 0x840 5] faultedState) = .next t) :=
  ⟨⟨by unfold State.ControlOk; decide, _, rfl⟩, by unfold State.ControlOk; decide, _, rfl⟩

theorem witness_ResetLeavesTheStatedValues : (0x010 = 0x000 ∨ 0x010 = 0x008 ∨ 0x010 = 0x010) := by decide

theorem witness_ResetInputClearsTheFault : (Instr.fred 1 0).wellFormed = true ∧
    (queue [.reset, cmd (.fred 1 0)] faultedState).host = [.reset, cmd (.fred 1 0)] := by decide

theorem witness_IdleBlockKeepsAllState : State.reset.host = [] ∧ faultedState.host = [] := by decide

end Sys2Proof.Tests
end

section
/-! The digit recodings of 00_scope.md: radix 16 (rule R17) and the width-`w` non-adjacent form (rule R18). -/

namespace Sys2Proof.Proofs

open Sys2Proof.Machine Sys2Proof.Laws

/-! ## Radix 16: ranges and uniqueness -/

/-- The digits below position `n` lie in rule R17's range `[-8, 8)`. -/
def Recentred (n : Nat) (l : List Int) : Prop := ∀ i, i < n → -8 ≤ l.getD i 0 ∧ l.getD i 0 < 8

@[simp] theorem recentred_zero (l : List Int) : Recentred 0 l := fun _ hi => absurd hi (Nat.not_lt_zero _)

@[simp] theorem recentred_succ_cons (n : Nat) (d : Int) (ds : List Int) :
    Recentred (n + 1) (d :: ds) ↔ (-8 ≤ d ∧ d < 8) ∧ Recentred n ds :=
  Nat.forall_lt_succ_left

theorem recentred_radix16From (n k c : Nat) (hc : c ≤ 1) : Recentred n (radix16From n k c) := by
  induction n generalizing k c with
  | zero => exact recentred_zero _
  | succ n ih =>
    obtain ⟨hlow, hhigh, hcarry⟩ := radix16_digit k c hc
    rw [radix16From, recentred_succ_cons]
    exact ⟨⟨hlow, hhigh⟩, ih _ _ hcarry⟩

/-- The last digit is what is left of a value below `2^(4n+3)`, at most 7, and a carry. -/
theorem radix16From_getD_last (n k c : Nat) (hc : c ≤ 1) (hk : k < 8 * 16 ^ n) :
    0 ≤ (radix16From n k c).getD n 0 ∧ (radix16From n k c).getD n 0 ≤ 8 := by
  induction n generalizing k c with
  | zero =>
    simp only [radix16From, List.getD_cons_zero]
    omega
  | succ n ih =>
    obtain ⟨-, -, hcarry⟩ := radix16_digit k c hc
    rw [radix16From, List.getD_cons_succ]
    exact ih _ _ hcarry (by rw [pow_succ] at hk; omega)

/-- Two runs of `n` recentred digits and a last one that stand for the same value are equal: the lowest digits agree
modulo 16, so they agree. -/
theorem eq_of_digitSum_eq {n : Nat} {l m : List Int} (hl : l.length = n + 1) (hm : m.length = n + 1)
    (rl : Recentred n l) (rm : Recentred n m) (h : digitSum 16 l = digitSum 16 m) : l = m := by
  induction n generalizing l m with
  | zero =>
    obtain ⟨a, rfl⟩ := List.length_eq_one_iff.mp hl
    obtain ⟨b, rfl⟩ := List.length_eq_one_iff.mp hm
    simpa [digitSum] using h
  | succ n ih =>
    obtain ⟨a, as, rfl⟩ := List.exists_cons_of_length_eq_add_one hl
    obtain ⟨b, bs, rfl⟩ := List.exists_cons_of_length_eq_add_one hm
    obtain ⟨ha, ras⟩ := (recentred_succ_cons n a as).mp rl
    obtain ⟨hb, rbs⟩ := (recentred_succ_cons n b bs).mp rm
    rw [digitSum, digitSum] at h
    have hab : a = b := by omega
    have hrest : as = bs := ih (Nat.succ.inj hl) (Nat.succ.inj hm) ras rbs (by omega)
    rw [hab, hrest]

/-- Settles O34: the sum is `digitSum_radix16From`, the ranges come digit by digit from the carry being 0 or 1, and the
ranges leave one choice of digits (rule R17). -/
theorem radixSixteenRecoding : Obligations.RadixSixteenRecoding := by
  intro k hk
  have hlen : (radix16 k).length = 64 := radix16From_length 63 k 0
  have hsum : digitSum 16 (radix16 k) = k := by
    rw [radix16, digitSum_radix16From 63 k 0 (hk.trans (by norm_num)), Nat.cast_zero, add_zero]
  have hrange : Recentred 63 (radix16 k) := recentred_radix16From 63 k 0 zero_le_one
  obtain ⟨hlow, hhigh⟩ := radix16From_getD_last 63 k 0 zero_le_one (hk.trans_eq (by norm_num))
  exact ⟨hlen, hsum, hrange, hlow, hhigh, fun l hl hs hr => eq_of_digitSum_eq hl hlen hr hrange (hs.trans hsum.symm)⟩

/-! ## The non-adjacent form: odd bounded digits and gaps -/

/-- What rule R18 says of the digits: a non-zero digit is odd and below `2^(w-1)` in absolute value, and the `w - 1` digits
after it are zero. -/
def NonAdjacent (w : Nat) (l : List Int) : Prop :=
  ∀ i, l.getD i 0 ≠ 0 → l.getD i 0 % 2 = 1 ∧ |l.getD i 0| < 2 ^ (w - 1) ∧
    ∀ j, 0 < j → j < w → l.getD (i + j) 0 = 0

theorem nonAdjacent_nil (w : Nat) : NonAdjacent w [] := fun _ h => absurd rfl h

theorem NonAdjacent.cons_zero {w : Nat} {l : List Int} (h : NonAdjacent w l) : NonAdjacent w (0 :: l)
  | 0, h0 => absurd rfl h0
  | i + 1, hi => by simpa [Nat.add_right_comm] using h i hi

/-- An odd bounded digit may stand below digits of which the first `w - 1` are zero. -/
theorem NonAdjacent.cons {w : Nat} {d : Int} {l : List Int} (hodd : d % 2 = 1) (hd : |d| < 2 ^ (w - 1))
    (hgap : ∀ i, i < w - 1 → l.getD i 0 = 0) (h : NonAdjacent w l) : NonAdjacent w (d :: l)
  | 0, _ => by
    refine ⟨hodd, hd, fun j hj hjw => ?_⟩
    obtain ⟨i, rfl⟩ := Nat.exists_eq_add_one.mpr hj
    simpa using hgap i (by omega)
  | i + 1, hi => by simpa [Nat.add_right_comm] using h i hi

/-- A value with `v` zero bits at the bottom has `v` zero digits at the bottom. -/
theorem nafFrom_getD_of_dvd {w v k : Nat} (hv : 2 ^ v ∣ k) (n i : Nat) (hi : i < v) : (nafFrom w n k).getD i 0 = 0 := by
  induction n generalizing v k i with
  | zero => rfl
  | succ n ih =>
    obtain ⟨u, rfl⟩ : ∃ u, v = u + 1 := Nat.exists_eq_add_one.mpr (by omega)
    obtain ⟨q, rfl⟩ := hv
    have htwo : 2 ^ (u + 1) * q = 2 * (2 ^ u * q) := by ring
    have heven : ¬ 2 ^ (u + 1) * q % 2 = 1 := by omega
    have hhalf : 2 ^ (u + 1) * q / 2 = 2 ^ u * q := by omega
    rw [nafFrom, if_neg heven, hhalf]
    cases i with
    | zero => rfl
    | succ i => simpa using ih (Dvd.intro q rfl) i (by omega)

/-- Taking the digit of an odd value off and halving leaves a multiple of `2^(w-1)`. -/
theorem nafRest_dvd {w k : Nat} (hw : 2 ≤ w) (hk : k % 2 = 1) :
    2 ^ (w - 1) ∣ ((k : Int) - nafDigit w k).toNat / 2 := by
  obtain ⟨q, hq, -, -, -⟩ := nafDigit_spec hw hk
  obtain ⟨v, rfl⟩ : ∃ v, w = v + 1 := Nat.exists_eq_add_one.mpr (by omega)
  have hrest : (k : Int) - nafDigit (v + 1) k = ((2 * (2 ^ v * q) : Nat) : Int) := by rw [hq]; push_cast; ring
  rw [hrest, Int.toNat_natCast, Nat.mul_div_cancel_left _ two_pos]
  exact Dvd.intro q rfl

theorem nonAdjacent_nafFrom {w : Nat} (hw : 2 ≤ w) (n k : Nat) : NonAdjacent w (nafFrom w n k) := by
  induction n generalizing k with
  | zero => exact nonAdjacent_nil w
  | succ n ih =>
    rw [nafFrom]
    split_ifs with hk
    · obtain ⟨-, -, hodd, hbound, -⟩ := nafDigit_spec hw hk
      exact .cons hodd hbound (nafFrom_getD_of_dvd (nafRest_dvd hw hk) n) (ih _)
    · exact (ih _).cons_zero

/-- Settles O40: the sum is `digitSum_nafFrom`; taking a digit off leaves a multiple of `2^w`, which makes the gap after it
(rule R18). -/
theorem nonAdjacentFormRecoding : Obligations.NonAdjacentFormRecoding := by
  intro k w hk hw _
  exact ⟨nafFrom_length w 256 k, digitSum_nafFrom hw hk.le, nonAdjacent_nafFrom hw 256 k⟩

end Sys2Proof.Proofs
end

section
/-! The state of 10_state.md as every step keeps it: the control state (rules R35, R201), the hardwired scalar registers
(rule R34), what reset leaves (rule R43), and the point registers as views of the field registers (rule R31). -/

namespace Sys2Proof.Proofs

open Sys2Proof.Machine Sys2Proof.Laws

/-! ## The invariant of the control state -/

theorem controlOk_afterReset (f : FieldFile) (u : ScalarFile) : (State.afterReset f u).ControlOk := .inl ⟨rfl, rfl, rfl⟩

theorem controlOk_resetInput (s : State) : s.resetInput.ControlOk := .inl ⟨rfl, rfl, rfl⟩

/-- A raised fault carries one of the two causes, whatever the state before. -/
theorem controlOk_raised (s : State) (c : Cause) (w : CommandWord) : (s.raised c w).ControlOk := by
  cases c with
  | illegalCommand => exact .inr ⟨rfl, .inl rfl⟩
  | preconditionViolation => exact .inr ⟨rfl, .inr rfl⟩

/-- The invariant speaks of `STATUS` and `FCMD` alone. -/
theorem controlOk_of_sameControl {s t : State} (h : SameControl s t) (hs : s.ControlOk) : t.ControlOk := by
  obtain ⟨hfault, hcause, hfcmd⟩ := h
  rw [State.ControlOk, hfault, hcause, hfcmd]
  exact hs

theorem sameControl_poke (s : State) (l : Location) (v : HostWord) : SameControl s (s.poke l v) := by
  obtain ⟨hfault, hcause, hfcmd, -⟩ := poke_control s l v
  exact ⟨hfault, hcause, hfcmd⟩

theorem exec_keeps_controlOk {i : Instr} {s t : State} (hs : s.ControlOk) (h : exec i s = .next t) : t.ControlOk := by
  obtain ⟨u, hu, heffect⟩ := exec_effect i s
  obtain rfl : u = t := Host.Outcome.next.inj (hu.symm.trans h)
  obtain hsame | ⟨c, rfl⟩ := heffect.control
  · exact controlOk_of_sameControl hsame hs
  · exact controlOk_raised s c (encode i)

theorem issue_keeps_controlOk {w : CommandWord} {s t : State} (hs : s.ControlOk) (h : issue w s = .next t) :
    t.ControlOk := by
  obtain ⟨-, hdropped⟩ | ⟨-, _, -, hraised⟩ | ⟨-, i, -, hexec⟩ := issue_cases w s
  · obtain rfl := Host.Outcome.next.inj (hdropped.symm.trans h)
    exact hs
  · obtain rfl := Host.Outcome.next.inj (hraised.symm.trans h)
    exact controlOk_raised s .illegalCommand w
  · exact exec_keeps_controlOk hs (hexec.symm.trans h)

/-- Settles O56, by what a step can have been: a reset clears the control state, a command keeps it or raises a fault, and
every other step keeps it. -/
theorem stepsKeepTheControlState : Obligations.StepsKeepTheControlState := by
  intro s t hs h
  obtain ⟨-, rfl⟩ | ⟨_, rest, -, hact⟩ := step_cases h
  · exact hs
  · obtain ⟨-, rfl⟩ | ⟨_, v, -, -, rfl⟩ | ⟨_, _, -, -, hissue⟩ | ⟨addr, v, -, -, -, rfl⟩ := hact
    · exact controlOk_resetInput { s with host := rest }
    · exact hs
    · exact issue_keeps_controlOk (s := { s with host := rest }) hs hissue
    · exact controlOk_of_sameControl (sameControl_poke { s with host := rest } (locate addr) v) hs

/-- Settles O57: reset leaves `STATUS` and `FCMD` at 0. -/
theorem resetControlState : Obligations.ResetControlState := controlOk_afterReset _ _

/-! ## The hardwired scalar registers and what reset leaves -/

/-- Settles O55: a read of the two registers takes nothing from the state (rule R34). -/
theorem hardwiredScalarsNeverChange : Obligations.HardwiredScalarsNeverChange := by
  intro s
  refine ⟨?_, ?_, fun t _ => ⟨?_, ?_⟩⟩
  · rw [scalar_sR, montR, montRadix_eq]
  · rw [scalar_sRR, montRR, montRadix_eq, ← pow_add]
  · rw [readScalar_sR, readScalar_sR]
  · rw [readScalar_sRR, readScalar_sRR]

theorem statusWord_afterReset (f : FieldFile) (u : ScalarFile) : (State.afterReset f u).statusWord = 0 := by
  simp only [State.statusWord, State.afterReset]
  decide

theorem fcmdWord_afterReset (f : FieldFile) (u : ScalarFile) : (State.afterReset f u).fcmdWord = 0 := by
  simp only [State.fcmdWord, State.afterReset]
  decide

/-- The limbs of `R` that rule R15 prints. -/
theorem limbs52_montR :
    limbs52 montR = #v[0xf48bd6721e6ed, 0x3bab5ac67e45a, 0xfffffeb35e51b, 0xfffffffffffff, 0xfffffffffff] := by
  decide +kernel

/-- The limbs of `RR` that rule R15 prints. -/
theorem limbs52_montRR :
    limbs52 montRR = #v[0x9d265e952d13b, 0xd63c715bea69f, 0x5be65cb687604, 0x3dceec73d217f, 0x9411b7c309a] := by
  decide +kernel

/-- Settles O58: the three control locations read 0 over any data registers, and the two constants are hardwired. -/
theorem resetLeavesTheStatedValues : Obligations.ResetLeavesTheStatedValues := by
  refine ⟨?_, fun f u => ⟨(readScalar_sR _).trans limbs52_montR, (readScalar_sRR _).trans limbs52_montRR⟩, _, _, rfl⟩
  rintro f u a (rfl | rfl | rfl)
  · rw [locate_cmd, State.peek]
  · rw [locate_status, State.peek, statusWord_afterReset]
  · rw [locate_fcmd, State.peek, fcmdWord_afterReset]

/-! ## Point registers as views -/

theorem eq_slot {i : PointReg} {k : Fin 4} {r : FieldReg} (h : r.val = 4 * i.val + k.val) : r = slot i k :=
  Fin.ext (h.trans (slot_val i k).symm)

/-- The value of slot `k` of `p[i]` is that of `f[4i+k]` (rules R31, R130). -/
theorem slotValue_eq (s : State) {i : PointReg} {k : Fin 4} {r : FieldReg} {v : Nat} (hr : r.val = 4 * i.val + k.val)
    (hv : v = fval s.f[r] % (2 ^ 255 - 19)) : s.slotValue i k = v := by
  obtain rfl := eq_slot hr
  rw [State.slotValue, hv, fieldValue, fieldPrime]

/-- The step of a host write to a limb of a field register (rules R61, R65). -/
theorem step_fieldLimbWrite {s : State} {r : FieldReg} {j : Fin 5} {v : HostWord} {rest : List HostAction}
    (h : s.host = .memWrite (fieldOffset r j) 8 v :: rest) :
    step s = .next (State.writeField { s with host := rest } r (s.f[r].set j.val v)) := by
  rw [step_cons h, perform, memWrite_admitted _ _ (fieldOffset_admitted r j), locate_fieldOffset]
  rfl

/-- Settles O50: `slot i k` is `f[4i+k]`, every read of `p[i]` goes through `slotValue`, a host write is one field
register write, and `slot` is a bijection. -/
theorem pointRegistersAreViews : Obligations.PointRegistersAreViews := by
  refine ⟨slot_val, ?_, ?_, ?_⟩
  · intro s i f0 f1 f2 f3 h0 h1 h2 h3 v0 v1 v2 v3 hv0 hv1 hv2 hv3
    have e0 : s.slotValue i 0 = v0 := slotValue_eq s h0 hv0
    have e1 : s.slotValue i 1 = v1 := slotValue_eq s h1 hv1
    have e2 : s.slotValue i 2 = v2 := slotValue_eq s h2 hv2
    have e3 : s.slotValue i 3 = v3 := slotValue_eq s h3 hv3
    simp only [State.readExtended, State.readProjective, State.readProjectiveNiels, State.readAffineNiels, e0, e1, e2, e3,
      and_self]
  · intro s i k r j v rest hr h
    obtain rfl := eq_slot hr
    refine ⟨_, step_fieldLimbWrite (r := slot i k) h, onlyField_writeField _ _ _, writeField_same _ _ _, fun i' k' hne => ?_⟩
    exact writeField_other _ _ fun e => hne (slot_inj.mp e)
  · intro r
    obtain ⟨i, k, rfl⟩ := exists_slot r
    exact ⟨i, k, rfl, fun i' k' e => slot_inj.mp e.symm⟩

end Sys2Proof.Proofs
end

section
/-! The host window of 20_memory.md: its layout (rule R61), what reads and writes do at each location (rules R64, R65, R67,
R68), which accesses complete (rules R66, R69), and the order of bytes in a word (rule R63). -/

namespace Sys2Proof.Proofs

open Sys2Proof.Machine Sys2Proof.Laws

/-! ## Layout -/

/-- The reserved ranges of rule R61: after `FCMD`, between the scalar and the field registers, and after the five limbs of
each register's 64 bytes. -/
def ReservedOffset (a : Nat) : Prop :=
  (0x018 ≤ a ∧ a < 0x200) ∨ (0x400 ≤ a ∧ a < 0x800) ∨ (0x200 ≤ a ∧ 40 ≤ a % 64)

theorem locate_eq_reserved_iff {a : Nat} (ha : a < 0x1000) : locate a = .reserved ↔ ReservedOffset a := by
  unfold locate ReservedOffset
  split_ifs <;> simp only [false_iff, true_iff] <;> omega

/-- Exactly the reserved offsets have no location of their own. -/
theorem offset_eq_none {l : Location} : l.offset? = none ↔ l = .reserved := by
  cases l <;> simp [Location.offset?]

theorem reserved_or_offset_locate (a : Nat) : locate a = .reserved ∨ (locate a).offset? = some (a / 8 * 8) := by
  cases ho : (locate a).offset? with
  | none => exact .inl (offset_eq_none.mp ho)
  | some n => exact .inr (congrArg some (offset_locate ho))

/-- Each location stands at its offset, so no two stand at one. -/
theorem locate_of_offset {l : Location} {a : Nat} (h : l.offset? = some a) : locate a = l := by
  cases l with
  | cmd => obtain rfl := Option.some.inj h; exact locate_cmd
  | status => obtain rfl := Option.some.inj h; exact locate_status
  | fcmd => obtain rfl := Option.some.inj h; exact locate_fcmd
  | scalar i j => obtain rfl := Option.some.inj h; exact locate_scalarOffset i j
  | field i j => obtain rfl := Option.some.inj h; exact locate_fieldOffset i j
  | reserved => cases h

theorem offset_admitted {l : Location} {a : Nat} (h : l.offset? = some a) : a < Config.windowSize ∧ a % 8 = 0 := by
  unfold Config.windowSize
  cases l <;> simp only [Location.offset?, Option.some.injEq, reduceCtorEq] at h <;> omega

/-- The field registers under their point view: `p[i]` takes `0x100` bytes, a slot `0x40` (rules R31, R61). -/
theorem fieldOffset_slot (i : PointReg) (k : Fin 4) (j : Fin 5) :
    fieldOffset (slot i k) j = 0x800 + 0x100 * i.val + 0x40 * k.val + 8 * j.val := by
  rw [fieldOffset, slot_val]; omega

/-- Settles O42: the layout is `locate_of_offset` in one direction and `offset_locate` in the other. -/
theorem windowLayout : Obligations.WindowLayout := by
  refine ⟨locate_cmd, locate_status, locate_fcmd, locate_scalarOffset, locate_fieldOffset, fun i k j => ?_,
    fun a _ haligned => ?_, fun _ ha => locate_eq_reserved_iff ha⟩
  · rw [← fieldOffset_slot, locate_fieldOffset]
  · have hword : a / 8 * 8 = a := Nat.div_mul_cancel (Nat.dvd_of_mod_eq_zero haligned)
    simpa only [hword] using reserved_or_offset_locate a

/-! ## Reads -/

/-- An admitted read reads its location (rules R64, R66). -/
theorem step_memRead {s : State} {a : Nat} {rest : List HostAction} (h : s.host = .memRead a 8 :: rest)
    (ha : a < Config.windowSize ∧ a % 8 = 0) :
    step s = State.readLocation { s with host := rest } (locate a) := by
  rw [step_cons h, perform, memRead_admitted _ ha]

@[simp] theorem peek_withHost (s : State) (rest : List HostAction) (l : Location) :
    State.peek { s with host := rest } l = s.peek l :=
  peek_congr l (fun _ _ _ => rfl) (fun _ _ _ => rfl) ⟨rfl, rfl, rfl⟩

@[simp] theorem peek_reply (s : State) (v : HostWord) (l : Location) : (s.reply v).peek l = s.peek l :=
  peek_congr l (fun _ _ _ => rfl) (fun _ _ _ => rfl) ⟨rfl, rfl, rfl⟩

/-- Every location that is not reserved holds a value (rules R64, R69). -/
theorem exists_peek (s : State) {l : Location} (h : l ≠ .reserved) : ∃ v, s.peek l = some v :=
  Option.ne_none_iff_exists'.mp (mt (peek_eq_none s).mp h)

theorem step_memRead_of_peek {s : State} {a : Nat} {v : HostWord} {rest : List HostAction}
    (h : s.host = .memRead a 8 :: rest) (ha : a < Config.windowSize ∧ a % 8 = 0) (hv : s.peek (locate a) = some v) :
    step s = .next (State.reply { s with host := rest } v) := by
  rw [step_memRead h ha, readLocation_peek _ ((peek_withHost s rest _).trans hv)]

/-- A read at the offset of a location returns what the location holds (rule R64). -/
theorem step_memRead_offset {s : State} {l : Location} {a : Nat} {v : HostWord} {rest : List HostAction}
    (h : s.host = .memRead a 8 :: rest) (hl : l.offset? = some a) (hv : s.peek l = some v) :
    step s = .next (State.reply { s with host := rest } v) :=
  step_memRead_of_peek h (offset_admitted hl) (by rw [locate_of_offset hl, hv])

/-- `FAULT` has weight 1 and `CAUSE` weight 16 in the word of `STATUS` (rule R35). -/
theorem statusWord_eq (s : State) : s.statusWord = BitVec.ofNat 64 (s.fault.toNat + 16 * s.cause.toNat) := by
  have hword : ∀ (cause : BitVec 4) (fault : BitVec 1), (0 : BitVec 56) ++ cause ++ (0 : BitVec 3) ++ fault =
      BitVec.ofNat 64 (fault.toNat + 16 * cause.toNat) := by decide
  exact hword s.cause s.fault

/-- Settles O43: each clause is `step_memRead_offset` at one location, and a read leaves the window as it is, so a second
one finds the same value. -/
theorem windowReadsReturnTheRegisters : Obligations.WindowReadsReturnTheRegisters := by
  refine ⟨fun s a rest h => ⟨?_, ?_, ?_, ?_, ?_⟩, fun s a rest h ha haligned hreserved => ?_⟩
  · rintro rfl
    exact step_memRead_offset (l := .cmd) h rfl rfl
  · rintro rfl
    exact step_memRead_offset (l := .status) h rfl (congrArg some (statusWord_eq s))
  · rintro rfl
    exact step_memRead_offset (l := .fcmd) h rfl (congrArg some (BitVec.ofNat_toNat _ _).symm)
  · rintro i j rfl
    exact step_memRead_offset (l := .scalar i j) h rfl (congrArg some (BitVec.ofNat_toNat _ _).symm)
  · rintro i j rfl
    exact step_memRead_offset (l := .field i j) h rfl rfl
  · obtain ⟨v, hv⟩ := exists_peek s hreserved
    refine ⟨_, v, step_memRead_of_peek h ⟨ha, haligned⟩ hv, ?_⟩
    have hagain := step_memRead_of_peek (s := State.reply { s with host := .memRead a 8 :: rest } v) rfl ⟨ha, haligned⟩
      (by rw [peek_reply, peek_withHost, hv])
    simpa [State.reply] using hagain

/-! ## Writes -/

/-- An admitted write writes its location (rules R65, R66). -/
theorem step_memWrite {s : State} {a : Nat} {v : HostWord} {rest : List HostAction}
    (h : s.host = .memWrite a 8 v :: rest) (ha : a < Config.windowSize ∧ a % 8 = 0) :
    step s = writeLocation (locate a) v { s with host := rest } := by
  rw [step_cons h, perform, memWrite_admitted _ _ ha]

/-- A write at the offset of a location other than `CMD` stores there (rule R65). -/
theorem step_memWrite_offset {s : State} {l : Location} {a : Nat} {v : HostWord} {rest : List HostAction}
    (h : s.host = .memWrite a 8 v :: rest) (hl : l.offset? = some a) (hcmd : l ≠ .cmd) :
    step s = .next (State.poke { s with host := rest } l v) := by
  have hreserved : l ≠ .reserved := fun e => by rw [offset_eq_none.mpr e] at hl; cases hl
  rw [step_memWrite h (offset_admitted hl), locate_of_offset hl, writeLocation_poke _ _ hcmd hreserved]

/-- A store to a limb of `s[6]` or `s[7]` is dropped (rule R68). -/
theorem poke_scalar_hardwired (s : State) {i : ScalarReg} (j : Fin 5) (v : HostWord) (hi : ¬ i.val < 6) :
    s.poke (.scalar i j) v = s := writeScalar_hardwired s _ hi

/-- A store to a limb of `s[0]` to `s[5]` keeps bits 51 to 0 of the value (rule R67). -/
theorem poke_scalar_general (s : State) {i : ScalarReg} (j : Fin 5) (v : HostWord) (hi : i.val < 6) :
    s.poke (.scalar i j) v = { s with s := s.s.set i.val (s.s[i.val].set j.val (v.extractLsb' 0 52)) } := by
  rw [State.poke, State.writeScalar, dif_pos hi, readScalar_general s hi, BitVec.setWidth_eq_extractLsb' (by decide)]

/-- Settles O46: the store is one to a location that keeps what it has. -/
theorem readOnlyWritesAreIgnored : Obligations.ReadOnlyWritesAreIgnored := by
  rintro s a v rest h (rfl | rfl | ⟨i, j, hi, rfl⟩)
  · exact step_memWrite_offset (l := .status) h rfl (by decide)
  · exact step_memWrite_offset (l := .fcmd) h rfl (by decide)
  · rw [step_memWrite_offset (l := .scalar i j) h rfl (by simp), poke_scalar_hardwired _ _ _ hi]

/-- Settles O44: a write to `CMD` issues the low half, and every other clause is `step_memWrite_offset` at one location. -/
theorem windowWritesChangeOneLimb : Obligations.WindowWritesChangeOneLimb := by
  refine fun s a v rest h => ⟨?_, ?_, ?_, ?_⟩
  · rintro rfl
    exact step_command h
  · exact fun ha => readOnlyWritesAreIgnored s a v rest h (ha.imp_right .inl)
  · rintro i j rfl
    refine ⟨fun hi => ?_, fun hi => readOnlyWritesAreIgnored s _ v rest h (.inr (.inr ⟨i, j, hi, rfl⟩))⟩
    rw [step_memWrite_offset (l := .scalar i j) h rfl (by simp), poke_scalar_general _ _ _ hi]
  · rintro i j rfl
    exact step_fieldLimbWrite h

/-! ## Loading a scalar register limb by limb -/

/-- The step of a host write to a limb of a scalar register (rules R61, R65, R67). -/
theorem step_scalarLimbWrite {s : State} {i : ScalarReg} {j : Fin 5} {v : HostWord} {rest : List HostAction}
    (h : s.host = .memWrite (scalarOffset i j) 8 v :: rest) :
    step s = .next (State.writeScalar { s with host := rest } i ((s.readScalar i).set j.val (v.setWidth 52))) :=
  step_memWrite_offset (l := .scalar i j) h rfl (by simp)

/-- The vector after a list of limb writes, each a limb's index and the value written. -/
def setLimbs (u : UnpackedScalar) (ws : List (Fin 5 × HostWord)) : UnpackedScalar :=
  ws.foldl (fun u w => u.set w.1.val (w.2.setWidth 52)) u

/-- The host's writes of a list of limbs to `s[i]`. -/
def limbWrites (i : ScalarReg) (ws : List (Fin 5 × HostWord)) : List HostAction :=
  ws.map fun w => wr (scalarOffset i w.1) w.2

theorem writeScalar_readScalar (s : State) (i : ScalarReg) : s.writeScalar i (s.readScalar i) = s := by
  by_cases hi : i.val < 6
  · rw [readScalar_general s hi, State.writeScalar, dif_pos hi, Vector.set_getElem_self]
  · exact writeScalar_hardwired s _ hi

theorem writeScalar_writeScalar (s : State) (rest : List HostAction) {i : ScalarReg} (hi : i.val < 6)
    (u v : UnpackedScalar) :
    State.writeScalar { s.writeScalar i u with host := rest } i v = State.writeScalar { s with host := rest } i v := by
  simp [State.writeScalar, hi]

theorem run_succ {s t : State} (n : Nat) (h : step s = .next t) :
    Host.Core.run Sys2Proof.core (n + 1) s = Host.Core.run Sys2Proof.core n t := by
  have hstep : Sys2Proof.core.step s = .next t := h
  simp only [Host.Core.run, hstep]

/-- A run of limb writes to one scalar register is one write of the register. -/
theorem run_limbWrites {s : State} {i : ScalarReg} (hi : i.val < 6) {ws : List (Fin 5 × HostWord)}
    {rest : List HostAction} (h : s.host = limbWrites i ws ++ rest) :
    Host.Core.run Sys2Proof.core ws.length s =
      .next (State.writeScalar { s with host := rest } i (setLimbs (s.readScalar i) ws)) := by
  induction ws generalizing s with
  | nil =>
    obtain rfl : s.host = rest := h
    exact congrArg Host.Outcome.next (writeScalar_readScalar s i).symm
  | cons w ws ih =>
    rw [List.length_cons, run_succ _ (step_scalarLimbWrite h), ih (writeScalar_host _ _ _), writeScalar_same _ _ hi,
      writeScalar_writeScalar _ _ hi]
    rfl

/-- The writes of `LDS`: the five limbs of `limbs52(n)` (rule R100). -/
def scalarLimbs (n : Nat) : List (Fin 5 × HostWord) :=
  (List.finRange 5).map fun j => (j, (limbs52 n)[j].setWidth 64)

theorem lds_eq_limbWrites (i : ScalarReg) (n : Nat) : lds i n = limbWrites i (scalarLimbs n) := rfl

/-- Five limb writes leave nothing of the vector before. -/
theorem setLimbs_scalarLimbs (u : UnpackedScalar) (n : Nat) : setLimbs u (scalarLimbs n) = limbs52 n := by
  apply Vector.ext
  intro j hj
  interval_cases j <;> simp [setLimbs, scalarLimbs, List.finRange]

/-- Settles O45: a limb write is one register write of the vector with that limb set, and the five of `LDS` make up one
register write of `limbs52(n)`. -/
theorem scalarWritesKeep52Bits : Obligations.ScalarWritesKeep52Bits := by
  refine ⟨fun s i j v rest hi h => ⟨_, step_scalarLimbWrite h, ?_, fun l hl => ?_, onlyScalar_writeScalar _ _ _⟩,
    fun s i n rest hi hn h => ?_⟩
  · rw [writeScalar_same _ _ hi]
    simp
  · have hne : j.val ≠ l.val := fun e => hl (Fin.ext e.symm)
    rw [writeScalar_same _ _ hi]
    simp [Vector.getElem_set_ne, hne]
  · rw [lds_eq_limbWrites] at h
    have hrun := run_limbWrites hi h
    rw [setLimbs_scalarLimbs] at hrun
    refine ⟨_, hrun, ?_, onlyScalar_writeScalar _ _ _⟩
    rw [State.scalar, writeScalar_same _ _ hi, sval_limbs52 (hn.trans_eq montRadix_eq.symm)]

/-! ## Which accesses complete -/

/-- Settles O47: the layout sends the access to a reserved location, which answers neither. -/
theorem reservedOffsetsAreRefused : Obligations.ReservedOffsetsAreRefused := by
  intro s a rest ha haligned hrange
  have hreserved : locate a = .reserved := (locate_eq_reserved_iff ha).mpr hrange
  refine ⟨fun v h => ?_, fun h => ?_⟩
  · rw [step_memWrite h ⟨ha, haligned⟩, hreserved, writeLocation_reserved]
  · rw [step_memRead h ⟨ha, haligned⟩, hreserved, readLocation_reserved]

/-- The first three conditions of rule R66 are those of `withLocation`. -/
theorem withLocation_completes_iff {a width : Nat} {k : Location → Host.Outcome State Fault Refusal} :
    (∃ t, withLocation a width k = .next t) ↔
      width = 8 ∧ a % 8 = 0 ∧ a < 0x1000 ∧ ∃ t, k (locate a) = .next t := by
  unfold withLocation Config.windowSize
  split_ifs with hwidth hwindow haligned
  · simp [hwidth]
  · simp [hwindow]
  · simp [haligned]
  · simp [not_not.mp hwidth, not_le.mp hwindow, not_not.mp haligned]

/-- A write to `CMD` completes whatever the word and the state (rules R90, R246). -/
theorem issue_completes (w : CommandWord) (s : State) : ∃ t, issue w s = .next t := by
  obtain ⟨-, h⟩ | ⟨-, _, -, h⟩ | ⟨-, i, -, h⟩ := issue_cases w s
  · exact ⟨_, h⟩
  · exact ⟨_, h⟩
  · obtain ⟨t, ht, -⟩ := exec_effect i s
    exact ⟨t, h.trans ht⟩

theorem readLocation_completes_iff {s : State} {l : Location} : (∃ t, s.readLocation l = .next t) ↔ l ≠ .reserved := by
  constructor
  · rintro ⟨t, h⟩ rfl
    cases h
  · intro hl
    obtain ⟨v, hv⟩ := exists_peek s hl
    exact ⟨_, readLocation_peek s hv⟩

theorem writeLocation_completes_iff {s : State} {l : Location} {v : HostWord} :
    (∃ t, writeLocation l v s = .next t) ↔ l ≠ .reserved := by
  constructor
  · rintro ⟨t, h⟩ rfl
    cases h
  · intro hl
    by_cases hcmd : l = .cmd
    · subst hcmd
      exact issue_completes (commandWord v) s
    · exact ⟨_, writeLocation_poke s v hcmd hl⟩

/-- Settles O48: `withLocation` checks three of the four conditions, and the access itself the fourth. -/
theorem onlyAdmittedAccessesComplete : Obligations.OnlyAdmittedAccessesComplete := by
  intro s act rest a width h hact
  have hcompletes : (∃ t, step s = .next t) ↔ width = 8 ∧ a % 8 = 0 ∧ a < 0x1000 ∧ locate a ≠ .reserved := by
    rw [step_cons h]
    obtain rfl | ⟨v, rfl⟩ := hact
    · simp only [perform, memRead, withLocation_completes_iff, readLocation_completes_iff]
    · simp only [perform, memWrite, withLocation_completes_iff, writeLocation_completes_iff]
  rw [hcompletes]
  exact and_congr_right fun _ => and_congr_right fun _ => and_congr_right fun ha => not_congr (locate_eq_reserved_iff ha)

/-! ## The order of bytes -/

theorem hostByte_toNat (v : HostWord) (b : Nat) : (hostByte v b).toNat = v.toNat / 2 ^ (8 * b) % 2 ^ 8 := by
  rw [hostByte, BitVec.extractLsb'_toNat, Nat.shiftRight_eq_div_pow]

/-- The eight bytes of a word lie in its location. -/
theorem locate_word {a : Nat} (ha : a < 0x1000) : locate (a / 8 * 8) = locate a := by
  obtain hreserved | hoffset := reserved_or_offset_locate a
  · have hrange := (locate_eq_reserved_iff ha).mp hreserved
    rw [hreserved, locate_eq_reserved_iff (by omega)]
    unfold ReservedOffset at hrange ⊢
    omega
  · exact locate_of_offset hoffset

/-- Settles O49: the bytes are the base-256 digits of the word, and `8q + b` lies in the word at `8q`. -/
theorem windowIsLittleEndian : Obligations.WindowIsLittleEndian := by
  refine ⟨fun v => ?_, fun s q b v hq hb hv => ?_⟩
  · have hv := v.isLt
    simp only [hostByte_toNat]
    omega
  · have hword : (8 * q + b) / 8 * 8 = 8 * q := by omega
    have hbyte : (8 * q + b) % 8 = b := by omega
    have hlocate : locate (8 * q + b) = locate (8 * q) := by rw [← locate_word (by omega), hword]
    rw [State.peekByte, if_pos (by unfold Config.windowSize; omega), hlocate, hv, hbyte, Option.map_some]

end Sys2Proof.Proofs
end

section
/-! The encoding of 30_encoding.md: decoding and encoding agree in both directions (rules R91 to R98), the decoder and the
opcode table accept the same words (rule R103), and what a write to `CMD` does with a word (rule R90). -/

namespace Sys2Proof.Proofs

open Sys2Proof.Machine Sys2Proof.Laws

/-! ## The decoder opcode by opcode -/

section
variable {w : CommandWord}

theorem decode_eq_decodeMmul (h : w.op = 1) : decode w = decodeMmul w := by rw [decode, h]; rfl

theorem decode_eq_decodeFred (h : w.op = 2) : decode w = decodeFred w := by rw [decode, h]; rfl

theorem decode_eq_decodePdbl (h : w.op = 3) : decode w = decodePdbl w := by rw [decode, h]; rfl

theorem decode_eq_decodePadd (h : w.op = 4) : decode w = decodePadd w := by rw [decode, h]; rfl

theorem decode_eq_decodeSmvb (h : w.op = 5) : decode w = decodeSmvb w := by rw [decode, h]; rfl

theorem decode_eq_decodeSmfb (h : w.op = 6) : decode w = decodeSmfb w := by rw [decode, h]; rfl

/-- Opcodes `0x0` and `0x7` to `0xF` are reserved (rule R96). -/
theorem decode_reserved (h : w.op.toNat = 0 ∨ 7 ≤ w.op.toNat) : decode w = .illegal .reservedOpcode := by
  unfold decode
  split
  iterate 6 · omega
  · rfl

end

/-- The six opcodes of rule R92 and the reserved ones of rule R96. -/
theorem opcode_cases (op : BitVec 4) :
    op = 1 ∨ op = 2 ∨ op = 3 ∨ op = 4 ∨ op = 5 ∨ op = 6 ∨ (op.toNat = 0 ∨ 7 ≤ op.toNat) := by
  revert op; decide

theorem ne_command_of_illegal {d : Decoded} {e : DecodeError} (h : d = .illegal e) (i : Instr) : d ≠ .command i := by
  rw [h]; exact nofun

/-! ## Decoding the word of a command -/

/-- Settles O1: each word is decoded. -/
theorem sampleWordsDecode : Obligations.SampleWordsDecode :=
  ⟨rfl, rfl, rfl, rfl, rfl, rfl, rfl, rfl, rfl, rfl, ne_command_of_illegal rfl, ne_command_of_illegal rfl,
    ne_command_of_illegal rfl, ne_command_of_illegal rfl⟩

/-- `requireZero_zero` in the spelling `simp` gives a zero field. -/
@[simp] theorem requireZero_ofNat_zero {n : Nat} (k : Decoded) : requireZero 0#n k = k := if_pos rfl

/-- Settles O2: the fields of the assembled word are the operands, and each opcode's decoder reads them back. -/
theorem decodeOfEncodeIsTheCommand : Obligations.DecodeOfEncodeIsTheCommand := by
  intro i hi
  cases i with
  | mmul sd sa sb =>
    have hsd : sd.val < 6 := of_decide_eq_true hi
    simp [encode, decode_eq_decodeMmul, decodeMmul, hsd]
  | fred fd fa => simp [encode, decode_eq_decodeFred, decodeFred]
  | fredc fd fa => simp [encode, decode_eq_decodeFred, decodeFred]
  | pdbl pd pa k => simp [encode, decode_eq_decodePdbl, decodePdbl]
  | paddE pd pa pb => simp [encode, decode_eq_decodePadd, decodePadd]
  | paddPN pd pa pb => simp [encode, decode_eq_decodePadd, decodePadd]
  | paddAN pd pa pb => simp [encode, decode_eq_decodePadd, decodePadd]
  | smvb pd sa pA sb => simp [encode, decode_eq_decodeSmvb, decodeSmvb]
  | smfb pd sa => simp [encode, decode_eq_decodeSmfb, decodeSmfb]

/-! ## The word of a decoded command -/

/-- A word is determined by its six fields (rule R91). -/
theorem assemble_eq {w : CommandWord} {op : BitVec 4} {rd ra rb rc : BitVec 5} {fn : BitVec 8} (hop : w.op = op)
    (hrd : rd = w.rd) (hra : ra = w.ra) (hrb : rb = w.rb) (hrc : rc = w.rc) (hfn : w.fn = fn) :
    assemble op rd ra rb rc fn = w := by
  rw [← hop, hrd, hra, hrb, hrc, ← hfn, assemble_fields]

/-- `i` is a legal command and `w` its word. -/
def IsWordOf (w : CommandWord) (i : Instr) : Prop := encode i = w ∧ i.wellFormed = true

section
variable {w : CommandWord} {i : Instr}

theorem isWordOf_of_decodeMmul (hop : w.op = 1) (h : decodeMmul w = .command i) : IsWordOf w i := by
  unfold decodeMmul at h
  split_ifs at h with hfn
  obtain ⟨hrc, h⟩ := requireZero_command h
  obtain ⟨sd, hrd, h⟩ := withIndex8_command h
  obtain ⟨sa, hra, h⟩ := withIndex8_command h
  obtain ⟨sb, hrb, h⟩ := withIndex8_command h
  split_ifs at h with hsd
  obtain rfl := Decoded.command.inj h
  exact ⟨assemble_eq hop hrd hra hrb hrc.symm (not_not.mp hfn), decide_eq_true hsd⟩

theorem isWordOf_of_decodeFred (hop : w.op = 2) (h : decodeFred w = .command i) : IsWordOf w i := by
  obtain ⟨hrb, h⟩ := requireZero_command h
  obtain ⟨hrc, h⟩ := requireZero_command h
  have hrd := indexField_fieldIndex w.rd
  have hra := indexField_fieldIndex w.ra
  split_ifs at h with hfn hfn
  all_goals
    obtain rfl := Decoded.command.inj h
    exact ⟨assemble_eq hop hrd hra hrb.symm hrc.symm hfn, rfl⟩

theorem isWordOf_of_decodePdbl (hop : w.op = 3) (h : decodePdbl w = .command i) : IsWordOf w i := by
  obtain ⟨hrb, h⟩ := requireZero_command h
  obtain ⟨hrc, h⟩ := requireZero_command h
  obtain ⟨pd, hrd, h⟩ := withIndex8_command h
  obtain ⟨pa, hra, h⟩ := withIndex8_command h
  obtain rfl := Decoded.command.inj h
  exact ⟨assemble_eq hop hrd hra hrb.symm hrc.symm rfl, rfl⟩

theorem isWordOf_of_decodePadd (hop : w.op = 4) (h : decodePadd w = .command i) : IsWordOf w i := by
  obtain ⟨hrc, h⟩ := requireZero_command h
  obtain ⟨pd, hrd, h⟩ := withIndex8_command h
  obtain ⟨pa, hra, h⟩ := withIndex8_command h
  obtain ⟨pb, hrb, h⟩ := withIndex8_command h
  split_ifs at h with hfn hfn hfn
  all_goals
    obtain rfl := Decoded.command.inj h
    exact ⟨assemble_eq hop hrd hra hrb hrc.symm hfn, rfl⟩

theorem isWordOf_of_decodeSmvb (hop : w.op = 5) (h : decodeSmvb w = .command i) : IsWordOf w i := by
  unfold decodeSmvb at h
  split_ifs at h with hfn
  obtain ⟨pd, hrd, h⟩ := withIndex8_command h
  obtain ⟨sa, hra, h⟩ := withIndex8_command h
  obtain ⟨pA, hrb, h⟩ := withIndex8_command h
  obtain ⟨sb, hrc, h⟩ := withIndex8_command h
  obtain rfl := Decoded.command.inj h
  exact ⟨assemble_eq hop hrd hra hrb hrc (not_not.mp hfn), rfl⟩

theorem isWordOf_of_decodeSmfb (hop : w.op = 6) (h : decodeSmfb w = .command i) : IsWordOf w i := by
  unfold decodeSmfb at h
  split_ifs at h with hfn
  obtain ⟨hrb, h⟩ := requireZero_command h
  obtain ⟨hrc, h⟩ := requireZero_command h
  obtain ⟨pd, hrd, h⟩ := withIndex8_command h
  obtain ⟨sa, hra, h⟩ := withIndex8_command h
  obtain rfl := Decoded.command.inj h
  exact ⟨assemble_eq hop hrd hra hrb.symm hrc.symm (not_not.mp hfn), rfl⟩

end

/-- Settles O3, opcode by opcode: a decoder that gives a command has fixed every field of the word. -/
theorem encodeOfDecodeIsTheWord : Obligations.EncodeOfDecodeIsTheWord := by
  intro w i h
  obtain hop | hop | hop | hop | hop | hop | hop := opcode_cases w.op
  · exact isWordOf_of_decodeMmul hop ((decode_eq_decodeMmul hop).symm.trans h)
  · exact isWordOf_of_decodeFred hop ((decode_eq_decodeFred hop).symm.trans h)
  · exact isWordOf_of_decodePdbl hop ((decode_eq_decodePdbl hop).symm.trans h)
  · exact isWordOf_of_decodePadd hop ((decode_eq_decodePadd hop).symm.trans h)
  · exact isWordOf_of_decodeSmvb hop ((decode_eq_decodeSmvb hop).symm.trans h)
  · exact isWordOf_of_decodeSmfb hop ((decode_eq_decodeSmfb hop).symm.trans h)
  · cases (decode_reserved hop).symm.trans h

/-! ## The opcode table -/

/-- The decoder gave a command. -/
def IsLegal (d : Decoded) : Prop := ∃ i, d = .command i

@[simp] theorem isLegal_command (i : Instr) : IsLegal (.command i) := ⟨i, rfl⟩

@[simp] theorem not_isLegal_illegal (e : DecodeError) : ¬ IsLegal (.illegal e) := nofun

@[simp] theorem isLegal_requireZero {n : Nat} (x : BitVec n) (k : Decoded) :
    IsLegal (requireZero x k) ↔ x = 0 ∧ IsLegal k := by
  unfold requireZero
  split_ifs with hx
  · simp only [hx, true_and]
  · simp only [hx, false_and, not_isLegal_illegal]

@[simp] theorem isLegal_withIndex8 (x : BitVec 5) (k : Fin 8 → Decoded) :
    IsLegal (withIndex8 x k) ↔ ∃ h : x.toNat < 8, IsLegal (k ⟨x.toNat, h⟩) := by
  unfold withIndex8
  split_ifs with hx <;> simp [hx]

@[simp] theorem isLegal_ite (c : Prop) [Decidable c] (d e : Decoded) :
    IsLegal (if c then d else e) ↔ if c then IsLegal d else IsLegal e := by
  rw [apply_ite IsLegal]

@[simp] theorem and_ones4 (x : BitVec 4) : x &&& 0xF#4 = x := BitVec.and_allOnes

@[simp] theorem and_ones5 (x : BitVec 5) : x &&& 0x1F#5 = x := BitVec.and_allOnes

@[simp] theorem and_ones8 (x : BitVec 8) : x &&& 0xFF#8 = x := BitVec.and_allOnes

/-- Two words are equal when their six fields are (rule R91). -/
theorem word_eq_iff {w v : CommandWord} :
    w = v ↔ w.op = v.op ∧ w.rd = v.rd ∧ w.ra = v.ra ∧ w.rb = v.rb ∧ w.rc = v.rc ∧ w.fn = v.fn := by
  constructor
  · rintro rfl
    exact ⟨rfl, rfl, rfl, rfl, rfl, rfl⟩
  · rintro ⟨hop, hrd, hra, hrb, hrc, hfn⟩
    rw [← assemble_fields w, hop, hrd, hra, hrb, hrc, hfn, assemble_fields]

/-- The test of rule R103, field by field. -/
theorem accepts_iff {r : OpcodeRow} {w : CommandWord} :
    r.accepts w = true ↔ w.op &&& r.mask.op = r.pattern.op ∧ w.rd &&& r.mask.rd = r.pattern.rd ∧
      w.ra &&& r.mask.ra = r.pattern.ra ∧ w.rb &&& r.mask.rb = r.pattern.rb ∧ w.rc &&& r.mask.rc = r.pattern.rc ∧
      w.fn &&& r.mask.fn = r.pattern.fn := by
  rw [OpcodeRow.accepts, beq_iff_eq, word_eq_iff]
  simp only [CommandWord.op, CommandWord.rd, CommandWord.ra, CommandWord.rb, CommandWord.rc, CommandWord.fn,
    BitVec.extractLsb'_and]

/-- The table of rule R103 as conditions on the fields, the rows of one opcode together. -/
theorem opcodeTable_any (w : CommandWord) : opcodeTable.any (·.accepts w) = true ↔
    (w.op = 1 ∧ w.rc = 0 ∧ w.fn = 0) ∨ (w.op = 2 ∧ w.rb = 0 ∧ w.rc = 0 ∧ (w.fn = 0 ∨ w.fn = 1)) ∨
    (w.op = 3 ∧ w.rb = 0 ∧ w.rc = 0) ∨ (w.op = 4 ∧ w.rc = 0 ∧ (w.fn = 0 ∨ w.fn = 1 ∨ w.fn = 2)) ∨
    (w.op = 5 ∧ w.fn = 0) ∨ (w.op = 6 ∧ w.rb = 0 ∧ w.rc = 0 ∧ w.fn = 0) := by
  simp [opcodeTable, accepts_iff, CommandWord.op, CommandWord.rd, CommandWord.ra, CommandWord.rb, CommandWord.rc,
    CommandWord.fn, and_or_left, or_assoc]

section
variable (w : CommandWord)

theorem isLegal_decodeMmul : IsLegal (decodeMmul w) ↔
    w.fn = 0 ∧ w.rc = 0 ∧ w.rb.toNat < 8 ∧ w.ra.toNat < 8 ∧ w.rd.toNat < 8 ∧ w.rd.toNat < 6 := by
  simp [decodeMmul]

theorem isLegal_decodeFred : IsLegal (decodeFred w) ↔ w.rb = 0 ∧ w.rc = 0 ∧ (w.fn = 0 ∨ w.fn = 1) := by
  simp [decodeFred, or_iff_not_imp_left]

theorem isLegal_decodePdbl : IsLegal (decodePdbl w) ↔
    w.rb = 0 ∧ w.rc = 0 ∧ w.rd.toNat < 8 ∧ w.ra.toNat < 8 := by
  simp [decodePdbl]

theorem isLegal_decodePadd : IsLegal (decodePadd w) ↔
    w.rc = 0 ∧ w.rb.toNat < 8 ∧ w.ra.toNat < 8 ∧ w.rd.toNat < 8 ∧ (w.fn = 0 ∨ w.fn = 1 ∨ w.fn = 2) := by
  simp [decodePadd, or_iff_not_imp_left]

theorem isLegal_decodeSmvb : IsLegal (decodeSmvb w) ↔
    w.fn = 0 ∧ w.rb.toNat < 8 ∧ w.ra.toNat < 8 ∧ w.rd.toNat < 8 ∧ w.rc.toNat < 8 := by
  simp [decodeSmvb]

theorem isLegal_decodeSmfb : IsLegal (decodeSmfb w) ↔
    w.fn = 0 ∧ w.rb = 0 ∧ w.rc = 0 ∧ w.rd.toNat < 8 ∧ w.ra.toNat < 8 := by
  simp [decodeSmfb]

/-- The decoder of each opcode asks what the rows of that opcode and the index ranges ask (rules R97, R103, R202). -/
theorem isLegal_decode_iff : IsLegal (decode w) ↔ legalByTable w = true := by
  rw [legalByTable, Bool.and_eq_true, opcodeTable_any]
  obtain hop | hop | hop | hop | hop | hop | hop := opcode_cases w.op
  · rw [decode_eq_decodeMmul hop, isLegal_decodeMmul]
    simp [hop, and_assoc, and_comm, and_left_comm]
  · rw [decode_eq_decodeFred hop, isLegal_decodeFred]
    simp [hop]
  · rw [decode_eq_decodePdbl hop, isLegal_decodePdbl]
    simp [hop, and_assoc]
  · rw [decode_eq_decodePadd hop, isLegal_decodePadd]
    simp [hop, and_assoc, and_comm, and_left_comm]
  · rw [decode_eq_decodeSmvb hop, isLegal_decodeSmvb]
    simp [hop, and_comm, and_left_comm]
  · rw [decode_eq_decodeSmfb hop, isLegal_decodeSmfb]
    simp [hop, and_assoc, and_comm, and_left_comm]
  · rw [decode_reserved hop]
    refine iff_of_false (not_isLegal_illegal _) fun ⟨hrow, _⟩ => ?_
    obtain ⟨h, -⟩ | ⟨h, -⟩ | ⟨h, -⟩ | ⟨h, -⟩ | ⟨h, -⟩ | ⟨h, -⟩ := hrow <;> simp [h] at hop

end

/-- Two rows whose patterns agree where both masks look are one row (rule R103). -/
theorem eq_of_patterns_agree : ∀ r ∈ opcodeTable, ∀ q ∈ opcodeTable,
    r.pattern &&& q.mask = q.pattern &&& r.mask → r = q := by decide

theorem encode_matchesRow (i : Instr) : EncodeMatchesRow.Statement i := by
  cases i with
  | mmul sd sa sb => exact EncodeMatchesRow.mmul sd sa sb
  | fred fd fa => exact EncodeMatchesRow.fred fd fa
  | fredc fd fa => exact EncodeMatchesRow.fredc fd fa
  | pdbl pd pa k => exact EncodeMatchesRow.pdbl pd pa k
  | paddE pd pa pb => exact EncodeMatchesRow.paddE pd pa pb
  | paddPN pd pa pb => exact EncodeMatchesRow.paddPN pd pa pb
  | paddAN pd pa pb => exact EncodeMatchesRow.paddAN pd pa pb
  | smvb pd sa pA sb => exact EncodeMatchesRow.smvb pd sa pA sb
  | smfb pd sa => exact EncodeMatchesRow.smfb pd sa

/-- Settles O4: the decoder and the recipe ask the same of the fields; a word in two rows makes their patterns agree
where both masks look; and a legal word is the encoding of its command, which matches the command's row. -/
theorem decoderMatchesOpcodeTable : Obligations.DecoderMatchesOpcodeTable := by
  refine ⟨isLegal_decode_iff, fun w r hr q hq hrw hqw => eq_of_patterns_agree r hr q hq ?_, fun w i h => ?_⟩
  · rw [← beq_iff_eq.mp hrw, ← beq_iff_eq.mp hqw, BitVec.and_assoc, BitVec.and_assoc, BitVec.and_comm r.mask]
  · obtain ⟨rfl, -⟩ := encodeOfDecodeIsTheWord w i h
    exact encode_matchesRow i

/-! ## The step of a `CMD` write -/

/-- In the unfaulted state the word of a command runs it (rule R90, steps 3 and 4). -/
theorem issue_command {w : CommandWord} {s : State} {i : Instr} (hfault : s.fault = 0) (h : decode w = .command i) :
    issue w s = exec i s := by
  rw [issue, if_neg (by simp [hfault]), h]

/-- In the unfaulted state a word that is no command raises `IllegalCommand` (rule R90, step 2). -/
theorem issue_illegal {w : CommandWord} {s : State} (hfault : s.fault = 0) (h : ∀ i, decode w ≠ .command i) :
    issue w s = .next (s.raised .illegalCommand w) := by
  obtain ⟨hf, -⟩ | ⟨-, _, -, hraised⟩ | ⟨-, i, hi, -⟩ := issue_cases w s
  · rw [hfault] at hf; cases hf
  · exact hraised
  · exact absurd hi (h i)

/-- The step of a write of a word that is no command is the fault entry (rule R205). -/
theorem step_illegalCommand {s : State} {v : HostWord} {rest : List HostAction}
    (hhost : s.host = .memWrite 0x000 8 v :: rest) (hfault : s.fault = 0)
    (h : ∀ i, decode (v.extractLsb' 0 32) ≠ .command i) :
    ∃ t, step s = .next t ∧ OnlyFault .illegalCommand (v.extractLsb' 0 32) { s with host := rest } t :=
  ⟨_, (step_command hhost).trans (issue_illegal hfault h), onlyFault_raised _ _ _⟩

theorem instr?_eq_some {d : Decoded} {i : Instr} : d.instr? = some i ↔ d = .command i := by
  cases d <;> simp [Decoded.instr?]

/-- Settles O5: the step issues the low half of the value, and `withFetchWord` puts a write of the word itself first. -/
theorem stepRunsTheDecodedCommand : Obligations.StepRunsTheDecodedCommand := by
  refine ⟨fun s v rest i hhost hfault hi => (step_command hhost).trans (issue_command hfault hi), ?_⟩
  intro s w i hfault _ hi
  have hstep : step (s.withFetchWord 32 w) = issue (BitVec.ofNat 32 (w % 2 ^ 32)) s := by
    rw [step_command (v := (BitVec.ofNat 32 (w % 2 ^ 32)).setWidth 64) (rest := s.host) rfl, ← commandWord_eq,
      commandWord_setWidth]
    rfl
  exact hstep.trans (issue_command hfault (instr?_eq_some.mp hi))

/-- The opcode of the word in a value written to `CMD` (rules R65, R91). -/
theorem op_lowHalf (v : HostWord) : CommandWord.op (v.extractLsb' 0 32) = v.extractLsb' 28 4 :=
  BitVec.extractLsb'_extractLsb'_of_le (by decide)

/-- Settles O6: the decoder refuses a reserved opcode before it looks at another field. -/
theorem reservedOpcodesRaiseIllegalCommand : Obligations.ReservedOpcodesRaiseIllegalCommand := by
  intro s v rest hhost hfault hop
  rw [← op_lowHalf] at hop
  exact step_illegalCommand hhost hfault (ne_command_of_illegal (decode_reserved hop))

/-- Settles O7: a word that decodes is the encoding of a well-formed command, so these words do not. -/
theorem illegalWordsRaiseIllegalCommand : Obligations.IllegalWordsRaiseIllegalCommand := by
  intro s v rest hhost hfault hencode
  refine step_illegalCommand hhost hfault fun i hi => ?_
  obtain ⟨hword, hwf⟩ := encodeOfDecodeIsTheWord _ i hi
  exact hencode i hwf hword

/-! ## The hardwired destinations of `MMUL` -/

theorem decode_hardwiredDestination {sd : ScalarReg} (sa sb : ScalarReg) (h : ¬ sd.val < 6) :
    decode (encode (.mmul sd sa sb)) = .illegal .hardwiredDestination := by
  simp [encode, decode_eq_decodeMmul, decodeMmul, h]

theorem exec_mmul_hardwired {sd : ScalarReg} (sa sb : ScalarReg) (s : State) (h : ¬ sd.val < 6) :
    exec (.mmul sd sa sb) s = .next (s.raised .illegalCommand (encode (.mmul sd sa sb))) := if_neg h

/-- Settles O27: the decoder's last check on opcode `0x1`, and the meaning's own check (log entry 12). -/
theorem mmulHardwiredDestinationIsIllegal : Obligations.MmulHardwiredDestinationIsIllegal := fun _ sa sb h =>
  ⟨ne_command_of_illegal (decode_hardwiredDestination sa sb h),
    fun s => ⟨_, exec_mmul_hardwired sa sb s h, onlyFault_raised _ _ _⟩⟩

/-! ## The frame of every command -/

/-- Settles O52: by what a command leaves behind, a fault raised or its destination written. -/
theorem commandsChangeOnlyTheirDestination : Obligations.CommandsChangeOnlyTheirDestination := by
  intro i s t h
  obtain ⟨u, hu, heffect⟩ := exec_effect i s
  obtain rfl : u = t := Host.Outcome.next.inj (hu.symm.trans h)
  obtain ⟨hhost, hreplies⟩ := heffect.host
  refine ⟨hhost, hreplies, ?_⟩
  cases heffect with
  | raised c => exact .inl ⟨rfl, rfl, rfl, fun a ha => peekByte_raised s c _ ha⟩
  | field r v hdest => exact .inr ⟨by simp [SameControl], fun a ha => peekByte_writeField s r v (mt (hdest a) ha)⟩
  | scalar r v hdest => exact .inr ⟨by simp [SameControl], fun a ha => peekByte_writeScalar s r v (mt (hdest a) ha)⟩
  | scalarDrawn r v hdest =>
    exact .inr ⟨by simp [SameControl], fun a ha => peekByte_writeScalar s r v (mt (hdest a) ha)⟩
  | point r p hdest => exact .inr ⟨by simp [SameControl], fun a ha => peekByte_writePoint s r p (mt (hdest a) ha)⟩
  | pointDrawn r p hdest =>
    exact .inr ⟨by simp [SameControl], fun a ha => peekByte_writePoint s r p (mt (hdest a) ha)⟩

end Sys2Proof.Proofs
end

section
/-! The field reducer of 40_field_reduce.md: `FRED` is one parallel carry pass (rules R121, R122), `FREDC` writes the
canonical limbs (rules R123, R124), and the branch-free realisation computes them (rule R125). -/

namespace Sys2Proof.Proofs

open Sys2Proof.Machine Sys2Proof.Laws

/-! ## The commands -/

/-- A legal command has one word, its encoding (rules R91, R97, R98). -/
theorem decode_eq_command_iff {w : CommandWord} {i : Instr} (hi : i.wellFormed = true) :
    decode w = .command i ↔ w = encode i := by
  constructor
  · intro h
    obtain ⟨hword, -⟩ := encodeOfDecodeIsTheWord w i h
    exact hword.symm
  · rintro rfl
    exact decodeOfEncodeIsTheCommand i hi

theorem exec_fred (fd fa : FieldReg) (s : State) :
    exec (.fred fd fa) s = .next (s.writeField fd (weakReduce s.f[fa])) := rfl

theorem exec_fredc (fd fa : FieldReg) (s : State) :
    exec (.fredc fd fa) s = .next (s.writeField fd (canonicalReduce s.f[fa])) := rfl

/-! ## The limbs of a weak pass -/

section
variable (v : FieldElement)

theorem weakReduce_limb_zero : ((weakReduce v)[(0 : Fin 5)]).toNat = limbLow v 0 + 19 * limbCarry v 4 := by
  obtain ⟨h0, -⟩ := weakReduce_limbs v
  exact h0

theorem weakReduce_limb_succ (j : Fin 4) :
    ((weakReduce v)[j.succ]).toNat = limbLow v j.succ + limbCarry v j.castSucc := by
  obtain ⟨-, h1, h2, h3, h4⟩ := weakReduce_limbs v
  fin_cases j
  exacts [h1, h2, h3, h4]

theorem limbCarry_le (j : Fin 5) : limbCarry v j ≤ 2 ^ 13 := (limbCarry_lt v j).le

/-- The pass lets limb 0 exceed 51 bits by 19 times the carry out of the top limb. -/
theorem weakReduce_limb_zero_lt {c : Nat} (hc : limbCarry v 4 ≤ c) :
    ((weakReduce v)[(0 : Fin 5)]).toNat < 2 ^ 51 + 19 * c := by
  have hlow := limbLow_lt v 0
  rw [weakReduce_limb_zero]
  omega

/-- The pass lets limbs 1 to 4 exceed 51 bits by the carry out of the limb below. -/
theorem weakReduce_limb_lt {c : Nat} (hc : ∀ j, limbCarry v j ≤ c) {j : Fin 5} (hj : j ≠ 0) :
    ((weakReduce v)[j]).toNat < 2 ^ 51 + c := by
  obtain ⟨i, rfl⟩ := Fin.exists_succ_eq.mpr hj
  have hlow := limbLow_lt v i.succ
  have hcarry := hc i.castSucc
  rw [weakReduce_limb_succ]
  omega

/-- After one pass every limb is below `2^52`, so the carries of the next are at most 1 (rule R122(b)). -/
theorem limbCarry_weakReduce_le (j : Fin 5) : limbCarry (weakReduce v) j ≤ 1 := by
  have hcarry := limbCarry_le v
  have hlimb : ((weakReduce v)[j]).toNat < 2 ^ 52 := by
    by_cases hj : j = 0
    · subst hj
      exact (weakReduce_limb_zero_lt v (hcarry 4)).trans (by norm_num)
    · exact (weakReduce_limb_lt v hcarry hj).trans (by norm_num)
  unfold limbCarry
  omega

/-- The limbs after two passes (rule R122(d)). -/
theorem weakReduce_weakReduce_limb_zero_le : ((weakReduce (weakReduce v))[(0 : Fin 5)]).toNat ≤ 2 ^ 51 + 18 :=
  Nat.le_of_lt_succ (weakReduce_limb_zero_lt _ (limbCarry_weakReduce_le v 4))

theorem weakReduce_weakReduce_limb_le {j : Fin 5} (hj : j ≠ 0) :
    ((weakReduce (weakReduce v))[j]).toNat ≤ 2 ^ 51 :=
  Nat.le_of_lt_succ (weakReduce_limb_lt _ (limbCarry_weakReduce_le v) hj)

end

/-- Settles O11: the limbs are `weakReduce_limbs`, and the word is the encoding (rule R121). -/
theorem fredIsOneParallelCarryPass : Obligations.FredIsOneParallelCarryPass := by
  intro fd fa s
  refine ⟨fun w => decode_eq_command_iff rfl, _, exec_fred fd fa s, onlyField_writeField s fd _, ?_⟩
  rw [writeField_same]
  obtain ⟨h0, h1, h2, h3, h4⟩ := weakReduce_limbs s.f[fa]
  refine ⟨h0, h1, h2, h3, h4, fun hones => ?_⟩
  rw [hones]
  decide

/-! ## Limb vectors below `2^51` -/

/-- Two limb vectors are equal when their limbs are, as integers. -/
theorem fieldElement_ext {v w : FieldElement} (h : ∀ j : Fin 5, (v[j]).toNat = (w[j]).toNat) : v = w :=
  Vector.ext fun j hj => BitVec.eq_of_toNat_eq (h ⟨j, hj⟩)

theorem limbs51_getElem (n : Nat) (j : Fin 5) : (limbs51 n)[j] = limb51 n j := by
  fin_cases j <;> rfl

theorem limbs51_limb_lt (n : Nat) (j : Fin 5) : ((limbs51 n)[j]).toNat < 2 ^ 51 := by
  rw [limbs51_getElem, limb51_toNat]
  exact Nat.mod_lt _ (by norm_num)

/-- A vector with every limb below `2^51` is the one `limbs51` gives for its value (rule R9). -/
theorem limbs51_fval {v : FieldElement} (h : ∀ j : Fin 5, (v[j]).toNat < 2 ^ 51) : limbs51 (fval v) = v := by
  have h0 : v[0].toNat < 2 ^ 51 := h 0
  have h1 : v[1].toNat < 2 ^ 51 := h 1
  have h2 : v[2].toNat < 2 ^ 51 := h 2
  have h3 : v[3].toNat < 2 ^ 51 := h 3
  have h4 : v[4].toNat < 2 ^ 51 := h 4
  refine fieldElement_ext fun j => ?_
  rw [limbs51_getElem, limb51_toNat, fval]
  fin_cases j <;> simp <;> omega

/-- Limbs below `2^51` carry nothing, so the pass leaves them alone (rule R122(c)). -/
theorem weakReduce_of_limbs_lt {v : FieldElement} (h : ∀ j : Fin 5, (v[j]).toNat < 2 ^ 51) : weakReduce v = v := by
  have hcarry (j : Fin 5) : limbCarry v j = 0 := Nat.div_eq_of_lt (h j)
  have hlow (j : Fin 5) : limbLow v j = (v[j]).toNat := Nat.mod_eq_of_lt (h j)
  refine fieldElement_ext fun j => ?_
  cases j using Fin.cases with
  | zero => rw [weakReduce_limb_zero, hcarry, hlow, mul_zero, add_zero]
  | succ i => rw [weakReduce_limb_succ, hcarry, hlow, add_zero]

theorem fieldValue_limbs51_fieldPrime : fieldValue (limbs51 fieldPrime) = 0 := by
  rw [fieldValue, fval_limbs51 (by norm_num [fieldPrime]), Nat.mod_self]

/-- The input of rule R122(d) on which a second pass still moves a carry. -/
theorem weakReduce_not_idempotent : ∃ v : FieldElement, weakReduce (weakReduce v) ≠ weakReduce v :=
  ⟨#v[0xfffffffffffff, 0x7ffffffffffff, 0, 0, 0], by decide⟩

/-- Settles O12: one pass keeps the value by `fieldValue_weakReduce`, and what it carries bounds its limbs. -/
theorem fredKeepsTheValueAndBoundsTheLimbs : Obligations.FredKeepsTheValueAndBoundsTheLimbs := by
  refine ⟨fun fd fa s => ⟨_, exec_fred fd fa s, ?_⟩, ?_, fun fd fa s hp => ⟨_, exec_fred fd fa s, ?_⟩⟩
  · have hcarry := limbCarry_le s.f[fa]
    rw [writeField_same]
    refine ⟨fieldValue_weakReduce _, weakReduce_limb_zero_lt _ (hcarry 4), fun j => weakReduce_limb_lt _ hcarry,
      weakReduce_of_limbs_lt, _, exec_fred fd fd _, ?_⟩
    rw [writeField_same, writeField_same]
    exact ⟨weakReduce_weakReduce_limb_zero_le _, fun j => weakReduce_weakReduce_limb_le _⟩
  · obtain ⟨v, hv⟩ := weakReduce_not_idempotent
    have hread (s : State) (u : FieldElement) : (s.writeField 0 u).f[0] = u := writeField_same s 0 u
    refine ⟨State.reset.writeField 0 v, _, _, exec_fred 0 0 _, exec_fred 0 0 _, ?_⟩
    rw [writeField_same, writeField_same, hread, hread]
    exact hv
  · rw [writeField_same, hp, weakReduce_of_limbs_lt (limbs51_limb_lt fieldPrime)]
    exact ⟨rfl, fieldValue_limbs51_fieldPrime⟩

/-! ## The canonical limbs -/

/-- Settles O13: the limbs are those of `limbs51`, and both examples are known by their value (rule R123). -/
theorem fredcWritesTheCanonicalLimbs : Obligations.FredcWritesTheCanonicalLimbs := by
  intro fd fa s
  refine ⟨fun w => decode_eq_command_iff rfl, _, exec_fredc fd fa s, onlyField_writeField s fd _, ?_⟩
  rw [writeField_same]
  refine ⟨fun j => ?_, fun hp => ?_, fun hp => ?_⟩
  · rw [canonicalReduce, limbs51_getElem, limb51_toNat, Nat.and_two_pow_sub_one_eq_mod, Nat.shiftRight_eq_div_pow]
    rfl
  · have hzero : fieldValue s.f[fa] = 0 := hp ▸ fieldValue_limbs51_fieldPrime
    rw [canonicalReduce, hzero]
    rfl
  · have hone : fieldValue s.f[fa] = 1 := by rw [hp]; decide +kernel
    rw [canonicalReduce, hone]
    rfl

theorem fieldValue_canonicalReduce (v : FieldElement) : fieldValue (canonicalReduce v) = fieldValue v :=
  fieldValue_limbs51 (fieldValue_lt v)

theorem canonicalReduce_canonicalReduce (v : FieldElement) : canonicalReduce (canonicalReduce v) = canonicalReduce v :=
  congrArg limbs51 (fieldValue_canonicalReduce v)

/-- Field equality is equality of the canonical limbs (rule R124(c)). -/
theorem canonicalReduce_inj {v w : FieldElement} :
    canonicalReduce v = canonicalReduce w ↔ fieldValue v = fieldValue w := by
  refine ⟨fun h => ?_, fun h => congrArg limbs51 h⟩
  rw [← fieldValue_canonicalReduce v, h, fieldValue_canonicalReduce]

/-- Settles O14: the value of the canonical limbs is the value they were made from (rule R124). -/
theorem fredcDecidesFieldEquality : Obligations.FredcDecidesFieldEquality := by
  intro fd ga gb s
  refine ⟨_, _, _, exec_fredc fd ga s, exec_fredc fd gb s, exec_fredc fd fd _, ?_⟩
  simp only [writeField_same]
  exact ⟨fval_canonicalReduce _, limbs51_limb_lt _, canonicalReduce_canonicalReduce _, canonicalReduce_inj⟩

/-! ## The branch-free realisation -/

/-- The quotient of rule R125: the carry that leaves the top limb once 19 is added at the bottom. -/
def rippleQuotient (u : FieldElement) : Nat :=
  (u[4].toNat + (u[3].toNat + (u[2].toNat + (u[1].toNat + (u[0].toNat + 19) / 2 ^ 51) / 2 ^ 51) / 2 ^ 51) / 2 ^ 51) /
    2 ^ 51

/-- The carry ripple of rule R125 after `19 * q` is added to limb 0, with the top of limb 4 cut off. -/
def rippleLimbs (u : FieldElement) (q : Nat) : FieldElement :=
  let m0 := u[0].toNat + 19 * q
  let m1 := u[1].toNat + m0 / 2 ^ 51
  let m2 := u[2].toNat + m1 / 2 ^ 51
  let m3 := u[3].toNat + m2 / 2 ^ 51
  let m4 := u[4].toNat + m3 / 2 ^ 51
  #v[BitVec.ofNat 64 (m0 % 2 ^ 51), BitVec.ofNat 64 (m1 % 2 ^ 51), BitVec.ofNat 64 (m2 % 2 ^ 51),
    BitVec.ofNat 64 (m3 % 2 ^ 51), BitVec.ofNat 64 (m4 % 2 ^ 51)]

theorem canonicalByPasses_eq_rippleLimbs (v : FieldElement) :
    canonicalByPasses v = rippleLimbs (weakReduce (weakReduce v)) (rippleQuotient (weakReduce (weakReduce v))) := rfl

theorem rippleQuotient_eq (u : FieldElement) : rippleQuotient u = (fval u + 19) / 2 ^ 255 := by
  unfold rippleQuotient fval
  omega

/-- The low 51 bits of an integer fit a limb. -/
theorem toNat_ofNat_low51 (m : Nat) : (BitVec.ofNat 64 (m % 2 ^ 51)).toNat = m % 2 ^ 51 := by
  rw [BitVec.toNat_ofNat]
  omega

theorem rippleLimbs_limb_lt (u : FieldElement) (q : Nat) (j : Fin 5) : ((rippleLimbs u q)[j]).toNat < 2 ^ 51 := by
  fin_cases j
  all_goals exact (toNat_ofNat_low51 _).trans_lt (Nat.mod_lt _ (by norm_num))

/-- The ripple keeps the value, and the cut takes it modulo `2^255`. -/
theorem fval_rippleLimbs (u : FieldElement) (q : Nat) : fval (rippleLimbs u q) = (fval u + 19 * q) % 2 ^ 255 := by
  simp only [fval, rippleLimbs, Vector.getElem_mk, List.getElem_toArray, List.getElem_cons_zero,
    List.getElem_cons_succ, toNat_ofNat_low51]
  omega

theorem rippleLimbs_eq (u : FieldElement) (q : Nat) : rippleLimbs u q = limbs51 ((fval u + 19 * q) % 2 ^ 255) := by
  rw [← fval_rippleLimbs, limbs51_fval (rippleLimbs_limb_lt u q)]

/-- Below `2p` one subtraction of `p` reduces: add 19 when the value is at least `p`, and drop bit 255 (rule R125). -/
theorem add_quotient_mod {n : Nat} (h : n < 2 * fieldPrime) :
    (n + 19 * ((n + 19) / 2 ^ 255)) % 2 ^ 255 = n % fieldPrime := by
  obtain hlt | hge := lt_or_ge n fieldPrime
  · have hq : (n + 19) / 2 ^ 255 = 0 := by unfold fieldPrime at hlt; omega
    rw [hq, Nat.mod_eq_of_lt hlt]
    exact Nat.mod_eq_of_lt (hlt.trans (by norm_num [fieldPrime]))
  · have hq : (n + 19) / 2 ^ 255 = 1 := by unfold fieldPrime at h hge; omega
    rw [hq, Nat.mod_eq_sub_mod hge]
    unfold fieldPrime at h hge ⊢
    omega

/-- Two passes leave a value below `2p` (rule R125). -/
theorem fval_weakReduce_weakReduce_lt (v : FieldElement) : fval (weakReduce (weakReduce v)) < 2 * fieldPrime := by
  have h0 : (weakReduce (weakReduce v))[0].toNat ≤ 2 ^ 51 + 18 := weakReduce_weakReduce_limb_zero_le v
  have h1 : (weakReduce (weakReduce v))[1].toNat ≤ 2 ^ 51 := weakReduce_weakReduce_limb_le v (j := 1) (by decide)
  have h2 : (weakReduce (weakReduce v))[2].toNat ≤ 2 ^ 51 := weakReduce_weakReduce_limb_le v (j := 2) (by decide)
  have h3 : (weakReduce (weakReduce v))[3].toNat ≤ 2 ^ 51 := weakReduce_weakReduce_limb_le v (j := 3) (by decide)
  have h4 : (weakReduce (weakReduce v))[4].toNat ≤ 2 ^ 51 := weakReduce_weakReduce_limb_le v (j := 4) (by decide)
  unfold fval fieldPrime
  omega

theorem canonicalByPasses_eq_canonicalReduce (v : FieldElement) : canonicalByPasses v = canonicalReduce v := by
  have hvalue : fieldValue (weakReduce (weakReduce v)) = fieldValue v := by
    rw [fieldValue_weakReduce, fieldValue_weakReduce]
  rw [canonicalByPasses_eq_rippleLimbs, rippleLimbs_eq, rippleQuotient_eq,
    add_quotient_mod (fval_weakReduce_weakReduce_lt v), canonicalReduce, ← hvalue, fieldValue]

/-- Settles O15: the ripple leaves the limbs of the value, which the quotient has made canonical (rule R125). -/
theorem fredcRealisationAgrees : Obligations.FredcRealisationAgrees := fun fd fa s =>
  ⟨_, exec_fredc fd fa s, (writeField_same s fd _).trans (canonicalByPasses_eq_canonicalReduce _).symm⟩

end Sys2Proof.Proofs
end

section
/-! The point doubler of 41_point_double.md: the count 0 is refused (rule R131), one doubling writes the formulas and a count
repeats them (rule R132), a valid point is multiplied by `2^k` (rule R133), and the corner cases (rule R134). -/

namespace Sys2Proof.Proofs

open Sys2Proof.Machine Sys2Proof.Laws

/-! ## Doubling tuples -/

/-- The coordinates of `ext` are products reduced modulo `p`, so reducing them again changes nothing. -/
theorem ext_mod (C : Completed) :
    (⟨(ext C).X % fieldPrime, (ext C).Y % fieldPrime, (ext C).Z % fieldPrime, (ext C).T % fieldPrime⟩ : Extended) =
      ext C := by
  simp only [ext, Nat.mod_eq_of_lt (fmul_lt _ _)]

/-- Any number of doublings ends with `ext`, the conversion to Extended (rule R132). -/
theorem doubleTimes_eq_ext (P : Projective) (n : Nat) : ∃ C, doubleTimes P n = ext C := by
  cases n with
  | zero => exact ⟨_, rfl⟩
  | succ n => exact ⟨_, rfl⟩

/-- A product in `GF(p)` of two values known as integers (rule R20(b)). -/
theorem fmul_eq_emod {a b : Nat} {x y : Int} (ha : (a : Fp) = x) (hb : (b : Fp) = y) :
    (fmul a b : Int) = x * y % (2 ^ 255 - 19) :=
  eq_emod_of_cast (fmul_lt a b) (by rw [cast_fmul, ha, hb, Int.cast_mul])

/-- The four values of `ext`, from the Completed coordinates as integers (rules R132, R141). -/
theorem ext_values {C : Completed} {x y z t : Int} (hx : (C.X : Fp) = x) (hy : (C.Y : Fp) = y) (hz : (C.Z : Fp) = z)
    (ht : (C.T : Fp) = t) :
    ((ext C).X : Int) = x * t % (2 ^ 255 - 19) ∧ ((ext C).Y : Int) = y * z % (2 ^ 255 - 19) ∧
      ((ext C).Z : Int) = z * t % (2 ^ 255 - 19) ∧ ((ext C).T : Int) = x * y % (2 ^ 255 - 19) :=
  ⟨fmul_eq_emod hx ht, fmul_eq_emod hy hz, fmul_eq_emod hz ht, fmul_eq_emod hx hy⟩

/-- The four values of one doubling, as integers modulo `p` (rule R132). -/
theorem doubleOnce_values {P : Projective} {Cx Cy Cz Ct : Int}
    (hx : Cx = ((P.X : Int) + P.Y) * (P.X + P.Y) - (P.Y * P.Y + P.X * P.X)) (hy : Cy = P.Y * P.Y + P.X * P.X)
    (hz : Cz = P.Y * P.Y - P.X * P.X) (ht : Ct = 2 * P.Z * P.Z - Cz) :
    ((doubleOnce P).X : Int) = Cx * Ct % (2 ^ 255 - 19) ∧ ((doubleOnce P).Y : Int) = Cy * Cz % (2 ^ 255 - 19) ∧
      ((doubleOnce P).Z : Int) = Cz * Ct % (2 ^ 255 - 19) ∧ ((doubleOnce P).T : Int) = Cx * Cy % (2 ^ 255 - 19) := by
  subst hx hy ht hz
  exact ext_values (by simp [doubleCompleted]) (by simp [doubleCompleted]) (by simp [doubleCompleted])
    (by simp [doubleCompleted])

/-- A tuple that doubles to a fixed point of doubling is taken there by every count. -/
theorem doubleTimes_of_fixed {P : Projective} {E : Extended} (hfirst : doubleOnce P = E)
    (hfixed : doubleOnce E.toProjective = E) (n : Nat) : doubleTimes P n = E := by
  induction n with
  | zero => exact hfirst
  | succ n ih => rw [doubleTimes, ih, hfixed]

/-! ## The command -/

/-- `PDBL` with a count of at least 1 completes, writes `p[pd]` alone, and leaves the values of `k` doublings there
(rules R40, R132). -/
theorem exec_pdbl (pd pa : PointReg) {k : BitVec 8} (s : State) (hk : k ≠ 0) :
    ∃ t, exec (.pdbl pd pa k) s = .next t ∧ OnlyPoint pd 0 s t ∧ PointBounded pd t ∧
      t.readExtended pd = doubleTimes (s.readProjective pa) (k.toNat - 1) := by
  refine ⟨_, if_neg hk, onlyPoint_writePoint _ _ _, pointBounded_writePoint _ _ (tupleBounded_reprExtended _ _ _), ?_⟩
  obtain ⟨C, hC⟩ := doubleTimes_eq_ext (s.readProjective pa) (k.toNat - 1)
  rw [slotValue_writeExtended, hC, ext_mod]

theorem exec_pdbl_zero (pd pa : PointReg) (s : State) :
    exec (.pdbl pd pa 0) s = .next (s.raised .preconditionViolation (encode (.pdbl pd pa 0))) := rfl

/-- `doubleTimes` counts the doublings after the first, which is always made (rule R131). -/
theorem toNat_sub_one_add_one {k : BitVec 8} (hk : k ≠ 0) : k.toNat - 1 + 1 = k.toNat := by
  bv_omega

/-- Settles O16: the values written are one `doubleOnce` of the Projective form, which slot 3 is no part of. -/
theorem pdblOnceWritesTheDoublingFormulas : Obligations.PdblOnceWritesTheDoublingFormulas := by
  intro pd pa s
  obtain ⟨t, hexec, honly, hbound, hread⟩ := exec_pdbl pd pa (k := 1) s (by decide)
  refine ⟨t, hexec, honly, hbound, ?_⟩
  rintro X Y Z Cx Cy Cz Ct rfl rfl rfl hx hy hz ht
  have values := doubleOnce_values (P := s.readProjective pa) hx hy hz ht
  rw [show doubleOnce (s.readProjective pa) = t.readExtended pd from hread.symm] at values
  exact values

/-- Settles O17: the values `k` doublings leave are read back as the Projective operand of one more. -/
theorem pdblRepeatsTheDoubling : Obligations.PdblRepeatsTheDoubling := by
  refine ⟨fun pd pa k s hk => ?_, fun pd pa k s hk hlast => ?_⟩
  · obtain ⟨t, hexec, honly, hbound, -⟩ := exec_pdbl pd pa s hk
    exact ⟨t, hexec, honly, hbound⟩
  · have hsucc : (k + 1).toNat = k.toNat + 1 := by bv_omega
    have hk1 : k + 1 ≠ 0 := by bv_omega
    obtain ⟨t, ht, -, -, hreadt⟩ := exec_pdbl pd pa s hk
    obtain ⟨u, hu, -, -, hreadu⟩ := exec_pdbl pd pd (k := 1) t (by decide)
    obtain ⟨v, hv, -, -, hreadv⟩ := exec_pdbl pd pa s hk1
    refine ⟨t, u, v, ht, hu, hv, ?_⟩
    calc v.readExtended pd = doubleTimes (s.readProjective pa) (k.toNat - 1 + 1) := by
          rw [hreadv, hsucc, Nat.add_sub_cancel, toNat_sub_one_add_one hk]
      _ = doubleOnce (t.readExtended pd).toProjective := by rw [doubleTimes, hreadt]
      _ = u.readExtended pd := hreadu.symm

/-- Settles O19: each doubling is `P + P` on the curve, where the law is complete (rule R133). -/
theorem pdblMultipliesByPowersOfTwo : Obligations.PdblMultipliesByPowersOfTwo := by
  intro pd pa k s hk hvalid
  obtain ⟨t, hexec, -, -, hread⟩ := exec_pdbl pd pa s hk
  have hP := good_projective hvalid
  have hrep := rep_doubleTimes hP (projRep_toAffine hvalid) (k.toNat - 1)
  rw [← hread, toNat_sub_one_add_one hk] at hrep
  have hQ := good_mulPoint hP (2 ^ k.toNat)
  exact ⟨t, hexec, hrep.valid hQ, (represents_iff hQ).2 hrep⟩

/-- Settles O20: each of the three tuples doubles to a fixed point of doubling (rule R134(a), (b), (e)). -/
theorem pdblCornerCases : Obligations.PdblCornerCases := by
  intro pd pa k s hk
  obtain ⟨t, hexec, ⟨-, -, hcontrol, -, -⟩, -, hread⟩ := exec_pdbl pd pa s hk
  have identity : doubleOnce ⟨0, 1, 1⟩ = ⟨0, 1, 1, 0⟩ := by decide +kernel
  have order2 : doubleOnce ⟨0, fieldPrime - 1, 1⟩ = ⟨0, 1, 1, 0⟩ := by decide +kernel
  have zero : doubleOnce ⟨0, 0, 0⟩ = ⟨0, 0, 0, 0⟩ := by decide +kernel
  refine ⟨t, hexec, hcontrol, fun h => ?_, fun h => ?_, fun h => ?_⟩ <;> rw [hread, h]
  · exact doubleTimes_of_fixed identity identity _
  · exact doubleTimes_of_fixed order2 identity _
  · exact doubleTimes_of_fixed zero zero _

/-- Settles O18: the count 0 is the command's one fault, and any other count writes the point register alone. -/
theorem pdblZeroCountViolatesThePrecondition : Obligations.PdblZeroCountViolatesThePrecondition := by
  refine fun pd pa k s => ⟨?_, fun hk => ?_⟩
  · rintro rfl
    exact ⟨_, exec_pdbl_zero pd pa s, onlyFault_raised _ _ _⟩
  · obtain ⟨t, hexec, ⟨-, -, hcontrol, -, -⟩, -, -⟩ := exec_pdbl pd pa s hk
    exact ⟨t, hexec, hcontrol⟩

end Sys2Proof.Proofs
end

section
/-! The point adder of 42_point_add.md: the three forms write the values of the unified formulas (rules R141 to R144), and
on valid operands the result represents the sum of the two points (rule R145). -/

namespace Sys2Proof.Proofs

open Sys2Proof.Machine Sys2Proof.Laws

/-! ## The shared tail of the three forms -/

/-- Every form completes, writes `p[pd]` alone, and leaves the values of `ext(addN(...))` there (rules R40, R141). -/
theorem addAndWrite_effect (w : CommandWord) (pd pa : PointReg) (N : ProjectiveNiels) (s : State) :
    ∃ t, addAndWrite w pd pa N s = .next t ∧ OnlyPoint pd 0 s t ∧ PointBounded pd t ∧
      t.readExtended pd = addNiels (s.readExtended pa) N := by
  refine ⟨_, rfl, onlyPoint_writePoint _ _ _, pointBounded_writePoint _ _ (tupleBounded_reprExtended _ _ _), ?_⟩
  rw [slotValue_writeExtended, addNiels, ext_mod]

/-- The four values written, as integers modulo `p`, from integers that stand for the Niels components (rule R141). -/
theorem addAndWrite_values (w : CommandWord) (pd pa : PointReg) {N : ProjectiveNiels} (s : State) {n0 n1 n2 n3 : Int}
    (h0 : (N.n0 : Fp) = n0) (h1 : (N.n1 : Fp) = n1) (h2 : (N.n2 : Fp) = n2) (h3 : (N.n3 : Fp) = n3) :
    ∃ t, addAndWrite w pd pa N s = .next t ∧ OnlyPoint pd 0 s t ∧ PointBounded pd t ∧
      ∀ PP MM TT ZZ2 : Int, PP = (s.slotValue pa 1 + s.slotValue pa 0) * n0 →
        MM = (s.slotValue pa 1 - s.slotValue pa 0) * n1 → TT = s.slotValue pa 3 * n3 →
        ZZ2 = 2 * (s.slotValue pa 2 * n2) →
        (t.slotValue pd 0 : Int) = (PP - MM) * (ZZ2 - TT) % (2 ^ 255 - 19) ∧
        (t.slotValue pd 1 : Int) = (PP + MM) * (ZZ2 + TT) % (2 ^ 255 - 19) ∧
        (t.slotValue pd 2 : Int) = (ZZ2 + TT) * (ZZ2 - TT) % (2 ^ 255 - 19) ∧
        (t.slotValue pd 3 : Int) = (PP - MM) * (PP + MM) % (2 ^ 255 - 19) := by
  obtain ⟨t, hexec, honly, hbound, hread⟩ := addAndWrite_effect w pd pa N s
  refine ⟨t, hexec, honly, hbound, ?_⟩
  rintro PP MM TT ZZ2 rfl rfl rfl rfl
  obtain ⟨hX, hY, hZ, hT⟩ := Extended.mk.inj hread
  rw [hX, hY, hZ, hT]
  refine ext_values ?_ ?_ ?_ ?_ <;> simp [addN, State.readExtended, h0, h1, h2, h3]

/-- With a valid first operand and a Niels tuple of `Q`, the tuple written is valid and represents the sum (rule R145). -/
theorem addAndWrite_adds (w : CommandWord) (pd pa : PointReg) {N : ProjectiveNiels} {Q : Affine} {s : State}
    (hvalid : (s.readExtended pa).valid = true) (hQ : Good Q) (hN : NielsRep N Q) :
    ∃ t, addAndWrite w pd pa N s = .next t ∧ (t.readExtended pd).valid = true ∧
      (t.readExtended pd).represents (Affine.add (s.readExtended pa).toAffine Q) = true := by
  obtain ⟨t, hexec, -, -, hread⟩ := addAndWrite_effect w pd pa N s
  have hP := good_toAffine hvalid
  have hrep := rep_addNiels hP hQ (rep_toAffine hvalid) hN
  rw [← hread] at hrep
  have hsum := good_add hP hQ
  exact ⟨t, hexec, hrep.valid hsum, (represents_iff hsum).2 hrep⟩

/-! ## The commands -/

theorem exec_paddE (pd pa pb : PointReg) (s : State) : exec (.paddE pd pa pb) s =
    addAndWrite (encode (.paddE pd pa pb)) pd pa (s.readExtended pb).toNiels s := rfl

theorem exec_paddPN (pd pa pb : PointReg) (s : State) : exec (.paddPN pd pa pb) s =
    addAndWrite (encode (.paddPN pd pa pb)) pd pa (s.readProjectiveNiels pb) s := rfl

theorem exec_paddAN (pd pa pb : PointReg) (s : State) : exec (.paddAN pd pa pb) s =
    addAndWrite (encode (.paddAN pd pa pb)) pd pa (s.readAffineNiels pb).widen s := rfl

/-- Settles O21: the Niels components are those of the second Extended operand. -/
theorem paddEWritesTheUnifiedSum : Obligations.PaddEWritesTheUnifiedSum := by
  intro pd pa pb s
  obtain ⟨t, hexec, honly, hbound, values⟩ := addAndWrite_values (encode (.paddE pd pa pb)) pd pa
    (N := (s.readExtended pb).toNiels) s
    (n0 := s.slotValue pb 1 + s.slotValue pb 0) (n1 := s.slotValue pb 1 - s.slotValue pb 0)
    (n2 := s.slotValue pb 2) (n3 := 2 * curveD * s.slotValue pb 3)
    (by simp [Extended.toNiels, State.readExtended]) (by simp [Extended.toNiels, State.readExtended])
    (by simp [Extended.toNiels, State.readExtended]) (by simp [Extended.toNiels, State.readExtended])
  refine ⟨t, (exec_paddE pd pa pb s).trans hexec, honly, hbound, ?_⟩
  rintro X1 Y1 Z1 T1 X2 Y2 Z2 T2 PP MM TT ZZ2 rfl rfl rfl rfl rfl rfl rfl rfl
  exact values PP MM TT ZZ2

/-- Settles O22: the Niels components are the four slots. -/
theorem paddPNWritesTheUnifiedSum : Obligations.PaddPNWritesTheUnifiedSum := by
  intro pd pa pb s
  obtain ⟨t, hexec, honly, hbound, values⟩ := addAndWrite_values (encode (.paddPN pd pa pb)) pd pa
    (N := s.readProjectiveNiels pb) s (Int.cast_natCast _).symm (Int.cast_natCast _).symm (Int.cast_natCast _).symm
    (Int.cast_natCast _).symm
  refine ⟨t, (exec_paddPN pd pa pb s).trans hexec, honly, hbound, ?_⟩
  rintro X1 Y1 Z1 T1 N0 N1 N2 N3 PP MM TT ZZ2 rfl rfl rfl rfl rfl rfl rfl rfl
  exact values PP MM TT ZZ2

/-- Settles O23: the Niels components are slots 0 and 1, the constant 1, and slot 2. -/
theorem paddANWritesTheUnifiedSum : Obligations.PaddANWritesTheUnifiedSum := by
  intro pd pa pb s
  obtain ⟨t, hexec, honly, hbound, values⟩ := addAndWrite_values (encode (.paddAN pd pa pb)) pd pa
    (N := (s.readAffineNiels pb).widen) s (Int.cast_natCast _).symm (Int.cast_natCast _).symm
    (n2 := 1) (by simp [AffineNiels.widen]) (Int.cast_natCast _).symm
  refine ⟨t, (exec_paddAN pd pa pb s).trans hexec, honly, hbound, ?_⟩
  rintro X1 Y1 Z1 T1 N0 N1 N2 PP MM TT ZZ2 rfl rfl rfl rfl rfl rfl rfl hPP hMM hTT hZZ2
  exact values PP MM TT ZZ2 hPP hMM hTT (by rw [mul_one]; exact hZZ2)

/-! ## The sum of two points -/

/-- Reducing the third component, which `Extended.toNiels` copies and a register holds modulo `p`, changes nothing in what
a Niels tuple represents (rules R13, R130). -/
theorem nielsRep_mod_n2 {N : ProjectiveNiels} {P : Affine} (h : NielsRep N P) :
    NielsRep ⟨N.n0, N.n1, N.n2 % fieldPrime, N.n3⟩ P :=
  ⟨by simpa using h.z, by simpa using h.n0, by simpa using h.n1, by simpa using h.n3⟩

/-- Settles O24: in each form the second operand is a Niels tuple of its point. -/
theorem paddAddsPoints : Obligations.PaddAddsPoints := by
  refine fun pd pa pb s hvalid => ⟨fun hE => ?_, fun E hE hread => ?_, fun Q hx hy hon hread => ?_⟩
  · rw [exec_paddE]
    exact addAndWrite_adds _ pd pa hvalid (good_toAffine hE) (rep_toAffine hE).toNiels
  · rw [exec_paddPN, hread]
    exact addAndWrite_adds _ pd pa hvalid (good_toAffine hE) (nielsRep_mod_n2 (rep_toAffine hE).toNiels)
  · rw [exec_paddAN, hread]
    exact addAndWrite_adds _ pd pa hvalid ⟨hx, hy, hon⟩ (nielsRep_affine Q)

end Sys2Proof.Proofs
end

section
/-! The Montgomery multiplier of 43_scalar_mmul.md: `MMUL` writes the reduced Montgomery product inside its value
precondition (rules R156, R157), the Montgomery domain (rule R159), the limb-wise realisation (rule R158), and the
pseudo-instruction `SMUL` (rule R160). -/

namespace Sys2Proof.Proofs

open Sys2Proof.Machine Sys2Proof.Laws

/-! ## The Montgomery quotient -/

theorem montR_modEq : montR ≡ montRadix [MOD groupOrder] := Nat.mod_modEq _ _

theorem montRR_modEq : montRR ≡ montRadix * montRadix [MOD groupOrder] := Nat.mod_modEq _ _

theorem coprime_groupOrder_montRadix : Nat.Coprime groupOrder montRadix := by decide +kernel

theorem montReduce_mul_montRadix {T : Nat} (h : T < montRadix * groupOrder) :
    montReduce T * montRadix ≡ T [MOD groupOrder] := by
  obtain ⟨-, hmod⟩ := montReduce_spec h
  exact hmod

/-- The Montgomery quotient is the only value below `L` whose product with `2^260` is `T` modulo `L` (rule R156). -/
theorem montReduce_eq_mod {T x : Nat} (h : T < montRadix * groupOrder) (hx : x * montRadix ≡ T [MOD groupOrder]) :
    montReduce T = x % groupOrder := by
  obtain ⟨hlt, hmod⟩ := montReduce_spec h
  have hcancel : montReduce T ≡ x [MOD groupOrder] :=
    Nat.ModEq.cancel_right_of_coprime coprime_groupOrder_montRadix (hmod.trans hx.symm)
  rw [← hcancel, Nat.mod_eq_of_lt hlt]

/-- The value precondition with the radius written as the power of two it is (rule R157). -/
theorem lt_montRadix_mul_iff {T : Nat} : T < 2 ^ 260 * groupOrder ↔ T < montRadix * groupOrder := by rw [montRadix_eq]

/-! ## The command -/

section
variable {sd : ScalarReg} (sa sb : ScalarReg) {s : State}

/-- Inside the value precondition `MMUL` writes the limbs of the Montgomery quotient (rule R156). -/
theorem exec_mmul_inside (hsd : sd.val < 6) (h : s.scalar sa * s.scalar sb < montRadix * groupOrder) :
    exec (.mmul sd sa sb) s = .next (s.writeScalar sd (limbs52 (montReduce (s.scalar sa * s.scalar sb)))) :=
  (if_pos hsd).trans (if_pos (montInRange_iff.2 h))

/-- Outside it `MMUL` writes a free value (rule R157). -/
theorem exec_mmul_outside (hsd : sd.val < 6) (h : ¬ s.scalar sa * s.scalar sb < montRadix * groupOrder) :
    exec (.mmul sd sa sb) s = .next (s.writeScalar sd (Config.freeScalar s.draws)).drawn :=
  (if_pos hsd).trans (if_neg (mt montInRange_iff.1 h))

end

/-- The value read back from a register that holds the limbs of a Montgomery quotient (rule R14). -/
theorem scalar_writeScalar_montReduce (s : State) {i : ScalarReg} {T : Nat} (hi : i.val < 6)
    (h : T < montRadix * groupOrder) : (s.writeScalar i (limbs52 (montReduce T))).scalar i = montReduce T := by
  rw [scalar_writeScalar s _ hi, sval_montReduce h]

/-- Settles O25: the register holds `montReduce` of the product, which `montReduce_spec` and `montReduce_eq` describe. -/
theorem mmulIsTheReducedMontgomeryProduct : Obligations.MmulIsTheReducedMontgomeryProduct := by
  intro sd sa sb s hsd hin
  rw [lt_montRadix_mul_iff] at hin
  obtain ⟨hlt, hmod⟩ := montReduce_spec hin
  refine ⟨_, exec_mmul_inside sa sb hsd hin, onlyScalar_writeScalar _ _ _, ?_⟩
  rw [scalar_writeScalar_montReduce s hsd hin, ← montRadix_eq]
  exact ⟨hlt, hmod, montReduce_eq hin⟩

/-! ## Outside the value precondition -/

theorem scalar_lt (s : State) (i : ScalarReg) : s.scalar i < montRadix := sval_lt _

theorem groupOrder_pos : 0 < groupOrder := by decide +kernel

/-- One operand below `L` is enough (rule R157). -/
theorem mul_lt_of_lt_groupOrder {a b : Nat} (ha : a < montRadix) (hb : b < groupOrder) :
    a * b < montRadix * groupOrder :=
  Nat.mul_lt_mul_of_lt_of_lt ha hb

/-- Two operands of 256 bits are enough, since `L > 2^252` (rule R157). -/
theorem mul_lt_of_lt_two_pow_256 {a b : Nat} (ha : a < 2 ^ 256) (hb : b < 2 ^ 256) : a * b < montRadix * groupOrder :=
  calc a * b < 2 ^ 256 * 2 ^ 256 := Nat.mul_lt_mul_of_lt_of_lt ha hb
    _ ≤ montRadix * groupOrder := by decide +kernel

/-- Settles O26: the free value goes to the destination alone, and each condition bounds the product. -/
theorem mmulOutOfRangeWritesOnlyItsDestination : Obligations.MmulOutOfRangeWritesOnlyItsDestination := by
  refine ⟨fun sd sa sb s hsd hout => ?_, fun sa sb s h => ?_⟩
  · rw [lt_montRadix_mul_iff] at hout
    exact ⟨_, exec_mmul_outside sa sb hsd hout, onlyScalar_writeScalar_drawn _ _ _⟩
  · rw [lt_montRadix_mul_iff]
    obtain ha | hb | ⟨ha, hb⟩ := h
    · rw [mul_comm]
      exact mul_lt_of_lt_groupOrder (scalar_lt s sb) ha
    · exact mul_lt_of_lt_groupOrder (scalar_lt s sa) hb
    · exact mul_lt_of_lt_two_pow_256 ha hb

/-! ## The Montgomery domain -/

section
variable {a b x y : Nat}

/-- The product of two Montgomery forms is the Montgomery form of the product (rule R159(a)). -/
theorem montReduce_of_montForms (h : a * b < montRadix * groupOrder) (ha : a = x * montR % groupOrder)
    (hb : b = y * montR % groupOrder) : montReduce (a * b) = x * y * montR % groupOrder := by
  refine montReduce_eq_mod h ?_
  calc x * y * montR * montRadix
      ≡ x * y * montR * montR [MOD groupOrder] := montR_modEq.symm.mul_left _
    _ = x * montR * (y * montR) := by ring
    _ ≡ a * b [MOD groupOrder] := by
      rw [ha, hb]
      exact ((Nat.mod_modEq _ _).mul (Nat.mod_modEq _ _)).symm

/-- A product with `RR` goes into the Montgomery domain (rule R159(b)). -/
theorem montReduce_mul_montRR (h : a * montRR < montRadix * groupOrder) :
    montReduce (a * montRR) = a * montR % groupOrder := by
  refine montReduce_eq_mod h ?_
  calc a * montR * montRadix
      = a * (montR * montRadix) := mul_assoc _ _ _
    _ ≡ a * (montRadix * montRadix) [MOD groupOrder] := (montR_modEq.mul_right _).mul_left _
    _ ≡ a * montRR [MOD groupOrder] := montRR_modEq.symm.mul_left _

/-- A product with 1 comes out of the Montgomery domain (rule R159(c)). -/
theorem montReduce_of_montForm (h : a < montRadix * groupOrder) (ha : a = x * montR % groupOrder) :
    montReduce a = x % groupOrder := by
  refine montReduce_eq_mod h ?_
  rw [ha]
  exact (montR_modEq.symm.mul_left x).trans (Nat.mod_modEq _ _).symm

/-- A product with `R`, the Montgomery form of 1, reduces (rule R159(d)). -/
theorem montReduce_mul_montR (h : a * montR < montRadix * groupOrder) : montReduce (a * montR) = a % groupOrder :=
  montReduce_eq_mod h (montR_modEq.symm.mul_left a)

end

/-- The product with 0 is 0 (rule R159(f)). -/
theorem montReduce_zero : montReduce 0 = 0 := by decide +kernel

/-- Settles O28: each clause is a value of the Montgomery quotient; the last two follow from those for `sR` and for 1. -/
theorem mmulMontgomeryDomain : Obligations.MmulMontgomeryDomain := by
  intro sd sa sb s hsd hin
  rw [lt_montRadix_mul_iff] at hin
  have hR : montR % groupOrder = montR := Nat.mod_mod _ _
  have hRR : montRR = montR * montR % groupOrder := by decide +kernel
  refine ⟨_, _, exec_mmul_inside sa sb hsd hin, exec_mmul_inside sb sa hsd (by rwa [mul_comm]), ?_⟩
  simp only [scalar_writeScalar_montReduce s hsd hin, writeScalar_same s _ hsd]
  refine ⟨fun x y => montReduce_of_montForms hin, ?_, fun x ha hb => ?_, ?_, ?_, fun hb => ?_, ?_, fun hsa hb => ?_⟩
  · rintro rfl
    rw [scalar_sRR] at hin ⊢
    exact montReduce_mul_montRR hin
  · rw [hb, mul_one] at hin ⊢
    exact montReduce_of_montForm hin ha
  · rintro rfl
    rw [scalar_sR] at hin ⊢
    exact montReduce_mul_montR hin
  · rw [mul_comm]
  · rw [hb, mul_zero, montReduce_zero]
  · rintro rfl rfl
    rw [scalar_sR] at hin ⊢
    rw [montReduce_mul_montR hin, hR, readScalar_sR]
  · subst hsa
    rw [scalar_sRR, hb, mul_one] at hin ⊢
    rw [montReduce_of_montForm hin hRR, hR, readScalar_sR]

/-! ## The limb-wise realisation -/

/-- Five digits of 52 bits stand for an integer below `2^260` (rule R14). -/
theorem digits52_lt_montRadix {n0 n1 n2 n3 n4 : Nat} (h0 : n0 < 2 ^ 52) (h1 : n1 < 2 ^ 52) (h2 : n2 < 2 ^ 52)
    (h3 : n3 < 2 ^ 52) (h4 : n4 < 2 ^ 52) :
    n0 + n1 * 2 ^ 52 + n2 * 2 ^ 104 + n3 * 2 ^ 156 + n4 * 2 ^ 208 < montRadix := by
  unfold montRadix
  omega

/-- The column steps add a multiple `m * L` with `m < 2^260` to the product and divide by `2^260` (rule R158). -/
theorem montLimbwiseU_mul_montRadix (a b : UnpackedScalar) :
    ∃ m < montRadix, montLimbwiseU a b * montRadix = sval a * sval b + m * groupOrder := by
  unfold montLimbwiseU
  extract_lets a0 a1 a2 a3 a4 b0 b1 b2 b3 b4 l1 l2 l3 l4 z0 z1 z2 z3 z4 z5 z6 z7 z8 p0 p1 p2 p3 p4 r0 r1 r2 r3
  obtain ⟨h0, hn0⟩ := montPart1_spec z0
  obtain ⟨h1, hn1⟩ := montPart1_spec (p0.1 + z1 + p0.2 * l1)
  obtain ⟨h2, hn2⟩ := montPart1_spec (p1.1 + z2 + p0.2 * l2 + p1.2 * l1)
  obtain ⟨h3, hn3⟩ := montPart1_spec (p2.1 + z3 + p0.2 * l3 + p1.2 * l2 + p2.2 * l1)
  obtain ⟨h4, hn4⟩ := montPart1_spec (p3.1 + z4 + p0.2 * l4 + p1.2 * l3 + p2.2 * l2 + p3.2 * l1)
  obtain ⟨h5, -⟩ := montPart2_spec (p4.1 + z5 + p1.2 * l4 + p2.2 * l3 + p3.2 * l2 + p4.2 * l1)
  obtain ⟨h6, -⟩ := montPart2_spec (r0.1 + z6 + p2.2 * l4 + p3.2 * l3 + p4.2 * l2)
  obtain ⟨h7, -⟩ := montPart2_spec (r1.1 + z7 + p3.2 * l4 + p4.2 * l3)
  obtain ⟨h8, -⟩ := montPart2_spec (r2.1 + z8 + p4.2 * l4)
  refine ⟨p0.2 + p1.2 * 2 ^ 52 + p2.2 * 2 ^ 104 + p3.2 * 2 ^ 156 + p4.2 * 2 ^ 208,
    digits52_lt_montRadix hn0 hn1 hn2 hn3 hn4, ?_⟩
  rw [orderLimbs]
  simp only [sval, montRadix]
  symm
  linear_combination h0 + 2 ^ 52 * h1 + 2 ^ 104 * h2 + 2 ^ 156 * h3 + 2 ^ 208 * (h4 + 2 ^ 52 * h5 + 2 ^ 104 * h6 +
    2 ^ 156 * h7 + 2 ^ 208 * h8)

/-- One conditional subtraction reduces a value below `2L` (rules R156, R158). -/
theorem condSub_eq_mod {u : Nat} (h : u < 2 * groupOrder) :
    (if groupOrder ≤ u then u - groupOrder else u) = u % groupOrder := by
  split_ifs with hge
  · rw [Nat.mod_eq_sub_mod hge, Nat.mod_eq_of_lt (by omega)]
  · exact (Nat.mod_eq_of_lt (not_le.mp hge)).symm

/-- Inside the value precondition the listing computes the Montgomery quotient: before the subtraction its value is below
`2L` and congruent to the quotient (rule R158). -/
theorem montLimbwise_eq_montReduce {a b : UnpackedScalar} (h : sval a * sval b < montRadix * groupOrder) :
    montLimbwise a b = montReduce (sval a * sval b) := by
  obtain ⟨m, hm, hu⟩ := montLimbwiseU_mul_montRadix a b
  have hlt : montLimbwiseU a b < 2 * groupOrder := by
    have hmL : m * groupOrder < montRadix * groupOrder := Nat.mul_lt_mul_of_pos_right hm groupOrder_pos
    refine Nat.lt_of_mul_lt_mul_right (a := montRadix) ?_
    calc montLimbwiseU a b * montRadix
        = sval a * sval b + m * groupOrder := hu
      _ < montRadix * groupOrder + montRadix * groupOrder := Nat.add_lt_add h hmL
      _ = 2 * groupOrder * montRadix := by ring
  have hcong : montLimbwiseU a b * montRadix ≡ sval a * sval b [MOD groupOrder] := by
    rw [hu]
    exact Nat.add_mul_mod_self_right _ _ _
  rw [montReduce_eq_mod h hcong]
  exact condSub_eq_mod hlt

/-- Settles O29: both are the Montgomery quotient of the product. -/
theorem mmulLimbwiseRealisationAgrees : Obligations.MmulLimbwiseRealisationAgrees := by
  intro sd sa sb s hsd hin
  rw [lt_montRadix_mul_iff] at hin
  refine ⟨_, exec_mmul_inside sa sb hsd hin, ?_⟩
  rw [scalar_writeScalar_montReduce s hsd hin]
  exact (montLimbwise_eq_montReduce hin).symm

/-! ## The product modulo `L` -/

/-- The step of a write of a legal command to `CMD` runs the command (rules R90, R100). -/
theorem step_cmd {s : State} {i : Instr} {rest : List HostAction} (hi : i.wellFormed = true) (hfault : s.fault = 0)
    (h : s.host = cmd i :: rest) : step s = exec i { s with host := rest } := by
  have hdecode : decode ((encode i).setWidth 64 |>.extractLsb' 0 32) = .command i := by
    rw [← commandWord_eq, commandWord_setWidth, decodeOfEncodeIsTheCommand i hi]
  exact (step_command h).trans (issue_command hfault hdecode)

/-- A second product, with `RR`, takes the `R^(-1)` of the first away (rule R160). -/
theorem montReduce_montReduce_mul_montRR {T : Nat} (h : T < montRadix * groupOrder)
    (h' : montReduce T * montRR < montRadix * groupOrder) : montReduce (montReduce T * montRR) = T % groupOrder := by
  rw [montReduce_mul_montRR h']
  exact (montR_modEq.mul_left _).trans (montReduce_mul_montRadix h)

/-- The step of a queued `MMUL` inside its value precondition. -/
theorem step_mmul_inside {s : State} {sd sa sb : ScalarReg} {rest : List HostAction} (hsd : sd.val < 6)
    (hfault : s.fault = 0) (hhost : s.host = cmd (.mmul sd sa sb) :: rest)
    (h : s.scalar sa * s.scalar sb < montRadix * groupOrder) :
    step s = .next (State.writeScalar { s with host := rest } sd
      (limbs52 (montReduce (s.scalar sa * s.scalar sb)))) :=
  (step_cmd (i := .mmul sd sa sb) (decide_eq_true hsd) hfault hhost).trans
    (exec_mmul_inside sa sb (s := { s with host := rest }) hsd h)

/-- Settles O30: the first step leaves the Montgomery quotient in `s[sd]`, which with `RR` is inside the value precondition
of the second, and the second write replaces the first. -/
theorem smulIsTheProductModL : Obligations.SmulIsTheProductModL := by
  intro sd sa sb s rest hsd hfault hin hhost
  rw [lt_montRadix_mul_iff] at hin
  have hin' : montReduce (s.scalar sa * s.scalar sb) * montRR < montRadix * groupOrder :=
    mul_lt_of_lt_groupOrder (montReduce_lt_radix hin) (Nat.mod_lt _ groupOrder_pos)
  have hfirst := step_mmul_inside hsd hfault hhost hin
  refine ⟨_, _, hfirst, step_mmul_inside (sa := sd) (sb := sRR) (rest := rest) hsd ?_ ?_ ?_, ?_, ?_⟩
  · rw [writeScalar_fault]
    exact hfault
  · rw [writeScalar_host]
    rfl
  · rw [scalar_writeScalar_montReduce _ hsd hin, scalar_sRR]
    exact hin'
  · rw [writeScalar_writeScalar _ _ hsd, scalar_writeScalar_montReduce _ hsd hin, scalar_sRR,
      scalar_writeScalar_montReduce _ hsd hin']
    exact montReduce_montReduce_mul_montRR hin hin'
  · rw [writeScalar_writeScalar _ _ hsd]
    exact onlyScalar_writeScalar _ _ _

end Sys2Proof.Proofs
end

section
/-! The fixed-base scalar multiplication of 44_scalar_mult_fixed.md: `SMFB` checks its scalar (rule R171), writes a
representative of `[k]B` (rule R172), is a homomorphism modulo `L` (rule R176), and agrees with the reference algorithm
(rule R175). -/

namespace Sys2Proof.Proofs

open Sys2Proof.Machine Sys2Proof.Laws

/-! ## The precondition on a scalar -/

/-- A scalar is below `2^255` when bits `[51:47]` of limb 4, of weight `2^208`, are zero (rules R171, R186). -/
theorem sval_lt_iff_topBits (v : UnpackedScalar) : sval v < 2 ^ 255 ↔ (v[4]).extractLsb' 47 5 = 0 := by
  have h0 := v[0].isLt; have h1 := v[1].isLt; have h2 := v[2].isLt; have h3 := v[3].isLt
  have h4 := v[4].isLt
  have htop : (v[4]).extractLsb' 47 5 = 0 ↔ v[4].toNat < 2 ^ 47 := by
    rw [← BitVec.toNat_inj, BitVec.extractLsb'_toNat, Nat.shiftRight_eq_div_pow]
    show v[4].toNat / 2 ^ 47 % 2 ^ 5 = 0 ↔ _
    omega
  rw [htop, sval]
  omega

/-! ## The registers a point command leaves alone -/

section
variable {r : PointReg} {n : Nat} {s t : State}

theorem readExtended_of_onlyPoint (h : OnlyPoint r n s t) {q : PointReg} (hq : q ≠ r) :
    t.readExtended q = s.readExtended q := by
  obtain ⟨hfield, -⟩ := h
  have hslot (k : Fin 4) : t.f[slot q k] = s.f[slot q k] := hfield _ fun _ e => hq (slot_inj.mp e).1
  simp only [State.readExtended, State.slotValue, hslot]

theorem scalar_of_onlyPoint (h : OnlyPoint r n s t) (i : ScalarReg) : t.scalar i = s.scalar i := by
  obtain ⟨-, hscalar, -⟩ := h
  rw [State.scalar, State.scalar, hscalar]

end

/-! ## The command -/

/-- Inside the precondition `SMFB` completes, writes `p[pd]` alone, and leaves a bounded representative of `[k]B` there
(rules R41, R172). -/
theorem exec_smfb (pd : PointReg) {sa : ScalarReg} {s : State} (hk : s.scalar sa < 2 ^ 255) :
    ∃ t, exec (.smfb pd sa) s = .next t ∧ OnlyPoint pd 0 s t ∧ PointBounded pd t ∧
      Rep (t.readExtended pd) (mulPoint (s.scalar sa) basePoint) := by
  have hmul := scalarMul_eq good_basePoint (hk.trans (by norm_num))
  have hwrite := rep_writeRepresentative s pd (encode (.smfb pd sa)) s (good_mulPoint good_basePoint (s.scalar sa))
  rw [← hmul] at hwrite ⊢
  obtain ⟨hrep, hbound⟩ := hwrite
  exact ⟨_, if_pos (decide_eq_true hk), onlyPoint_writePoint _ _ _, hbound, hrep⟩

/-- Outside it `SMFB` raises `PreconditionViolation` (rule R171). -/
theorem exec_smfb_large (pd : PointReg) {sa : ScalarReg} {s : State} (hk : 2 ^ 255 ≤ s.scalar sa) :
    exec (.smfb pd sa) s = .next (s.raised .preconditionViolation (encode (.smfb pd sa))) :=
  if_neg (by rw [scalarInRange, decide_eq_true_eq]; exact hk.not_gt)

/-- Settles O31: the representative written stands for `[k]B`, which is a point of the curve. -/
theorem smfbRepresentsTheMultipleOfB : Obligations.SmfbRepresentsTheMultipleOfB := by
  intro pd sa s hk
  obtain ⟨t, hexec, honly, hbound, hrep⟩ := exec_smfb pd hk
  have hQ := good_mulPoint good_basePoint (s.scalar sa)
  exact ⟨t, hexec, honly, hbound, hrep.valid hQ, (represents_iff hQ).2 hrep⟩

/-- Settles O32: the bits of limb 4 decide the precondition, and the fault is the whole effect. -/
theorem smfbLargeScalarViolatesThePrecondition : Obligations.SmfbLargeScalarViolatesThePrecondition :=
  fun pd _ s => ⟨sval_lt_iff_topBits _, fun hk => ⟨_, exec_smfb_large pd hk, onlyFault_raised s _ _⟩⟩

/-! ## `SMFB` as a homomorphism -/

/-- `PADD.E` of two registers that represent `P` and `Q` writes `p[pd]` alone and leaves `P + Q` there (rule R145). -/
theorem exec_paddE_rep (pd : PointReg) {pa pb : PointReg} {s : State} {P Q : Affine} (hP : Good P) (hQ : Good Q)
    (ha : Rep (s.readExtended pa) P) (hb : Rep (s.readExtended pb) Q) :
    ∃ t, exec (.paddE pd pa pb) s = .next t ∧ OnlyPoint pd 0 s t ∧ Rep (t.readExtended pd) (Affine.add P Q) := by
  obtain ⟨t, hexec, honly, -, hread⟩ :=
    addAndWrite_effect (encode (.paddE pd pa pb)) pd pa (s.readExtended pb).toNiels s
  refine ⟨t, (exec_paddE pd pa pb s).trans hexec, honly, ?_⟩
  rw [hread]
  exact rep_addNiels hP hQ ha hb.toNiels

/-- `SMFB` of a scalar reduced modulo `L` leaves the multiple of the scalar itself (rules R172, R176(c)). -/
theorem exec_smfb_mod (pd : PointReg) {sa : ScalarReg} {s : State} {k : Nat} (hk : s.scalar sa = k % groupOrder) :
    ∃ t, exec (.smfb pd sa) s = .next t ∧ OnlyPoint pd 0 s t ∧ Rep (t.readExtended pd) (mulPoint k basePoint) := by
  have hlt : s.scalar sa < 2 ^ 255 :=
    calc s.scalar sa = k % groupOrder := hk
      _ < groupOrder := Nat.mod_lt _ groupOrder_pos
      _ < 2 ^ 255 := by decide +kernel
  obtain ⟨t, hexec, honly, -, hrep⟩ := exec_smfb pd hlt
  rw [hk, mulPoint_mod_order] at hrep
  exact ⟨t, hexec, honly, hrep⟩

/-- Settles O33: both sides represent the same multiple of `B`; every register still to be read is carried past the writes
by their frames. -/
theorem smfbIsAHomomorphism : Obligations.SmfbIsAHomomorphism := by
  intro pa pb pc pd s1 s2 s3 s h1 h2
  have good := good_mulPoint good_basePoint
  refine ⟨fun h3 => ?_, fun hab hcd h3 => ?_⟩
  · obtain ⟨t, ht, -, -, hrept⟩ := exec_smfb pd h1
    obtain ⟨u, hu, -, hrepu⟩ := exec_smfb_mod pd h3
    exact ⟨t, u, ht, hu, equiv_of_rep (good _) hrept hrepu⟩
  · obtain ⟨t, ht, hst, -, hrepa⟩ := exec_smfb pa h1
    rw [← scalar_of_onlyPoint hst s2] at h2
    obtain ⟨u, hu, htu, -, hrepb⟩ := exec_smfb pb h2
    rw [← readExtended_of_onlyPoint htu hab] at hrepa
    obtain ⟨v, hv, huv, hrepc⟩ := exec_paddE_rep pc (good _) (good _) hrepa hrepb
    rw [← scalar_of_onlyPoint hst s3, ← scalar_of_onlyPoint htu s3, ← scalar_of_onlyPoint huv s3] at h3
    obtain ⟨w, hw, hvw, hrepd⟩ := exec_smfb_mod pd h3
    rw [← readExtended_of_onlyPoint hvw hcd, scalar_of_onlyPoint hst s2, ← mulPoint_add_scalars good_basePoint] at hrepc
    exact ⟨t, u, v, w, ht, hu, hv, hw, equiv_of_rep (good _) hrepc hrepd⟩

/-! ## The reference algorithm -/

/-- Every radix-16 digit has an entry in the table of rule R173, or is zero. -/
theorem abs_radix16_getD_le {k : Nat} (hk : k < 2 ^ 255) (i : Nat) : |(radix16 k).getD i 0| ≤ 8 := by
  obtain ⟨hlen, -, hrange, hlow, hhigh, -⟩ := radixSixteenRecoding k hk
  rw [abs_le]
  obtain hi | rfl | hi : i < 63 ∨ i = 63 ∨ 64 ≤ i := by omega
  · obtain ⟨hl, hh⟩ := hrange i hi
    exact ⟨hl, hh.le⟩
  · exact ⟨by omega, hhigh⟩
  · rw [List.getD_eq_default _ _ (hlen.trans_le hi)]
    norm_num

/-- The odd digits, 16-fold, and the even digits make up the scalar (rule R175). -/
theorem radix16_odd_even {k : Nat} (hk : k < 2 ^ 255) :
    2 ^ 4 * ∑ i ∈ Finset.range 32, (radix16 k).getD (2 * i + 1) 0 * 256 ^ i +
      ∑ i ∈ Finset.range 32, (radix16 k).getD (2 * i) 0 * 256 ^ i = k := by
  obtain ⟨hlen, hsum, -⟩ := radixSixteenRecoding k hk
  rw [digitSum_eq_sum, hlen, sum_even_odd _ 32] at hsum
  have heven (i : Nat) : (16 : Int) ^ (2 * i) = 256 ^ i := by rw [pow_mul]; norm_num
  have hodd (i : Nat) : (16 : Int) ^ (2 * i + 1) = 2 ^ 4 * 256 ^ i := by rw [pow_succ', heven]; norm_num
  rw [← hsum, Finset.mul_sum, add_comm]
  simp only [heven, hodd, mul_left_comm]

/-- Settles O35: the three runs leave `[16]` of the odd digits' multiple of `B` plus the even digits' (rule R175). -/
theorem smfbReferenceAlgorithmIsCorrect : Obligations.SmfbReferenceAlgorithmIsCorrect := by
  intro k hk
  have := fact_fieldPrime
  let := curveGroup
  have hdigits := abs_radix16_getD_le hk
  have hodd := stands_fixedFold hdigits stands_identity (fun i => 2 * i + 1) 32 le_rfl
  have hresult := stands_fixedFold hdigits (stands_doubleTimes hodd 3) (fun i => 2 * i) 32 le_rfl
  have hgood := good_mulPoint good_basePoint k
  refine Stands.represents hgood ?_
  have hpoint : hgood.point = (k : Int) • groupBase := by
    rw [natCast_zsmul]; exact point_mulPoint good_basePoint k
  rw [zero_add, ← natCast_zsmul, ← mul_zsmul, ← add_zsmul] at hresult
  rw [hpoint, ← radix16_odd_even hk]
  exact hresult

end Sys2Proof.Proofs
end

section
/-! The variable-base double-scalar multiplication of 45_scalar_mult_var.md: `SMVB` checks both scalars (rule R186), writes a
representative of `[a]A + [b]B` (rule R187) or free limbs for an invalid tuple (rule R188), meets `SMFB` (rule R191), and
agrees with the reference ladder (rule R190). -/

namespace Sys2Proof.Proofs

open Sys2Proof.Machine Sys2Proof.Laws

/-! ## The command -/

/-- `[a]A + [b]B` as the command computes it is rule R12's. -/
theorem doubleScalarMul_eq {A : Affine} (hA : Good A) {a b : Nat} (ha : a < 2 ^ 255) (hb : b < 2 ^ 255) :
    doubleScalarMul a A b = Affine.add (mulPoint a A) (mulPoint b basePoint) := by
  rw [doubleScalarMul, scalarMul_eq hA (ha.trans (by norm_num)), scalarMul_eq good_basePoint (hb.trans (by norm_num))]

theorem good_doubleMultiple {A : Affine} (hA : Good A) (a b : Nat) :
    Good (Affine.add (mulPoint a A) (mulPoint b basePoint)) :=
  good_add (good_mulPoint hA a) (good_mulPoint good_basePoint b)

section
variable (pd : PointReg) {pA : PointReg} {sa sb : ScalarReg} {s : State}

theorem scalarsInRange_iff : (scalarInRange (s.scalar sa) && scalarInRange (s.scalar sb)) = true ↔
    s.scalar sa < 2 ^ 255 ∧ s.scalar sb < 2 ^ 255 := by
  rw [Bool.and_eq_true, scalarInRange, scalarInRange, decide_eq_true_eq, decide_eq_true_eq]

/-- On a valid tuple and scalars in range `SMVB` completes, writes `p[pd]` alone, and leaves a bounded representative of
`[a]A + [b]B` there (rules R41, R187). -/
theorem exec_smvb (ha : s.scalar sa < 2 ^ 255) (hb : s.scalar sb < 2 ^ 255) (hA : (s.readExtended pA).valid = true) :
    ∃ t, exec (.smvb pd sa pA sb) s = .next t ∧ OnlyPoint pd 0 s t ∧ PointBounded pd t ∧
      Rep (t.readExtended pd) (Affine.add (mulPoint (s.scalar sa) (s.readExtended pA).toAffine)
        (mulPoint (s.scalar sb) basePoint)) := by
  have hgood := good_toAffine hA
  obtain ⟨hrep, hbound⟩ := rep_writeRepresentative s pd (encode (.smvb pd sa pA sb)) s
    (good_doubleMultiple hgood (s.scalar sa) (s.scalar sb))
  rw [← doubleScalarMul_eq hgood ha hb] at hrep hbound ⊢
  exact ⟨_, (if_pos (scalarsInRange_iff.2 ⟨ha, hb⟩)).trans (if_pos hA), onlyPoint_writePoint _ _ _, hbound, hrep⟩

/-- On an invalid tuple it writes free limbs and draws (rule R188, log entry 9). -/
theorem exec_smvb_invalid (ha : s.scalar sa < 2 ^ 255) (hb : s.scalar sb < 2 ^ 255)
    (hA : (s.readExtended pA).valid = false) :
    exec (.smvb pd sa pA sb) s = .next (s.writePoint pd (freePointLimbs s.draws)).drawn :=
  (if_pos (scalarsInRange_iff.2 ⟨ha, hb⟩)).trans (if_neg (Bool.eq_false_iff.1 hA))

/-- With either scalar out of range it raises `PreconditionViolation` (rule R186). -/
theorem exec_smvb_large (h : 2 ^ 255 ≤ s.scalar sa ∨ 2 ^ 255 ≤ s.scalar sb) :
    exec (.smvb pd sa pA sb) s = .next (s.raised .preconditionViolation (encode (.smvb pd sa pA sb))) :=
  if_neg fun hrange => by
    obtain ⟨ha, hb⟩ := scalarsInRange_iff.1 hrange
    exact h.elim ha.not_ge hb.not_ge

end

/-- Settles O36: the representative written stands for `[a]A + [b]B`, which is a point of the curve. -/
theorem smvbRepresentsTheDoubleMultiple : Obligations.SmvbRepresentsTheDoubleMultiple := by
  intro pd pA sa sb s ha hb hA
  obtain ⟨t, hexec, honly, hbound, hrep⟩ := exec_smvb pd ha hb hA
  have hQ := good_doubleMultiple (good_toAffine hA) (s.scalar sa) (s.scalar sb)
  exact ⟨t, hexec, honly, hbound, hrep.valid hQ, (represents_iff hQ).2 hrep⟩

/-- A tuple whose `T` does not belong to its other components is invalid (rules R13, R188). -/
theorem valid_eq_false_of_wrong_T {E : Extended} (h : E.X * E.Y % fieldPrime ≠ E.Z * E.T % fieldPrime) :
    E.valid = false := by
  refine Bool.eq_false_iff.2 fun hvalid => h ?_
  obtain ⟨-, hT, -⟩ := (valid_iff E).1 hvalid
  exact fmul_eq_fmul_iff.2 hT

/-- Settles O37: the free limbs are bounded, the frame is that of a point write with one draw, and validity asks for the
right `T`. -/
theorem smvbInvalidPointWritesAnyBoundedLimbs : Obligations.SmvbInvalidPointWritesAnyBoundedLimbs := by
  refine ⟨fun pd pA sa sb s ha hb hA => ?_, fun E => valid_eq_false_of_wrong_T⟩
  exact ⟨_, exec_smvb_invalid pd ha hb hA, onlyPoint_writePoint_drawn s pd _,
    pointBounded_writePoint s pd (tupleBounded_freePointLimbs s.draws)⟩

/-- Settles O38: the bits of limb 4 decide the precondition on each scalar, and the fault is the whole effect. -/
theorem smvbLargeScalarViolatesThePrecondition : Obligations.SmvbLargeScalarViolatesThePrecondition :=
  fun pd _ _ _ s => ⟨sval_lt_iff_topBits _, sval_lt_iff_topBits _,
    fun h => ⟨_, exec_smvb_large pd h, onlyFault_raised s _ _⟩⟩

/-- Settles O39: both commands represent the same multiple of `B`, since `[0]A` is the identity and `[a]B + [b]B` is
`[a + b]B`. -/
theorem smvbAgreesWithSmfb : Obligations.SmvbAgreesWithSmfb := by
  intro pd pA sa sb sc s ha hb hA
  obtain ⟨t, ht, -, -, hrept⟩ := exec_smvb pd ha hb hA
  have good := good_mulPoint good_basePoint
  refine ⟨fun hzero => ?_, fun hB hc => ?_⟩
  · obtain ⟨u, hu, -, -, hrepu⟩ := exec_smfb pd hb
    rw [hzero, mulPoint, zero_add_good (good _)] at hrept
    exact ⟨t, u, ht, hu, equiv_of_rep (good _) hrept hrepu⟩
  · obtain ⟨u, hu, -, hrepu⟩ := exec_smfb_mod pd hc
    have hpoint : (s.readExtended pA).toAffine = basePoint :=
      ((represents_iff good_basePoint).1 hB).toAffine_eq good_basePoint
    rw [hpoint, ← mulPoint_add_scalars good_basePoint] at hrept
    exact ⟨t, u, ht, hu, equiv_of_rep (good _) hrept hrepu⟩

/-! ## The reference ladder -/

/-- A digit of a non-adjacent form is zero, or odd and below `2^(w-1)` in absolute value (rule R18). -/
theorem NonAdjacent.digit {w : Nat} {l : List Int} (h : NonAdjacent w l) {d : Int} (hd : d ∈ l) :
    (d = 0 ∨ d % 2 = 1) ∧ |d| < 2 ^ (w - 1) := by
  obtain ⟨i, hi, rfl⟩ := List.getElem_of_mem hd
  by_cases hzero : l[i] = 0
  · rw [hzero]
    exact ⟨.inl rfl, by rw [abs_zero]; positivity⟩
  · rw [← List.getD_eq_getElem l 0 hi] at hzero ⊢
    obtain ⟨hodd, hbound, -⟩ := h i hzero
    exact ⟨.inr hodd, hbound⟩

/-- A fold may skip the leading elements that leave its start value as it is. -/
theorem foldl_dropWhile {α β : Type} {f : β → α → β} {x : β} {p : α → Bool} (h : ∀ d, p d = true → f x d = x)
    (l : List α) : (l.dropWhile p).foldl f x = l.foldl f x := by
  induction l with
  | nil => rfl
  | cons d ds ih =>
    by_cases hd : p d = true
    · rw [List.dropWhile_cons_of_pos hd, List.foldl_cons, h d hd, ih]
    · rw [List.dropWhile_cons_of_neg hd]

/-- A pair of digits the ladder comes to has one digit from each form. -/
theorem mem_of_mem_ladderDigits {p : Int × Int → Bool} {l m : List Int} {d : Int × Int}
    (hd : d ∈ (l.zip m).reverse.dropWhile p) : d.1 ∈ l ∧ d.2 ∈ m :=
  List.of_mem_zip (List.mem_reverse.1 ((List.dropWhile_sublist p).mem hd))

section
variable [Fact (Nat.Prime fieldPrime)]

/-- `[a]A + [b]B` in the curve group. -/
theorem point_doubleMultiple {A : Affine} (hA : Good A) (a b : Nat) : letI := curveGroup
    (good_doubleMultiple hA a b).point = (a : Int) • hA.point + (b : Int) • groupBase := by
  let := curveGroup
  rw [natCast_zsmul, natCast_zsmul, groupBase, ← point_mulPoint hA, ← point_mulPoint good_basePoint]
  exact point_add (good_mulPoint hA a) (good_mulPoint good_basePoint b)

/-- One step of rule R190's ladder in the curve group: twice the accumulator, plus both digits' multiples of `a` and `B`. -/
def groupLadderStep (a g : CurvePoint) (d : Int × Int) : CurvePoint :=
  letI := curveGroup
  g + g + d.1 • a + d.2 • groupBase

/-- The ladder on tuples follows the ladder in the group. -/
theorem stands_foldl_ladderStep {A P : Extended} {a g : CurvePoint} (hA : Stands A a) (hP : Stands P g)
    {l : List (Int × Int)} (h1 : ∀ d ∈ l, d.1 = 0 ∨ d.1 % 2 = 1)
    (h2 : ∀ d ∈ l, (d.2 = 0 ∨ d.2 % 2 = 1) ∧ |d.2| < 2 ^ 7) :
    Stands (l.foldl (ladderStep A) P) (l.foldl (groupLadderStep a) g) := by
  induction l generalizing P g with
  | nil => exact hP
  | cons d ds ih =>
    rw [List.forall_mem_cons] at h1 h2
    obtain ⟨hd1, hds1⟩ := h1
    obtain ⟨⟨hd2, hbound⟩, hds2⟩ := h2
    exact ih (stands_ladderStep hA hP hd1 hd2 hbound) hds1 hds2

theorem groupLadderStep_zero_digits (a : CurvePoint) (d : Int × Int) (hd : (d.1 == 0 && d.2 == 0) = true) :
    letI := curveGroup; groupLadderStep a 0 d = 0 := by
  let := curveGroup
  rw [Bool.and_eq_true, beq_iff_eq, beq_iff_eq] at hd
  obtain ⟨h1, h2⟩ := hd
  rw [groupLadderStep, h1, h2, zero_zsmul, zero_zsmul, add_zero, add_zero, add_zero]

/-- Over all positions, from the identity, the ladder computes both digit sums' multiples (rule R190). -/
theorem foldr_groupLadderStep (a : CurvePoint) {l m : List Int} (h : l.length = m.length) : letI := curveGroup
    (l.zip m).foldr (fun d g => groupLadderStep a g d) 0 = digitSum 2 l • a + digitSum 2 m • groupBase := by
  let := curveGroup
  induction l generalizing m with
  | nil =>
    obtain rfl := List.length_eq_zero_iff.1 h.symm
    show 0 = (0 : Int) • a + (0 : Int) • groupBase
    rw [zero_zsmul, zero_zsmul, add_zero]
  | cons d ds ih =>
    obtain ⟨e, es, rfl⟩ := List.exists_cons_of_length_eq_add_one h.symm
    rw [List.zip_cons_cons, List.foldr_cons, ih (Nat.succ.inj h), groupLadderStep, digitSum, digitSum]
    module

end

/-- Settles O41: the ladder follows its image in the curve group, where skipping the leading zeros changes nothing and the
whole run gives the two digit sums, which are the scalars. -/
theorem smvbReferenceAlgorithmIsCorrect : Obligations.SmvbReferenceAlgorithmIsCorrect := by
  intro a b A ha hb hA
  have := fact_fieldPrime
  let := curveGroup
  obtain ⟨hlena, hsuma, hdiga⟩ := nonAdjacentFormRecoding a Config.nafWidthA ha (by decide) (by decide)
  obtain ⟨hlenb, hsumb, hdigb⟩ := nonAdjacentFormRecoding b Config.nafWidthB hb (by decide) (by decide)
  have hgood := good_toAffine hA
  refine Stands.represents (good_doubleMultiple hgood a b) ?_
  rw [point_doubleMultiple hgood, ← hsuma, ← hsumb, ← foldr_groupLadderStep hgood.point (hlena.trans hlenb.symm),
    ← List.foldl_reverse, ← foldl_dropWhile (groupLadderStep_zero_digits hgood.point)]
  exact stands_foldl_ladderStep (stands_of_valid hA) stands_identity
    (fun d hd => (NonAdjacent.digit hdiga (mem_of_mem_ladderDigits hd).1).1)
    (fun d hd => NonAdjacent.digit hdigb (mem_of_mem_ladderDigits hd).2)

end Sys2Proof.Proofs
end

section
/-! Faults of 60_exceptions.md: how the faulted state is entered (rule R205), what works in it (rule R207), and that only
the reset input leaves it (rule R208).  Last, the idle block (rule R221). -/

namespace Sys2Proof.Proofs

open Sys2Proof.Machine Sys2Proof.Laws

/-! ## Fault entry -/

/-- The word of `STATUS` right after a fault: `FAULT` set and the code of the cause above it (rules R35, R201). -/
theorem statusWord_raised (s : State) (c : Cause) (w : CommandWord) :
    (s.raised c w).statusWord = BitVec.ofNat 64 (1 + 16 * c.code.toNat) := statusWord_eq _

/-- A word that takes the unfaulted block into the faulted state has raised one of the two faults and done nothing else;
the word recorded is the word written, also where the command itself raises the fault (rule R205). -/
theorem exists_raised_of_issue {w : CommandWord} {s t : State} (hfault : s.fault = 0) (h : issue w s = .next t)
    (hentered : t.fault = 1) : ∃ c, t = s.raised c w := by
  obtain ⟨hf, -⟩ | ⟨-, _, -, hraised⟩ | ⟨-, i, hi, hexec⟩ := issue_cases w s
  · rw [hfault] at hf; cases hf
  · exact ⟨.illegalCommand, Host.Outcome.next.inj (h.symm.trans hraised)⟩
  · obtain ⟨u, hu, heffect⟩ := exec_effect i s
    obtain rfl : u = t := Host.Outcome.next.inj (hu.symm.trans (hexec.symm.trans h))
    obtain ⟨hkept, -⟩ | hraised := heffect.control
    · rw [hkept, hfault] at hentered; cases hentered
    · obtain ⟨hword, -⟩ := encodeOfDecodeIsTheWord w i hi
      rwa [hword] at hraised

/-- Settles O8: the step issues the word, and what that can raise is `exists_raised_of_issue`. -/
theorem faultEntryIsPrecise : Obligations.FaultEntryIsPrecise := by
  intro s t v rest hhost hfault h hentered
  obtain ⟨c, rfl⟩ :=
    exists_raised_of_issue (s := { s with host := rest }) hfault ((step_command hhost).symm.trans h) hentered
  refine ⟨c, onlyFault_raised _ _ _, ?_, rfl⟩
  cases c with
  | illegalCommand => exact .inl ⟨rfl, statusWord_raised _ _ _⟩
  | preconditionViolation => exact .inr ⟨rfl, statusWord_raised _ _ _⟩

/-! ## The faulted state -/

/-- The faulted block drops a word without decoding it (rule R207). -/
theorem issue_faulted {s : State} (w : CommandWord) (hfault : s.fault = 1) : issue w s = .next s := if_pos hfault

/-- Settles O9: `CMD` drops the word, and the other locations do what they do in the unfaulted state. -/
theorem faultedEngineDropsCommands : Obligations.FaultedEngineDropsCommands := by
  refine ⟨?cmd, ?fieldLimb, ?scalarLimb, ?readOnly, ?read⟩
  case cmd =>
    intro s v rest h hfault
    exact (step_command h).trans (issue_faulted (s := { s with host := rest }) _ hfault)
  case fieldLimb => exact fun s rest i j v h _ => step_fieldLimbWrite h
  case scalarLimb =>
    intro s rest i hi j v h _
    rw [step_memWrite_offset (l := .scalar i j) h rfl (by simp), poke_scalar_general _ _ _ hi]
  case readOnly => exact fun s rest a v h _ ha => readOnlyWritesAreIgnored s a v rest h ha
  case read => exact fun s rest a v h _ ha haligned hv => step_memRead_of_peek h ⟨ha, haligned⟩ hv

/-- Settles O10, by what a step can have been: a reset clears `FAULT`, a word is dropped, and every other step keeps the
fault record. -/
theorem onlyResetLeavesTheFaultedState : Obligations.OnlyResetLeavesTheFaultedState := by
  intro s t hfault h
  obtain ⟨-, rfl⟩ | ⟨_, rest, hhost, hact⟩ := step_cases h
  · exact .inl ⟨hfault, rfl, rfl⟩
  · obtain ⟨rfl, rfl⟩ | ⟨_, v, -, -, rfl⟩ | ⟨_, v, -, -, hissue⟩ | ⟨addr, v, -, -, -, rfl⟩ := hact
    · exact .inr ⟨rest, hhost, rfl⟩
    · exact .inl ⟨hfault, rfl, rfl⟩
    · have hdropped := issue_faulted (s := { s with host := rest }) (commandWord v) hfault
      obtain rfl := Host.Outcome.next.inj (hdropped.symm.trans hissue)
      exact .inl ⟨hfault, rfl, rfl⟩
    · obtain ⟨hkept, hcause, hfcmd⟩ := sameControl_poke { s with host := rest } (locate addr) v
      exact .inl ⟨hkept.trans hfault, hcause, hfcmd⟩

/-! ## The idle block -/

/-- Settles O60: with no action pending a step leaves the state as it is (log entry 4). -/
theorem idleBlockKeepsAllState : Obligations.IdleBlockKeepsAllState := fun _ h => step_nil h

end Sys2Proof.Proofs
end

section
/-! Reset and hazards of 70_reset_and_hazards.md: every command completes (rule R246), what it writes and whether it draws
depend on the register files alone (rules R40, R41, R246), the two commands that draw free values, and the reset input as the
way out of the faulted state (rules R230, R231). -/

namespace Sys2Proof.Proofs

open Sys2Proof.Machine Sys2Proof.Laws

/-! ## Completion -/

/-- A word written to `CMD` ends in a next state with the same host actions and replies, be it dropped, illegal or a
command (rule R90). -/
theorem issue_keeps_host (w : CommandWord) (s : State) :
    ∃ t, issue w s = .next t ∧ t.host = s.host ∧ t.replies = s.replies := by
  obtain ⟨-, hdropped⟩ | ⟨-, _, -, hraised⟩ | ⟨-, i, -, hexec⟩ := issue_cases w s
  · exact ⟨s, hdropped, rfl, rfl⟩
  · exact ⟨_, hraised, raised_host s _ w, raised_replies s _ w⟩
  · obtain ⟨t, ht, heffect⟩ := exec_effect i s
    exact ⟨t, hexec.trans ht, heffect.host⟩

/-- Settles O51: `exec_effect` gives a command's next state, and the step of a `CMD` write issues its word. -/
theorem everyCommandCompletes : Obligations.EveryCommandCompletes := by
  refine ⟨fun i s => ?_, fun s v rest hhost => ?_⟩
  · obtain ⟨t, ht, -⟩ := exec_effect i s
    exact ⟨t, ht⟩
  · rw [step_command hhost]
    exact issue_keeps_host _ { s with host := rest }

/-! ## What a command depends on -/

/-- The two states hold the same register files. -/
structure SameRegisters (s u : State) : Prop where
  field_file : s.f = u.f
  scalar_file : s.s = u.s

namespace SameRegisters

variable {s u : State}

theorem scalar (h : SameRegisters s u) (i : ScalarReg) : s.scalar i = u.scalar i := by
  rw [State.scalar, State.scalar, State.readScalar, State.readScalar, h.scalar_file]

theorem slotValue (h : SameRegisters s u) (i : PointReg) (k : Fin 4) : s.slotValue i k = u.slotValue i k := by
  rw [State.slotValue, State.slotValue, h.field_file]

theorem readExtended (h : SameRegisters s u) (i : PointReg) : s.readExtended i = u.readExtended i := by
  simp only [State.readExtended, h.slotValue]

theorem readProjective (h : SameRegisters s u) (i : PointReg) : s.readProjective i = u.readProjective i := by
  simp only [State.readProjective, h.slotValue]

theorem readProjectiveNiels (h : SameRegisters s u) (i : PointReg) :
    s.readProjectiveNiels i = u.readProjectiveNiels i := by
  simp only [State.readProjectiveNiels, h.slotValue]

theorem readAffineNiels (h : SameRegisters s u) (i : PointReg) : s.readAffineNiels i = u.readAffineNiels i := by
  simp only [State.readAffineNiels, h.slotValue]

/-- `FE_REPR` is given the register files alone (rule R40). -/
theorem reprField (h : SameRegisters s u) (w : CommandWord) : reprField w s = reprField w u := by
  funext k n
  rw [Machine.reprField, Machine.reprField, h.field_file, h.scalar_file]

/-- Shown on the arrays: a rewrite of the vector literal itself makes the kernel compare its size proofs in both states. -/
theorem reprExtended (h : SameRegisters s u) (w : CommandWord) (E : Extended) :
    reprExtended w s E = reprExtended w u E := by
  apply Vector.toArray_inj.1
  simp only [Machine.reprExtended, h.reprField]

/-- `PT_REPR` is given the register files alone (rule R41). -/
theorem ptRepresentative (h : SameRegisters s u) (w : CommandWord) (Q : Affine) :
    ptRepresentative w s Q = ptRepresentative w u Q := by
  rw [Machine.ptRepresentative, Machine.ptRepresentative, h.field_file, h.scalar_file]

theorem writeField (h : SameRegisters s u) (i : FieldReg) (v : FieldElement) :
    SameRegisters (s.writeField i v) (u.writeField i v) :=
  ⟨by rw [writeField_f, writeField_f, h.field_file], h.scalar_file⟩

theorem writePoint (h : SameRegisters s u) (i : PointReg) (t : PointLimbs) :
    SameRegisters (s.writePoint i t) (u.writePoint i t) :=
  (((h.writeField _ _).writeField _ _).writeField _ _).writeField _ _

theorem writeScalar (h : SameRegisters s u) (i : ScalarReg) (v : UnpackedScalar) :
    SameRegisters (s.writeScalar i v) (u.writeScalar i v) := by
  by_cases hi : i.val < 6
  · exact ⟨by simp [h.field_file], by simp [State.writeScalar, hi, h.scalar_file]⟩
  · rw [writeScalar_hardwired _ _ hi, writeScalar_hardwired _ _ hi]
    exact h

end SameRegisters

/-- How the outcomes of one command from `s` and from `u` match: both leave the same register files without a draw, or
both draw. -/
inductive Matching (s u : State) :
    Host.Outcome State Fault Refusal → Host.Outcome State Fault Refusal → Prop where
  | written {t v : State} (h : SameRegisters t v) (ht : t.draws = s.draws) (hv : v.draws = u.draws) :
      Matching s u (.next t) (.next v)
  | drawn {t v : State} (ht : t.draws = s.draws + 1) (hv : v.draws = u.draws + 1) :
      Matching s u (.next t) (.next v)

namespace Matching

variable {s u : State}

/-- One condition, decided from the registers, chooses the same branch for both. -/
theorem ite {c : Prop} [Decidable c] {o p o' p' : Host.Outcome State Fault Refusal} (hpos : Matching s u o p)
    (hneg : Matching s u o' p') : Matching s u (if c then o else o') (if c then p else p') := by
  split
  · exact hpos
  · exact hneg

theorem writeField (h : SameRegisters s u) (i : FieldReg) (v : FieldElement) :
    Matching s u (.next (s.writeField i v)) (.next (u.writeField i v)) := .written (h.writeField i v) rfl rfl

theorem writePoint (h : SameRegisters s u) (i : PointReg) (t : PointLimbs) :
    Matching s u (.next (s.writePoint i t)) (.next (u.writePoint i t)) := .written (h.writePoint i t) rfl rfl

theorem writeScalar (h : SameRegisters s u) (i : ScalarReg) (v : UnpackedScalar) :
    Matching s u (.next (s.writeScalar i v)) (.next (u.writeScalar i v)) :=
  .written (h.writeScalar i v) (writeScalar_draws s i v) (writeScalar_draws u i v)

theorem raise (h : SameRegisters s u) (c : Cause) (w : CommandWord) :
    Matching s u (raise c w s) (raise c w u) :=
  .written ⟨h.field_file, h.scalar_file⟩ rfl rfl

/-- The values drawn may differ: two counters draw two values. -/
theorem writePoint_drawn (i : PointReg) (t t' : PointLimbs) :
    Matching s u (.next (s.writePoint i t).drawn) (.next (u.writePoint i t').drawn) := .drawn rfl rfl

theorem writeScalar_drawn (i : ScalarReg) (v v' : UnpackedScalar) :
    Matching s u (.next (s.writeScalar i v).drawn) (.next (u.writeScalar i v').drawn) :=
  .drawn (by simp) (by simp)

theorem addAndWrite (h : SameRegisters s u) (w : CommandWord) (pd pa : PointReg) (N : ProjectiveNiels) :
    Matching s u (addAndWrite w pd pa N s) (addAndWrite w pd pa N u) := by
  rw [Machine.addAndWrite, Machine.addAndWrite, h.reprExtended, h.readExtended]
  exact writePoint h pd _

end Matching

/-- The register files decide what a command writes and whether it draws (rule R246): what it reads, the conditions it
checks and what it writes are the same in both states. -/
theorem exec_matching {s u : State} (h : SameRegisters s u) (i : Instr) : Matching s u (exec i s) (exec i u) := by
  cases i with
  | mmul sd sa sb =>
    simp only [exec, execMmul, h.scalar]
    exact .ite (.ite (.writeScalar h sd _) (.writeScalar_drawn sd _ _)) (.raise h _ _)
  | fred fd fa =>
    rw [exec_fred, exec_fred, h.field_file]
    exact .writeField h fd _
  | fredc fd fa =>
    rw [exec_fredc, exec_fredc, h.field_file]
    exact .writeField h fd _
  | pdbl pd pa k =>
    simp only [exec, execPdbl, h.readProjective, h.reprExtended]
    exact .ite (.raise h _ _) (.writePoint h pd _)
  | paddE pd pa pb =>
    rw [exec_paddE, exec_paddE, h.readExtended]
    exact .addAndWrite h _ pd pa _
  | paddPN pd pa pb =>
    rw [exec_paddPN, exec_paddPN, h.readProjectiveNiels]
    exact .addAndWrite h _ pd pa _
  | paddAN pd pa pb =>
    rw [exec_paddAN, exec_paddAN, h.readAffineNiels]
    exact .addAndWrite h _ pd pa _
  | smvb pd sa pA sb =>
    simp only [exec, execSmvb, h.scalar, h.readExtended, h.ptRepresentative]
    exact .ite (.ite (.writePoint h pd _) (.writePoint_drawn pd _ _)) (.raise h _ _)
  | smfb pd sa =>
    simp only [exec, execSmfb, h.scalar, h.ptRepresentative]
    exact .ite (.writePoint h pd _) (.raise h _ _)

/-- Settles O53: the outcomes from two states with the same register files match. -/
theorem commandsReadOnlyTheRegisters : Obligations.CommandsReadOnlyTheRegisters := by
  intro i s u hf hs
  have hmatch := exec_matching ⟨hf, hs⟩ i
  generalize exec i s = o, exec i u = p at hmatch ⊢
  cases hmatch with
  | @written t v hregs ht hv =>
    obtain ⟨hf', hs'⟩ := hregs
    exact ⟨t, v, rfl, rfl, iff_of_true ht hv, fun _ => ⟨hf', hs'⟩⟩
  | @drawn t v ht hv =>
    have hdrawn : t.draws ≠ s.draws := by omega
    have hdrawn' : v.draws ≠ u.draws := by omega
    exact ⟨t, v, rfl, rfl, iff_of_false hdrawn hdrawn', fun hkept => absurd hkept hdrawn⟩

/-! ## The commands that draw free values -/

section
variable {s : State}

theorem draws_of_onlyPoint {r : PointReg} {t : State} (h : OnlyPoint r 0 s t) : t.draws = s.draws := by
  obtain ⟨-, -, -, -, hdraws⟩ := h
  exact hdraws

/-- Inside its value precondition, or with a hardwired destination, `MMUL` draws nothing (rules R97, R156). -/
theorem exec_mmul_draws (sd : ScalarReg) {sa sb : ScalarReg}
    (h : s.scalar sa * s.scalar sb < montRadix * groupOrder) :
    ∃ t, exec (.mmul sd sa sb) s = .next t ∧ t.draws = s.draws := by
  by_cases hsd : sd.val < 6
  · exact ⟨_, exec_mmul_inside sa sb hsd h, writeScalar_draws s sd _⟩
  · exact ⟨_, exec_mmul_hardwired sa sb s hsd, rfl⟩

/-- On a valid tuple `SMVB` draws nothing, whatever the scalars (rules R186, R187). -/
theorem exec_smvb_draws (pd : PointReg) (sa sb : ScalarReg) {pA : PointReg}
    (hA : (s.readExtended pA).valid = true) :
    ∃ t, exec (.smvb pd sa pA sb) s = .next t ∧ t.draws = s.draws := by
  by_cases hrange : s.scalar sa < 2 ^ 255 ∧ s.scalar sb < 2 ^ 255
  · obtain ⟨ha, hb⟩ := hrange
    obtain ⟨t, ht, honly, -⟩ := exec_smvb pd ha hb hA
    exact ⟨t, ht, draws_of_onlyPoint honly⟩
  · exact ⟨_, exec_smvb_large pd (by omega), rfl⟩

/-- Outside the two cases of rule R246 a command completes without a draw. -/
theorem exec_draws (i : Instr)
    (hmmul : ∀ sd sa sb, i = .mmul sd sa sb → s.scalar sa * s.scalar sb < 2 ^ 260 * groupOrder)
    (hsmvb : ∀ pd sa pA sb, i = .smvb pd sa pA sb → (s.readExtended pA).valid = true) :
    ∃ t, exec i s = .next t ∧ t.draws = s.draws := by
  cases i with
  | mmul sd sa sb => exact exec_mmul_draws sd (lt_montRadix_mul_iff.1 (hmmul sd sa sb rfl))
  | fred fd fa => exact ⟨_, exec_fred fd fa s, rfl⟩
  | fredc fd fa => exact ⟨_, exec_fredc fd fa s, rfl⟩
  | pdbl pd pa k =>
    obtain rfl | hk := eq_or_ne k 0
    · exact ⟨_, exec_pdbl_zero pd pa s, rfl⟩
    · obtain ⟨t, ht, honly, -⟩ := exec_pdbl pd pa s hk
      exact ⟨t, ht, draws_of_onlyPoint honly⟩
  | paddE pd pa pb => exact ⟨_, exec_paddE pd pa pb s, rfl⟩
  | paddPN pd pa pb => exact ⟨_, exec_paddPN pd pa pb s, rfl⟩
  | paddAN pd pa pb => exact ⟨_, exec_paddAN pd pa pb s, rfl⟩
  | smvb pd sa pA sb => exact exec_smvb_draws pd sa sb (hsmvb pd sa pA sb rfl)
  | smfb pd sa =>
    obtain hk | hk := lt_or_ge (s.scalar sa) (2 ^ 255)
    · obtain ⟨t, ht, honly, -⟩ := exec_smfb pd hk
      exact ⟨t, ht, draws_of_onlyPoint honly⟩
    · exact ⟨_, exec_smfb_large pd hk, rfl⟩

end

/-- Settles O54: a command in neither of the two cases completes without a draw, by `exec_draws`. -/
theorem onlyTwoCommandsDrawFreeValues : Obligations.OnlyTwoCommandsDrawFreeValues := by
  intro i s t h hdraws
  by_contra hneither
  obtain ⟨hmmul, hsmvb⟩ := not_or.1 hneither
  obtain ⟨u, hu, hkept⟩ := exec_draws (s := s) i
    (fun sd sa sb hi => by_contra fun hout => hmmul ⟨sd, sa, sb, hi, hout⟩)
    (fun pd sa pA sb hi => Bool.of_not_eq_false fun hinvalid => hsmvb ⟨pd, sa, pA, sb, hi, hinvalid⟩)
  obtain rfl : u = t := Host.Outcome.next.inj (hu.symm.trans h)
  exact hdraws hkept

/-! ## The reset input -/

theorem statusWord_resetInput (s : State) : s.resetInput.statusWord = 0 := statusWord_afterReset s.f s.s

theorem fcmdWord_resetInput (s : State) : s.resetInput.fcmdWord = 0 := fcmdWord_afterReset s.f s.s

/-- Settles O59: the first step is the reset input, which clears `FAULT`, so the second runs the command. -/
theorem resetInputClearsTheFault : Obligations.ResetInputClearsTheFault := by
  intro s i rest hi hhost
  have hreset : step s = .next (State.resetInput { s with host := cmd i :: rest }) := step_cons hhost
  refine ⟨_, hreset, statusWord_resetInput _, fcmdWord_resetInput _, ?_, ?_, rfl, step_cmd hi rfl rfl⟩
  · rw [readScalar_sR, readScalar_sR]
  · rw [readScalar_sRR, readScalar_sRR]

end Sys2Proof.Proofs
end
